-- ==== Sys2Proof/Word.lean ====
section
/-!
DEFINITION. The words of the packet engine: bytes, 16-bit fields and handler identifiers, addresses, byte strings
(00_scope.md R11, R12). A header field or a length while it is computed is a natural number (R14).
-/
namespace Sys2Proof

/-- A byte (R11). -/
abbrev Byte := BitVec 8

/-- A byte string (R11). -/
abbrev Bytes := List Byte

/-- A 16-bit field: an EtherType, a port, a key, a handler identifier, an identification (R21, R33). -/
abbrev Half := BitVec 16

/-- An IPv4 address as the number `be32` of its wire-order bytes (R12). -/
abbrev IpAddr := BitVec 32

/-- A MAC address as the number `be48` of its wire-order bytes (R12). -/
abbrev MacAddr := BitVec 48

end Sys2Proof
end

