-- ==== Sys2Proof/Config.lean ====
section
/-!
DEFINITION. What one implementation of the packet engine fixes (00_scope.md R9), and the free values: constants
without a body, so that no proof can see what they are (93_implementation_defined.md, treatment `any value`).
-/
namespace Sys2Proof

/-- The configuration of R9: the four straps sampled at reset (R250) and the three capacities. -/
structure Config where
  ifMac        : MacAddr
  ifIp         : IpAddr
  mtu          : Half
  ipTtlDefault : Byte
  dispatchCap  : Nat
  portCap      : Nat
  bufCap       : Nat
  deriving DecidableEq, Repr

namespace Config

/-- `BUF_HEADROOM` = 8 + 20 + 14 bytes (R9, D19). -/
abbrev bufHeadroom : Nat := 42

/-- `H_IP_RX`, the handler identifier of the block's own IPv4 validator (R9, R33). -/
abbrev hIpRx : Half := 0x0001#16

/-- `H_UDP_RX`, the handler identifier of the block's own UDP parser (R9, R33). -/
abbrev hUdpRx : Half := 0x0002#16

/-- `ETHERTYPE_IPV4`, used by the boot sequence only (R9, R252; spec's general knowledge G5). -/
abbrev etherTypeIpv4 : Half := 0x0800#16

/-! ### Free values: uninterpreted constants -/

/-- The strap input `IF_MAC` (R9: OPEN, no default; log 1). -/
opaque strapIfMac : MacAddr

/-- The strap input `IF_IP` (R9: OPEN, no default; log 1). -/
opaque strapIfIp : IpAddr

/-- How far `DISPATCH_CAP` exceeds its minimum 2 (R9: OPEN, no default; log 1). -/
opaque dispatchCapExtra : Nat

/-- How far `PORT_CAP` exceeds its minimum 1 (R9: OPEN, no default; log 1). -/
opaque portCapExtra : Nat

/-- `freeByte e a`: the unspecified byte at backing index `a` of a Buffer whose unspecified bytes are draw `e`
(R62, U4, U12: any value; log 4). -/
opaque freeByte : Nat → Nat → Byte

/-- `freeLatch n k`: the value operand latch number `k` holds after draw `n`, between commands (R21, U22; log 3). -/
opaque freeLatch : Nat → Nat → Nat

/-- `linkAnswer n`: the link driver's answer at draw `n` (R146, U9: a draw per EV_DRV_TX; log 6). -/
opaque linkAnswer : Nat → Bool

/-- The configuration `State.reset` samples: R9's default where it gives one, an open constant elsewhere (log 1). -/
def installed : Config where
  ifMac        := strapIfMac
  ifIp         := strapIfIp
  mtu          := 1500#16
  ipTtlDefault := 64#8
  dispatchCap  := dispatchCapExtra + 2
  portCap      := portCapExtra + 1
  bufCap       := 65623

end Config
end Sys2Proof
end

