-- ==== Sys2Proof/Syntax.lean ====
section
/-!
DEFINITION. The commands of the packet engine, one constructor for each row of spec/opcode_table.json
(30_encoding.md R106, R107). A command is its operands and its payload; `LEN` is the payload's length (R105, R110).
-/
namespace Sys2Proof

/-- The source operand of `NET_DISPATCH`: a 6-byte MAC or a 4-byte IPv4 address (R106 format D, R154). -/
inductive Source where
  | mac (a : MacAddr)
  | ip (a : IpAddr)
  deriving DecidableEq, Repr

/-- The thirteen commands (R107). -/
inductive Instr where
  /-- CSUM16 (R130). -/
  | csum16 (payload : Bytes)
  /-- ETH_RX (R141). -/
  | ethRx (payload : Bytes)
  /-- ETH_TX (R145). -/
  | ethTx (mac : MacAddr) (proto : Half) (payload : Bytes)
  /-- ETH_POLL (R148). -/
  | ethPoll
  /-- NET_REGISTER (R152). -/
  | netRegister (key hnd : Half)
  /-- NET_DISPATCH (R154). -/
  | netDispatch (src : Source) (proto : Half) (payload : Bytes)
  /-- IP_RX (R160). -/
  | ipRx (mac : MacAddr) (payload : Bytes)
  /-- IP_FRAG_EMIT (R170). -/
  | ipFragEmit (ip : IpAddr) (proto : Byte) (ident : Half) (off : Half) (mf : Bool) (payload : Bytes)
  /-- IP_TX (R175). -/
  | ipTx (ip : IpAddr) (proto : Byte) (payload : Bytes)
  /-- UDP_RX (R185). -/
  | udpRx (ip : IpAddr) (payload : Bytes)
  /-- UDP_TX (R193). -/
  | udpTx (ip : IpAddr) (sport dport : Half) (payload : Bytes)
  /-- UDP_OPEN (R200). -/
  | udpOpen (key hnd : Half)
  /-- UDP_CLOSE (R203). -/
  | udpClose (key : Half)
  deriving DecidableEq, Repr

namespace Instr

/-- The payload bytes that follow the descriptor; a command of format T and `ETH_POLL` have none (R106). -/
def payload : Instr → Bytes
  | csum16 p => p
  | ethRx p => p
  | ethTx _ _ p => p
  | ethPoll => []
  | netRegister _ _ => []
  | netDispatch _ _ p => p
  | ipRx _ p => p
  | ipFragEmit _ _ _ _ _ p => p
  | ipTx _ _ p => p
  | udpRx _ p => p
  | udpTx _ _ _ p => p
  | udpOpen _ _ => []
  | udpClose _ => []

/-- The pseudo-operation `BOOT` (R111, R252). -/
def boot : List Instr :=
  [netRegister Config.etherTypeIpv4 Config.hIpRx, netRegister 17#16 Config.hUdpRx]

end Instr
end Sys2Proof
end

