-- ==== Sys2Proof/WellFormed.lean ====
section
/-!
DEFINITION. Which commands can be written down: the 16-bit field `LEN` must hold the payload's length (R105). Every
other limit of R106 and R108 is in the types of `Instr`'s operands.
-/
namespace Sys2Proof

/-- A command that has an encoding: its payload is 0 to 65535 bytes (R105). -/
def WellFormed (i : Instr) : Bool := decide (i.payload.length ≤ 65535)

end Sys2Proof
end

