-- ==== Sys2Proof/Decode.lean ====
section
/-!
DEFINITION. Byte order, the command decoder and the encoder (30_encoding.md R105 to R108, R110, R111; 20_memory.md R70).
The decoder is total on any bytes and names what it rejects; the encoder is written from the same format table.
-/
namespace Sys2Proof

/-! ### Byte order (R11, R70) -/

/-- The unsigned number of a byte string, most significant byte first: `be16`, `be32`, `be48` of R11. -/
def beNat (bs : Bytes) : Nat := bs.foldl (fun n b => n * 256 + b.toNat) 0

/-- The `n` low bytes of `v`, most significant first; `bytesOf 2` is `w16` of R11. -/
def bytesOf : Nat → Nat → Bytes
  | 0, _ => []
  | n + 1, v => bytesOf n (v / 256) ++ [BitVec.ofNat 8 v]

/-- `zeros(n)` of R11. -/
def zeros (n : Nat) : Bytes := List.replicate n 0#8

/-- The number in the `n` bytes of `bs` from offset `off` (R11). -/
def beAt (bs : Bytes) (off n : Nat) : Nat := beNat ((bs.drop off).take n)

/-! ### Operation codes (R107) -/

/-- The operations of R107. -/
inductive Opcode where
  | csum16 | ethRx | ethTx | ethPoll | netRegister | netDispatch | ipRx | ipFragEmit | ipTx | udpRx | udpTx
  | udpOpen | udpClose
  deriving DecidableEq, Repr

namespace Opcode

/-- `OPC` (R107). -/
def code : Opcode → Byte
  | csum16 => 0x01#8
  | ethRx => 0x10#8
  | ethTx => 0x11#8
  | ethPoll => 0x12#8
  | netRegister => 0x20#8
  | netDispatch => 0x21#8
  | ipRx => 0x30#8
  | ipFragEmit => 0x31#8
  | ipTx => 0x32#8
  | udpRx => 0x40#8
  | udpTx => 0x41#8
  | udpOpen => 0x42#8
  | udpClose => 0x43#8

/-- Every operation once, in the order of R107. -/
def all : List Opcode :=
  [csum16, ethRx, ethTx, ethPoll, netRegister, netDispatch, ipRx, ipFragEmit, ipTx, udpRx, udpTx, udpOpen, udpClose]

/-- The operation a first byte selects; every other value is reserved (R107, R108). -/
def ofByte (b : Byte) : Option Opcode := all.find? fun op => op.code == b

/-- The descriptor bytes among 4 to 15 that format and operation leave unused, which must be 0 (R106). Bytes 8 and 9
of a 4-byte source are checked in `decodeOperands`. -/
def unusedBytes : Opcode → List Nat
  | csum16 | ethRx | ethPoll => [4, 5, 6, 7, 8, 9, 10, 11, 12, 13, 14, 15]
  | ethTx => [12, 13, 14, 15]
  | ipRx => [10, 11, 12, 13, 14, 15]
  | netDispatch => [13, 14, 15]
  | ipTx => [9, 10, 11, 12, 13, 14, 15]
  | udpRx => [8, 9, 10, 11, 12, 13, 14, 15]
  | ipFragEmit => [9, 14, 15]
  | udpTx => [12, 13, 14, 15]
  | netRegister | udpOpen => [8, 9, 10, 11, 12, 13, 14, 15]
  | udpClose => [6, 7, 8, 9, 10, 11, 12, 13, 14, 15]

/-- The operations whose `LEN` must be 0: format T and `ETH_POLL` (R106). -/
def noPayload : Opcode → Bool
  | ethPoll | netRegister | udpOpen | udpClose => true
  | csum16 | ethRx | ethTx | netDispatch | ipRx | ipFragEmit | ipTx | udpRx | udpTx => false

/-- Byte 1 of the descriptor: bits 7 to 1 zero, and bit 0 is `MF` of `IP_FRAG_EMIT`, zero elsewhere (R105). -/
def flagsLegal (op : Opcode) (b : Byte) : Bool :=
  b == 0#8 || (op == ipFragEmit && b == 1#8)

end Opcode

/-- The operation of a command. -/
def Instr.opcode : Instr → Opcode
  | .csum16 _ => .csum16
  | .ethRx _ => .ethRx
  | .ethTx _ _ _ => .ethTx
  | .ethPoll => .ethPoll
  | .netRegister _ _ => .netRegister
  | .netDispatch _ _ _ => .netDispatch
  | .ipRx _ _ => .ipRx
  | .ipFragEmit _ _ _ _ _ _ => .ipFragEmit
  | .ipTx _ _ _ => .ipTx
  | .udpRx _ _ => .udpRx
  | .udpTx _ _ _ _ => .udpTx
  | .udpOpen _ _ => .udpOpen
  | .udpClose _ => .udpClose

/-! ### Decoding (R105, R106, R108) -/

/-- Why a descriptor is an illegal command (R108). -/
inductive Illegal where
  /-- `OPC` is not in R107. -/
  | reservedOpcode
  /-- A bit or byte that must be zero is not. -/
  | nonZeroReserved
  /-- `LEN` is not 0 where R106 requires 0. -/
  | payloadNotAllowed
  /-- `SRCW` is neither 4 nor 6. -/
  | badSourceWidth
  deriving DecidableEq, Repr

/-- The operand fields of operation `op` in the 16-byte descriptor `d` (R106). -/
def decodeOperands (op : Opcode) (d : Bytes) (payload : Bytes) : Except Illegal Instr :=
  match op with
  | .csum16 => .ok (.csum16 payload)
  | .ethRx => .ok (.ethRx payload)
  | .ethTx => .ok (.ethTx (BitVec.ofNat 48 (beAt d 4 6)) (BitVec.ofNat 16 (beAt d 10 2)) payload)
  | .ethPoll => .ok .ethPoll
  | .netRegister => .ok (.netRegister (BitVec.ofNat 16 (beAt d 4 2)) (BitVec.ofNat 16 (beAt d 6 2)))
  | .netDispatch =>
    if beAt d 12 1 = 6 then
      .ok (.netDispatch (.mac (BitVec.ofNat 48 (beAt d 4 6))) (BitVec.ofNat 16 (beAt d 10 2)) payload)
    else if beAt d 12 1 = 4 then
      if beAt d 8 2 = 0 then
        .ok (.netDispatch (.ip (BitVec.ofNat 32 (beAt d 4 4))) (BitVec.ofNat 16 (beAt d 10 2)) payload)
      else .error .nonZeroReserved
    else .error .badSourceWidth
  | .ipRx => .ok (.ipRx (BitVec.ofNat 48 (beAt d 4 6)) payload)
  | .ipFragEmit =>
    .ok (.ipFragEmit (BitVec.ofNat 32 (beAt d 4 4)) (BitVec.ofNat 8 (beAt d 8 1)) (BitVec.ofNat 16 (beAt d 10 2))
      (BitVec.ofNat 16 (beAt d 12 2)) (beAt d 1 1 == 1) payload)
  | .ipTx => .ok (.ipTx (BitVec.ofNat 32 (beAt d 4 4)) (BitVec.ofNat 8 (beAt d 8 1)) payload)
  | .udpRx => .ok (.udpRx (BitVec.ofNat 32 (beAt d 4 4)) payload)
  | .udpTx =>
    .ok (.udpTx (BitVec.ofNat 32 (beAt d 4 4)) (BitVec.ofNat 16 (beAt d 8 2)) (BitVec.ofNat 16 (beAt d 10 2)) payload)
  | .udpOpen => .ok (.udpOpen (BitVec.ofNat 16 (beAt d 4 2)) (BitVec.ofNat 16 (beAt d 6 2)))
  | .udpClose => .ok (.udpClose (BitVec.ofNat 16 (beAt d 4 2)))

/-- A 16-byte descriptor and its payload: the command, or why it is illegal (R108). -/
def decodeDescriptor (d : Bytes) (payload : Bytes) : Except Illegal Instr :=
  match Opcode.ofByte (d.getD 0 0#8) with
  | none => .error .reservedOpcode
  | some op =>
    if !op.flagsLegal (d.getD 1 0#8) then .error .nonZeroReserved
    else if op.unusedBytes.any (fun k => d.getD k 0#8 != 0#8) then .error .nonZeroReserved
    else if op.noPayload && !payload.isEmpty then .error .payloadNotAllowed
    else decodeOperands op d payload

/-- What the bytes at the command port begin with. -/
inductive Decoded where
  /-- No whole command is there yet: fewer than 16 bytes, or fewer than `LEN` payload bytes after them. -/
  | incomplete
  /-- An illegal command (R108); `rest` is what follows its payload, which is discarded. -/
  | illegal (why : Illegal) (rest : Bytes)
  /-- A command, and what follows it. -/
  | command (i : Instr) (rest : Bytes)
  deriving DecidableEq, Repr

/-- The decoder: a descriptor and the `LEN` payload bytes that follow it (R105, R108). -/
def decode (bs : Bytes) : Decoded :=
  if bs.length < 16 then .incomplete
  else if (bs.drop 16).length < beAt bs 2 2 then .incomplete
  else
    match decodeDescriptor (bs.take 16) ((bs.drop 16).take (beAt bs 2 2)) with
    | .error why => .illegal why ((bs.drop 16).drop (beAt bs 2 2))
    | .ok i => .command i ((bs.drop 16).drop (beAt bs 2 2))

/-! ### Encoding (R105, R106) -/

/-- The six `SRC` bytes and the `SRCW` byte of a source: a 4-byte source fills bytes 4 to 7 and leaves 8 and 9
zero (R106). -/
def Source.srcBytes : Source → Bytes
  | .mac a => bytesOf 6 a.toNat
  | .ip a => bytesOf 4 a.toNat ++ zeros 2

/-- `SRCW`: the width of a source in bytes (R106, R21). -/
def Source.width : Source → Byte
  | .mac _ => 6#8
  | .ip _ => 4#8

/-- Bytes 4 to 15 of the descriptor (R106). -/
def Instr.operandBytes : Instr → Bytes
  | .csum16 _ => zeros 12
  | .ethRx _ => zeros 12
  | .ethTx mac proto _ => bytesOf 6 mac.toNat ++ bytesOf 2 proto.toNat ++ zeros 4
  | .ethPoll => zeros 12
  | .netRegister key hnd => bytesOf 2 key.toNat ++ bytesOf 2 hnd.toNat ++ zeros 8
  | .netDispatch src proto _ => src.srcBytes ++ bytesOf 2 proto.toNat ++ [src.width] ++ zeros 3
  | .ipRx mac _ => bytesOf 6 mac.toNat ++ zeros 6
  | .ipFragEmit ip proto ident off _ _ =>
    bytesOf 4 ip.toNat ++ [proto] ++ zeros 1 ++ bytesOf 2 ident.toNat ++ bytesOf 2 off.toNat ++ zeros 2
  | .ipTx ip proto _ => bytesOf 4 ip.toNat ++ [proto] ++ zeros 7
  | .udpRx ip _ => bytesOf 4 ip.toNat ++ zeros 8
  | .udpTx ip sport dport _ => bytesOf 4 ip.toNat ++ bytesOf 2 sport.toNat ++ bytesOf 2 dport.toNat ++ zeros 4
  | .udpOpen key hnd => bytesOf 2 key.toNat ++ bytesOf 2 hnd.toNat ++ zeros 8
  | .udpClose key => bytesOf 2 key.toNat ++ zeros 10

/-- Byte 1 of the descriptor: the `MF` operand (R105). -/
def Instr.flagByte : Instr → Byte
  | .ipFragEmit _ _ _ _ mf _ => if mf then 1#8 else 0#8
  | .csum16 _ | .ethRx _ | .ethTx _ _ _ | .ethPoll | .netRegister _ _ | .netDispatch _ _ _ | .ipRx _ _
  | .ipTx _ _ _ | .udpRx _ _ | .udpTx _ _ _ _ | .udpOpen _ _ | .udpClose _ => 0#8

/-- The 16-byte descriptor of a command (R105). -/
def Instr.descriptor (i : Instr) : Bytes :=
  [i.opcode.code, i.flagByte] ++ bytesOf 2 i.payload.length ++ i.operandBytes

/-- The bytes of a command as they are sent to the command port: its descriptor and its payload (R105). -/
def encode (i : Instr) : Bytes := i.descriptor ++ i.payload

/-! ### Words of spec/opcode_table.json -/

/-- The `match` and `mask` words of each row of spec/opcode_table.json. The decoder does not use them: a claim compares
the two. -/
def opcodeTable : List (Opcode × Nat × Nat) :=
  [(.csum16, 0x01000000000000000000000000000000, 0xFFFF0000FFFFFFFFFFFFFFFFFFFFFFFF),
   (.ethRx, 0x10000000000000000000000000000000, 0xFFFF0000FFFFFFFFFFFFFFFFFFFFFFFF),
   (.ethTx, 0x11000000000000000000000000000000, 0xFFFF00000000000000000000FFFFFFFF),
   (.ethPoll, 0x12000000000000000000000000000000, 0xFFFFFFFFFFFFFFFFFFFFFFFFFFFFFFFF),
   (.netRegister, 0x20000000000000000000000000000000, 0xFFFFFFFF00000000FFFFFFFFFFFFFFFF),
   (.netDispatch, 0x21000000000000000000000000000000, 0xFFFF0000000000000000000000FFFFFF),
   (.ipRx, 0x30000000000000000000000000000000, 0xFFFF0000000000000000FFFFFFFFFFFF)] ++
  [(.ipFragEmit, 0x31000000000000000000000000000000, 0xFFFE00000000000000FF00000000FFFF),
   (.ipTx, 0x32000000000000000000000000000000, 0xFFFF00000000000000FFFFFFFFFFFFFF),
   (.udpRx, 0x40000000000000000000000000000000, 0xFFFF000000000000FFFFFFFFFFFFFFFF),
   (.udpTx, 0x41000000000000000000000000000000, 0xFFFF00000000000000000000FFFFFFFF),
   (.udpOpen, 0x42000000000000000000000000000000, 0xFFFFFFFF00000000FFFFFFFFFFFFFFFF),
   (.udpClose, 0x43000000000000000000000000000000, 0xFFFFFFFF0000FFFFFFFFFFFFFFFFFFFF)]

/-- The bytes of the command whose descriptor is the table's 128-bit number `w`: byte `k` is bits `127-8k : 120-8k`
(R105), and every payload byte is 0. -/
def tableBytes (w : Nat) : Bytes := bytesOf 16 w ++ zeros (beAt (bytesOf 16 w) 2 2)

/-- The command the decoder reads from a word numbered as spec/opcode_table.json numbers it. Every row has 128 bits. -/
def decodeTableWord (nbits w : Nat) : Option Instr :=
  if nbits = 128 then
    match decode (tableBytes w) with
    | .command i _ => some i
    | .illegal _ _ => none
    | .incomplete => none
  else none

end Sys2Proof
end

