-- ==== Sys2Proof/Machine/State.lean ====
section
/-!
DEFINITION. The state of the packet engine as plain data (10_state.md, 20_memory.md), the reasons a step stops, and the
state after reset (R37, R250). INVENTORY.md lists every field with its rule and its reset value.
-/
namespace Sys2Proof.Machine

/-! ### Outputs (60_exceptions.md R234, R109) -/

/-- The reason of an `EV_ICMP_UNREACH` (R215). -/
inductive Unreachable where
  | protocolUnreachable
  | portUnreachable
  deriving DecidableEq, Repr

/-- The six kinds of event (R234). Byte strings in them are copies (R69). -/
inductive Event where
  /-- `EV_DRV_TX`. -/
  | drvTx (frame : Bytes)
  /-- `EV_DRV_POLL`. -/
  | drvPoll
  /-- `EV_ARP`. -/
  | arp (datagram : Bytes) (dstIp : IpAddr)
  /-- `EV_ICMP_UNREACH`. -/
  | icmpUnreach (orig : Bytes) (dstIp : IpAddr) (reason : Unreachable)
  /-- `EV_HANDLER`. -/
  | handler (hnd : Half) (payload : Bytes) (length : Half) (srcIp : IpAddr) (srcPort : Half)
  /-- `EV_UPWARD`; `src` is 4 or 6 bytes. -/
  | upward (hnd : Half) (payload : Bytes) (protocol : Half) (src : Bytes)
  deriving DecidableEq, Repr

/-- What leaves the block: events, and one response to each command (R78, R109). -/
inductive Output where
  | event (e : Event)
  | response (status : Byte) (result : Half)
  deriving DecidableEq, Repr

/-! ### Early ends (60_exceptions.md R210 to R213) -/

/-- The ten `DROP_*` labels (R213). -/
inductive DropReason where
  | ethShort | noHandler | ipShort | ipVersion | ipTotlen | ipCsum | ipDst | udpShort | udpLen | udpCsum
  deriving DecidableEq, Repr

/-- The two `NOTIFY_*` labels (R213). -/
inductive NotifyCode where
  | protoUnreach | portUnreach
  deriving DecidableEq, Repr

/-- The six failures (R212). -/
inductive Failure where
  | tableFull | tooLong | badOperand | link | badCmd | buf
  deriving DecidableEq, Repr

/-- The three ways an operation ends early (R210 to R212). -/
inductive EarlyEnd where
  | drop (r : DropReason)
  | notify (c : NotifyCode)
  | fail (f : Failure)
  deriving DecidableEq, Repr

/-! ### Memory and Buffers (20_memory.md) -/

/-- The backing store of a Buffer: the bytes that hold a defined value, by backing index. An index that is not listed
is unspecified (R62, R37). -/
abbrev Memory := List Host.Cell

/-- A packet Buffer: backing store and window `[start, start+len)` (R34, R60). `epoch` is the MODEL's own: which draw
the unspecified bytes come from (R62; log 4). -/
structure Buffer where
  data  : Memory
  start : Nat
  len   : Nat
  epoch : Nat
  deriving DecidableEq, Repr

/-- Which of the two Buffers an operation works on (R34, R182). -/
inductive BufId where
  | buf | fbuf
  deriving DecidableEq, Repr

/-! ### Registers and tables (10_state.md) -/

/-- `IDLE` or `BUSY` (R22). -/
inductive Engine where
  | idle | busy
  deriving DecidableEq, Repr

/-- The operand latches (R21). `src` holds the six `SRC` bytes, a 4-byte source in its high 32 bits. -/
structure Latches where
  opc     : Byte
  mf      : Bool
  len     : Half
  mac     : MacAddr
  proto16 : Half
  src     : BitVec 48
  srcw    : Byte
  ip      : IpAddr
  proto8  : Byte
  ident   : Half
  off     : Half
  sport   : Half
  dport   : Half
  key     : Half
  hnd     : Half
  deriving DecidableEq, Repr

/-- A partial map from 16-bit keys to handler identifiers, as pairs with rising keys (R31, R32). -/
abbrev Table := List (Half × Half)

/-- The capacities of R9: `DISPATCH_CAP`, `PORT_CAP`, `BUF_CAP`. -/
structure Capacities where
  dispatch : Nat
  ports    : Nat
  buf      : Nat
  deriving DecidableEq, Repr

/-- The state of the block and of its interface. -/
structure State where
  /-- DISPATCH_CAP, PORT_CAP, BUF_CAP (R9). -/
  caps         : Capacities
  /-- CR.IF_MAC (R26). -/
  ifMac        : MacAddr
  /-- CR.IF_IP (R27). -/
  ifIp         : IpAddr
  /-- CR.MTU (R28). -/
  mtu          : Half
  /-- CR.IP_TTL_DEFAULT (R29). -/
  ipTtlDefault : Byte
  /-- CR.IP_ID (R30). -/
  ipId         : Half
  /-- DISPATCH (R31). -/
  dispatch     : Table
  /-- PORTS (R32). -/
  ports        : Table
  /-- The engine state (R22). -/
  engine       : Engine
  /-- The operand latches (R21). -/
  latches      : Latches
  /-- STATUS (R24). -/
  status       : Byte
  /-- RESULT (R24). -/
  result       : Half
  /-- BUF (R34). -/
  buf          : Buffer
  /-- FBUF (R34). -/
  fbuf         : Buffer
  /-- MODEL's own: bytes sent to the command port and not yet consumed (R105, R239; log 5). -/
  port         : Bytes
  /-- MODEL's own: the driver's coming answers to EV_DRV_TX, `true` for success (R146, D22; log 6). -/
  txAnswers    : List Bool
  /-- MODEL's own: the driver's coming answers to EV_DRV_POLL (R148, D22; log 6). -/
  pollAnswers  : List (Option Bytes)
  /-- MODEL's own: how many free values have been drawn (log 4). -/
  draws        : Nat
  /-- MODEL's own: what has left the block, oldest first (R78). -/
  trace        : List Output
  /-- MODEL's own ghost: how the last command ended early, if it did (R210, U13; log 7). -/
  lastEnd      : Option EarlyEnd
  deriving DecidableEq, Repr

/-! ### Reasons to stop -/

/-- A machine that is stuck. -/
inductive Fault where
  /-- Raised by the fragmenter (`IP_TX`, `UDP_TX`) when `MTU - 20` is 0, so that its cursor does not advance and the
  loop of R175 never ends. R251 rules such an MTU out, so `step` never reaches it. Safe. -/
  | fragmenterStuck
  deriving DecidableEq, Repr

/-- An instruction or a state without a meaning. -/
inductive Refusal where
  /-- Raised by `exec` for an instruction that has no meaning yet. Safe. -/
  | notModelled (mnemonic : String)
  /-- Raised by `step` when MTU or a capacity breaks a constraint of R9: the configuration is refused, not run
  (R251, U8). Safe. -/
  | illegalConfiguration
  /-- Raised by `step` when the engine is BUSY: commands are accepted only in IDLE (R22, R265, U15). Safe. -/
  | engineBusy
  /-- Raised by `NET_DISPATCH` when an in-block handler is reached with the wrong kind of source (R157, U3: the model
  must refuse the run). Safe. -/
  | wrongSource
  deriving DecidableEq, Repr

/-! ### Reset (R37, R250) -/

/-- The latches after reset: unspecified by R21 and R37, zero here (DESIGN CHOICE, log 2). -/
def Latches.reset : Latches where
  opc := 0#8
  mf := false
  len := 0#16
  mac := 0#48
  proto16 := 0#16
  src := 0#48
  srcw := 0#8
  ip := 0#32
  proto8 := 0#8
  ident := 0#16
  off := 0#16
  sport := 0#16
  dport := 0#16
  key := 0#16
  hnd := 0#16

/-- The block right after a reset that samples the configuration `c` (R250). -/
def State.resetWith (c : Config) : State where
  caps := { dispatch := c.dispatchCap, ports := c.portCap, buf := c.bufCap }
  ifMac := c.ifMac
  ifIp := c.ifIp
  mtu := c.mtu
  ipTtlDefault := c.ipTtlDefault
  ipId := 0#16
  dispatch := []
  ports := []
  engine := .idle
  latches := Latches.reset
  status := 0#8
  result := 0#16
  buf := { data := [], start := 0, len := 0, epoch := 0 }
  fbuf := { data := [], start := 0, len := 0, epoch := 1 }
  port := []
  txAnswers := []
  pollAnswers := []
  draws := 2
  trace := []
  lastEnd := none

/-- The machine right after reset (R37, R250), with the installed configuration (log 1). -/
def State.reset : State := State.resetWith Config.installed

end Sys2Proof.Machine
end

