-- ==== Sys2Proof/Machine/Ops.lean ====
section
/-!
DEFINITION. The operations every meaning is built from: memory, Buffer primitives (20_memory.md R62 to R69), tables
(10_state.md R31, R32), events and the driver's answers (R146, R148, R234), the legality of a configuration (R9, R251),
reset as an action (R250), and how a chain of calls runs and ends (42_dispatch.md R156, 60_exceptions.md R210 to R220).
-/
namespace Sys2Proof.Machine

/-! ### Memory: cells with strictly rising addresses -/

/-- The canonical form: addresses strictly rising. An unlisted address holds no defined value, so no cell can equal
what an unlisted address reads as. -/
abbrev Memory.wf (m : Memory) : Prop := m.Pairwise fun c d => c.1 < d.1

/-- The defined byte at an address, if there is one. -/
def Memory.get : Memory → Nat → Option Byte
  | [], _ => none
  | (a, b) :: m, x => if x = a then some b else Memory.get m x

/-- Store one byte, keeping the canonical form. -/
def Memory.set : Memory → Nat → Byte → Memory
  | [], x, v => [(x, v)]
  | (a, b) :: m, x, v =>
    if x < a then (x, v) :: (a, b) :: m
    else if x = a then (x, v) :: m
    else (a, b) :: Memory.set m x v

/-- Store a byte string from address `x` on. -/
def Memory.setBytes : Memory → Nat → Bytes → Memory
  | m, _, [] => m
  | m, x, v :: vs => Memory.setBytes (Memory.set m x v) (x + 1) vs

/-- A memory that defines exactly the bytes of a string from address `x` on. -/
def Memory.ofBytes : Nat → Bytes → Memory
  | _, [] => []
  | x, v :: vs => (x, v) :: Memory.ofBytes (x + 1) vs

/-! ### Buffer primitives: `none` when the precondition fails (R61) -/

/-- The byte at backing index `a`: the defined one, or the free value of the Buffer's draw (R62, U12). -/
def Buffer.byteAt (b : Buffer) (a : Nat) : Byte := (b.data.get a).getD (Config.freeByte b.epoch a)

/-- The `n` bytes from backing index `a` on. -/
def Buffer.bytesFrom (b : Buffer) (a n : Nat) : Bytes := (List.range n).map fun i => b.byteAt (a + i)

/-- `window()` (R69). -/
def Buffer.window (b : Buffer) : Bytes := b.bytesFrom b.start b.len

/-- `buf_load(B)` (R62): the payload is placed after the headroom and every other byte becomes unspecified, drawn
afresh as draw `epoch`. -/
def Buffer.load (cap epoch : Nat) (bytes : Bytes) : Option Buffer :=
  if Config.bufHeadroom + bytes.length ≤ cap then
    some { data := Memory.ofBytes Config.bufHeadroom bytes, start := Config.bufHeadroom, len := bytes.length,
           epoch := epoch }
  else none

/-- `buf_remove_header(n)` (R63). -/
def Buffer.removeHeader (n : Nat) (b : Buffer) : Option Buffer :=
  if n ≤ b.len then some { b with start := b.start + n, len := b.len - n } else none

/-- `buf_add_header(n)` (R64): the bytes exposed are whatever the headroom held. -/
def Buffer.addHeader (n : Nat) (b : Buffer) : Option Buffer :=
  if n ≤ b.start then some { b with start := b.start - n, len := b.len + n } else none

/-- `buf_add_padding(n)` (R65). -/
def Buffer.addPadding (cap n : Nat) (b : Buffer) : Option Buffer :=
  if b.start + b.len + n ≤ cap then
    some { b with data := b.data.setBytes (b.start + b.len) (zeros n), len := b.len + n }
  else none

/-- `buf_remove_padding(n)` (R68). -/
def Buffer.removePadding (n : Nat) (b : Buffer) : Option Buffer :=
  if n ≤ b.len then some { b with len := b.len - n } else none

/-- `MemRead(off, n)` (R66): the big-endian number of `n` bytes at window offset `off`. -/
def Buffer.memRead (off n : Nat) (b : Buffer) : Option Nat :=
  if off + n ≤ b.len then some (beNat (b.bytesFrom (b.start + off) n)) else none

/-- `MemWrite(off, n, v)` (R67). -/
def Buffer.memWrite (off n v : Nat) (b : Buffer) : Option Buffer :=
  if off + n ≤ b.len then some { b with data := b.data.setBytes (b.start + off) (bytesOf n v) } else none

/-- A header as a list of fields (offset, width in bytes, value), each stored with `MemWrite` (R98). -/
def Buffer.memWrites : List (Nat × Nat × Nat) → Buffer → Option Buffer
  | [], b => some b
  | (off, n, v) :: fields, b => (b.memWrite off n v).bind (Buffer.memWrites fields)

/-! ### Tables: rising keys, so that equal maps are equal lists -/

/-- The canonical form of a table. -/
abbrev Table.wf (t : Table) : Prop := t.Pairwise fun e f => e.1.toNat < f.1.toNat

/-- The handler registered under a key. -/
def Table.lookup : Table → Half → Option Half
  | [], _ => none
  | (k, h) :: t, x => if x = k then some h else Table.lookup t x

/-- `TABLE[KEY] <- HND`: a present key's handler is replaced (R153, R201). -/
def Table.insert : Table → Half → Half → Table
  | [], x, v => [(x, v)]
  | (k, h) :: t, x, v =>
    if x.toNat < k.toNat then (x, v) :: (k, h) :: t
    else if x = k then (x, v) :: t
    else (k, h) :: Table.insert t x v

/-- `remove KEY from TABLE`; nothing happens if it is not there (R203). -/
def Table.erase (t : Table) (x : Half) : Table := t.filter fun e => e.1 != x

/-- A registration in a table of `cap` places: `none` when the key is new and the table is full (R152, R200). -/
def Table.register (cap : Nat) (t : Table) (key hnd : Half) : Option Table :=
  if t.lookup key = none ∧ t.length = cap then none else some (t.insert key hnd)

/-! ### Events and the driver's answers -/

/-- `emit EV(...)` (R13, R234). -/
def State.emit (e : Event) (s : State) : State := { s with trace := s.trace ++ [.event e] }

/-- The driver's answer to an `EV_DRV_TX`: the next one the environment holds, else a draw (R146, U9; log 6). -/
def State.linkAnswer (s : State) : Bool :=
  match s.txAnswers with
  | [] => Config.linkAnswer s.draws
  | ok :: _ => ok

/-- The state once an `EV_DRV_TX` is answered. -/
def State.linkAnswered (s : State) : State :=
  match s.txAnswers with
  | [] => { s with draws := s.draws + 1 }
  | _ :: rest => { s with txAnswers := rest }

/-- The driver's answer to an `EV_DRV_POLL`: the next one the environment holds, else "nothing available" (R148;
log 6). -/
def State.pollAnswer (s : State) : Option Bytes := s.pollAnswers.headD none

/-- The state once an `EV_DRV_POLL` is answered. -/
def State.pollAnswered (s : State) : State := { s with pollAnswers := s.pollAnswers.tail }

/-! ### How an operation and its chain of calls run (R156, R210 to R212) -/

/-- Where a chain of calls stands: over in a state, early or not; or the machine has stopped. -/
inductive Run where
  | ended (early : Option EarlyEnd) (s : State)
  | fault (f : Fault)
  | refused (r : Refusal)
  deriving DecidableEq, Repr

/-- Go on: an early end ends the whole chain (R156, R220). -/
def Run.andThen (r : Run) (k : State → Run) : Run :=
  match r with
  | .ended none s => k s
  | .ended (some e) s => .ended (some e) s
  | .fault f => .fault f
  | .refused x => .refused x

/-- The operation goes on in `s`. -/
def Run.done (s : State) : Run := .ended none s

/-- `raise Drop(reason)` (R210). -/
def Run.drop (r : DropReason) (s : State) : Run := .ended (some (.drop r)) s

/-- `raise Notify(code)` (R211). -/
def Run.notify (c : NotifyCode) (s : State) : Run := .ended (some (.notify c)) s

/-- `raise Fail(status)` (R212). -/
def Run.fail (f : Failure) (s : State) : Run := .ended (some (.fail f)) s

/-! ### Buffer primitives as parts of an operation: a failing precondition is `Fail(FAIL_BUF)` (R61) -/

/-- One of the two Buffers. -/
def State.buffer (w : BufId) (s : State) : Buffer :=
  match w with
  | .buf => s.buf
  | .fbuf => s.fbuf

/-- Replace one of the two Buffers. -/
def State.setBuffer (w : BufId) (b : Buffer) (s : State) : State :=
  match w with
  | .buf => { s with buf := b }
  | .fbuf => { s with fbuf := b }

/-- Run a primitive on a Buffer. -/
def State.onBuffer (w : BufId) (f : Buffer → Option Buffer) (s : State) : Run :=
  match f (s.buffer w) with
  | some b => .done (s.setBuffer w b)
  | none => .fail .buf s

/-- `v <- MemRead(off, n)` and go on with `v`. -/
def State.readBuffer (w : BufId) (off n : Nat) (s : State) (k : Nat → Run) : Run :=
  match (s.buffer w).memRead off n with
  | some v => k v
  | none => .fail .buf s

/-- `buf_load(bytes)`: its unspecified bytes are the next draw (R62). -/
def State.loadBuffer (w : BufId) (bytes : Bytes) (s : State) : Run :=
  match Buffer.load s.caps.buf s.draws bytes with
  | some b => .done { s.setBuffer w b with draws := s.draws + 1 }
  | none => .fail .buf s

/-! ### Configuration and reset -/

/-- The constraints of R9 on the parameters (R251, U8). -/
def State.configLegal (s : State) : Bool :=
  decide (28 ≤ s.mtu.toNat) && decide ((s.mtu.toNat - 20) % 8 = 0) && decide (2 ≤ s.caps.dispatch) &&
    decide (1 ≤ s.caps.ports) && decide (Config.bufHeadroom + 46 ≤ s.caps.buf)

/-- The reset input as an action of the environment, with the straps at `c`: every piece of the block's state goes to
its reset value, an operation in progress is abandoned, and events already emitted stay emitted (R250). What the
environment holds is not the block's and stays; the Buffers' unspecified bytes are two fresh draws. -/
def State.applyReset (c : Config) (s : State) : State :=
  { State.resetWith c with
    buf := { data := [], start := 0, len := 0, epoch := s.draws }
    fbuf := { data := [], start := 0, len := 0, epoch := s.draws + 1 }
    port := s.port
    txAnswers := s.txAnswers
    pollAnswers := s.pollAnswers
    draws := s.draws + 2
    trace := s.trace }

end Sys2Proof.Machine
end

