-- ==== Sys2Proof/Machine/Operands.lean ====
section
/-!
DEFINITION. The operand latches (10_state.md R21): loaded from the descriptor when a command is accepted (30_encoding.md
R105, R106), from the caller at an internal call (42_dispatch.md R156), and without a defined value between commands.
-/
namespace Sys2Proof.Machine

/-- The `SRC` latch of a source: six bytes, a 4-byte source in the high four (R21, R106). -/
def srcLatch : Source → BitVec 48
  | .mac a => a
  | .ip a => BitVec.ofNat 48 (a.toNat * 65536)

/-- The operand fields of a command's format; the latches of other formats are left (R21, R106). -/
def Latches.loadOperands (i : Instr) (l : Latches) : Latches :=
  match i with
  | .csum16 _ => l
  | .ethRx _ => l
  | .ethTx mac proto _ => { l with mac := mac, proto16 := proto }
  | .ethPoll => l
  | .netRegister key hnd => { l with key := key, hnd := hnd }
  | .netDispatch src proto _ => { l with src := srcLatch src, srcw := src.width, proto16 := proto }
  | .ipRx mac _ => { l with mac := mac }
  | .ipFragEmit ip proto ident off mf _ => { l with ip := ip, proto8 := proto, ident := ident, off := off, mf := mf }
  | .ipTx ip proto _ => { l with ip := ip, proto8 := proto }
  | .udpRx ip _ => { l with ip := ip }
  | .udpTx ip sport dport _ => { l with ip := ip, sport := sport, dport := dport }
  | .udpOpen key hnd => { l with key := key, hnd := hnd }
  | .udpClose key => { l with key := key }

/-- The latches once a command is accepted: `OPC`, `MF` and `LEN` of every descriptor, and its format's fields (R105). -/
def Latches.ofCommand (i : Instr) (l : Latches) : Latches :=
  Latches.loadOperands i { l with opc := i.opcode.code, mf := false, len := BitVec.ofNat 16 i.payload.length }

/-- Accept a command: the engine is BUSY and the operands are in the latches (R22, R105). -/
def State.accept (i : Instr) (s : State) : State :=
  { s with engine := .busy, latches := s.latches.ofCommand i }

/-- Start an operation by an internal call: its operation code and the operands the caller names go to the latches
(R21, R156). -/
def State.callWith (op : Opcode) (f : Latches → Latches) (s : State) : State :=
  { s with latches := { f s.latches with opc := op.code } }

/-- The `SRC` operand as the `SRCW` bytes it has (R154, R234). -/
def Latches.srcBytes (l : Latches) : Bytes := (bytesOf 6 l.src.toNat).take l.srcw.toNat

/-- The `SRC` operand as a 4-byte IPv4 address (R154). -/
def Latches.srcIp (l : Latches) : IpAddr := BitVec.ofNat 32 (l.src.toNat / 65536)

/-- The latches between commands: any value (R21, U22; log 3). -/
def Latches.free (n : Nat) : Latches where
  opc := BitVec.ofNat 8 (Config.freeLatch n 0)
  mf := Config.freeLatch n 1 == 1
  len := BitVec.ofNat 16 (Config.freeLatch n 2)
  mac := BitVec.ofNat 48 (Config.freeLatch n 3)
  proto16 := BitVec.ofNat 16 (Config.freeLatch n 4)
  src := BitVec.ofNat 48 (Config.freeLatch n 5)
  srcw := BitVec.ofNat 8 (Config.freeLatch n 6)
  ip := BitVec.ofNat 32 (Config.freeLatch n 7)
  proto8 := BitVec.ofNat 8 (Config.freeLatch n 8)
  ident := BitVec.ofNat 16 (Config.freeLatch n 9)
  off := BitVec.ofNat 16 (Config.freeLatch n 10)
  sport := BitVec.ofNat 16 (Config.freeLatch n 11)
  dport := BitVec.ofNat 16 (Config.freeLatch n 12)
  key := BitVec.ofNat 16 (Config.freeLatch n 13)
  hnd := BitVec.ofNat 16 (Config.freeLatch n 14)

end Sys2Proof.Machine
end

