-- ==== Sys2Proof/Machine/Flags.lean ====
section
/-!
DEFINITION. STATUS and RESULT, the response of a command, and the ONE shared way a command ends: with its chain of calls
finished, dropped, notified or failed (10_state.md R24, 30_encoding.md R108, R109, 60_exceptions.md R210 to R220). It is the
block's return as well: the engine is IDLE afterwards (R218).
-/
namespace Sys2Proof.Machine

/-- The STATUS code of a failure (R212). -/
def Failure.code : Failure → Byte
  | tableFull => 0x01#8
  | tooLong => 0x02#8
  | badOperand => 0x03#8
  | link => 0x04#8
  | badCmd => 0x05#8
  | buf => 0x06#8

/-- STATUS: `OK` unless the operation ended with `raise Fail(status)`; a drop and a notification return `OK` (R24). -/
def statusOf : Option EarlyEnd → Byte
  | none => 0x00#8
  | some (.drop _) => 0x00#8
  | some (.notify _) => 0x00#8
  | some (.fail f) => f.code

/-- RESULT: the operation's value if it ended `OK` without an early end, 0 in every other response (R24, C11). -/
def resultOf (early : Option EarlyEnd) (value : Half) : Half :=
  match early with
  | none => value
  | some _ => 0#16

/-- Send the response and go IDLE (R22, R24, R78, R109). -/
def State.respond (early : Option EarlyEnd) (value : Half) (s : State) : State :=
  { s with
    engine := .idle
    status := statusOf early
    result := resultOf early value
    trace := s.trace ++ [.response (statusOf early) (resultOf early value)]
    lastEnd := early }

/-- The operand latches hold no defined value once the operation is over (R21, U22; log 3). -/
def State.release (s : State) : State :=
  { s with latches := Latches.free s.draws, draws := s.draws + 1 }

/-- End a command whose chain of calls has run: answer it and return to IDLE (R218). `value` is RESULT if it ends
`OK`. -/
def finishWith (value : State → Half) (r : Run) : Host.Outcome State Fault Refusal :=
  match r with
  | .ended early s => .next (s.respond early (value s)).release
  | .fault f => .fault f
  | .refused x => .refused x

/-- End a command that computes no RESULT (R24). -/
def finish (r : Run) : Host.Outcome State Fault Refusal := finishWith (fun _ => 0#16) r

/-- Answer an illegal command: no state changes and no event is emitted (R108). -/
def State.rejectCommand (s : State) : State := s.respond (some (.fail .badCmd)) 0#16

/-- The 4 bytes of a response (R109). -/
def responseBytes (status : Byte) (result : Half) : Bytes := [status, 0#8] ++ bytesOf 2 result.toNat

/-- The response the block gave last (R109). -/
def State.response (s : State) : Bytes := responseBytes s.status s.result

/-- Who receives an event (R234). -/
inductive Agent where
  | linkDriver | addressResolution | icmpAgent | host
  /-- The consumer a handler identifier names (R158). -/
  | consumer (hnd : Half)
  deriving DecidableEq, Repr

/-- The receiver column of R234. -/
def Event.receiver : Event → Agent
  | drvTx _ => .linkDriver
  | drvPoll => .linkDriver
  | arp _ _ => .addressResolution
  | icmpUnreach _ _ _ => .icmpAgent
  | handler _ _ _ _ _ => .host
  | upward hnd _ _ _ => .consumer hnd

/-- The ICMP codes the ICMP agent gives the two reasons (R9, R215; the spec's general knowledge G6). The block itself uses
the symbolic values. -/
def Unreachable.icmpCode : Unreachable → Nat
  | protocolUnreachable => 2
  | portUnreachable => 3

end Sys2Proof.Machine
end

