-- ==== Sys2Proof/Machine/Checksum.lean ====
section
/-!
DEFINITION. The internet checksum unit (40_checksum.md): `CSUM16`.
-/
namespace Sys2Proof.Machine

/-- The sum of the big-endian 16-bit words of a range; an odd last byte is the high byte of a word whose low byte is 0
(R130, R131, R132, conflict C4). -/
def wordSum : Bytes → Nat
  | [] => 0
  | [b] => b.toNat * 256
  | a :: b :: rest => a.toNat * 256 + b.toNat + wordSum rest

/-- Fold the carries until the sum is below 65536 (R130, R133). Each fold lowers the sum, so `sum` rounds suffice. -/
def foldRounds : Nat → Nat → Nat
  | 0, sum => sum
  | k + 1, sum => if 65536 ≤ sum then foldRounds k (sum % 65536 + sum / 65536) else sum

/-- The folded sum (R133). -/
def foldCarries (sum : Nat) : Nat := foldRounds sum sum

/-- `CSUM16` of a byte string: the one's complement of the folded sum (R130, R134). -/
def csum16 (bytes : Bytes) : Nat := 65535 - foldCarries (wordSum bytes)

/-- The 12-byte UDP pseudo-header (R97). -/
def pseudoHeader (src dst : IpAddr) (len : Nat) : Bytes :=
  bytesOf 4 src.toNat ++ bytesOf 4 dst.toNat ++ [0x00#8, 0x11#8] ++ bytesOf 2 len

/-- CSUM16 (R130): RESULT is the checksum of the payload. -/
def execCsum16 (payload : Bytes) (s : State) : Host.Outcome State Fault Refusal :=
  finishWith (fun t => BitVec.ofNat 16 (csum16 t.buf.window))
    ((s.accept (.csum16 payload)).loadBuffer .buf payload)

end Sys2Proof.Machine
end

