-- ==== Sys2Proof/Machine/Ipv4Tx.lean ====
section
/-!
DEFINITION. The IPv4 fragmenter (44_ipv4_tx.md): `IP_FRAG_EMIT` and `IP_TX`.
-/
namespace Sys2Proof.Machine

/-- The operand limits of `IP_FRAG_EMIT`: the offset before the length (R171, R217). -/
def fragOperandError (off : Half) (len : Nat) : Option Failure :=
  if off.toNat % 8 ≠ 0 then some .badOperand
  else if 65535 < 20 + len then some .tooLong
  else none

/-- The header fields `IP_FRAG_EMIT` writes, the checksum field zero: offset, width, value (R92, R98, R170, R172). -/
def ipv4Fields (n : Nat) (ident : Half) (mf : Bool) (off : Half) (ttl proto : Byte) (src dst : IpAddr) :
    List (Nat × Nat × Nat) :=
  [(0, 1, 0x45), (1, 1, 0), (2, 2, 20 + n), (4, 2, ident.toNat), (6, 2, mf.toNat * 0x2000 + off.toNat / 8),
   (8, 1, ttl.toNat), (9, 1, proto.toNat), (10, 2, 0), (12, 4, src.toNat), (16, 4, dst.toNat)]

/-- `IP_FRAG_EMIT` on the Buffer it is called on (R170), its operands in the latches. -/
def ipFragEmit (w : BufId) (s : State) : Run :=
  match fragOperandError s.latches.off (s.buffer w).len with
  | some f => .fail f s
  | none =>
    ((s.onBuffer w (Buffer.addHeader 20)).andThen fun s1 =>
      s1.onBuffer w (Buffer.memWrites (ipv4Fields (s.buffer w).len s.latches.ident s.latches.mf s.latches.off
        s.ipTtlDefault s.latches.proto8 s.ifIp s.latches.ip))).andThen fun s2 =>
    (s2.onBuffer w (Buffer.memWrite 10 2 (csum16 ((s2.buffer w).window.take 20)))).andThen fun s3 =>
    .done (s3.emit (.arp (s3.buffer w).window s3.latches.ip))

/-- One turn of the loop of `IP_TX`: a chunk into FBUF and `IP_FRAG_EMIT` on it (R175, R182). -/
def emitFragment (ip : IpAddr) (proto : Byte) (ident : Half) (off : Nat) (mf : Bool) (chunk : Bytes) (s : State) : Run :=
  (s.loadBuffer .fbuf chunk).andThen fun s1 =>
  ipFragEmit .fbuf (s1.callWith .ipFragEmit fun l =>
    { l with ip := ip, proto8 := proto, ident := ident, off := BitVec.ofNat 16 off, mf := mf })

/-- The loop of `IP_TX` on what is left of the payload, which begins at byte offset `off` (R175, R176). At most
`rounds` turns; a fragmenter that needs more does not advance. -/
def fragmentLoop (maxp : Nat) (ip : IpAddr) (proto : Byte) (ident : Half) : Nat → Nat → Bytes → State → Run
  | 0, _, _, _ => .fault .fragmenterStuck
  | rounds + 1, off, rest, s =>
    if maxp < rest.length then
      (emitFragment ip proto ident off true (rest.take maxp) s).andThen
        (fragmentLoop maxp ip proto ident rounds (off + maxp) (rest.drop maxp))
    else emitFragment ip proto ident off false rest s

/-- The operand limit of `IP_TX` (R177). -/
def ipTxOperandError (len : Nat) : Option Failure := if 65515 < len then some .tooLong else none

/-- `IP_TX` (R175), its payload in BUF and its operands in the latches. -/
def ipTx (s : State) : Run :=
  match ipTxOperandError s.buf.len with
  | some f => .fail f s
  | none =>
    (fragmentLoop (s.mtu.toNat - 20) s.latches.ip s.latches.proto8 s.ipId (s.buf.len + 1) 0 s.buf.window s).andThen
      fun t => .done { t with ipId := s.ipId + 1#16 }

/-- IP_FRAG_EMIT (R170). Its operand limits come before the Buffer's preconditions (R217; log 9). -/
def execIpFragEmit (ip : IpAddr) (proto : Byte) (ident : Half) (off : Half) (mf : Bool) (payload : Bytes) (s : State) :
    Host.Outcome State Fault Refusal :=
  let s0 := s.accept (.ipFragEmit ip proto ident off mf payload)
  match fragOperandError off payload.length with
  | some f => finish (.fail f s0)
  | none => finish ((s0.loadBuffer .buf payload).andThen (ipFragEmit .buf))

/-- IP_TX (R175). Its operand limit comes before the Buffer's preconditions (R217; log 9). -/
def execIpTx (ip : IpAddr) (proto : Byte) (payload : Bytes) (s : State) : Host.Outcome State Fault Refusal :=
  let s0 := s.accept (.ipTx ip proto payload)
  match ipTxOperandError payload.length with
  | some f => finish (.fail f s0)
  | none => finish ((s0.loadBuffer .buf payload).andThen ipTx)

end Sys2Proof.Machine
end

