-- ==== Sys2Proof/Machine/Udp.lean ====
section
/-!
DEFINITION. The UDP unit (45_udp.md): `UDP_RX`, `UDP_TX`, `UDP_OPEN`, `UDP_CLOSE`.
-/
namespace Sys2Proof.Machine

/-- `UDP_RX` (R185), the datagram in BUF and the source address in the latches. The checksum field is zeroed, the sum
taken over the pseudo-header and the first `L` bytes, and the field restored (R187, R188, R262). -/
def udpRx (s : State) : Run :=
  if s.buf.len < 8 then .drop .udpShort s
  else s.readBuffer .buf 4 2 fun len =>
    if s.buf.len < len ∨ len < 8 then .drop .udpLen s
    else s.readBuffer .buf 6 2 fun stored =>
      (s.onBuffer .buf (Buffer.memWrite 6 2 0)).andThen fun s1 =>
      (s1.onBuffer .buf (Buffer.memWrite 6 2 stored)).andThen fun s2 =>
      if csum16 (pseudoHeader s.latches.ip s.ifIp len ++ s1.buf.window.take len) ≠ stored then .drop .udpCsum s2
      else s2.readBuffer .buf 0 2 fun sport =>
        s2.readBuffer .buf 2 2 fun dport =>
        match s2.ports.lookup (BitVec.ofNat 16 dport) with
        | none =>
          (s2.onBuffer .buf (Buffer.addHeader 20)).andThen fun s3 =>
          .notify .portUnreach (s3.emit (.icmpUnreach s3.buf.window s3.latches.ip .portUnreachable))
        | some hnd =>
          (s2.onBuffer .buf (Buffer.removeHeader 8)).andThen fun s3 =>
          .done (s3.emit (.handler hnd (s3.buf.window.take (len - 8)) (BitVec.ofNat 16 (len - 8)) s3.latches.ip
            (BitVec.ofNat 16 sport)))

/-- The operand limit of `UDP_TX` (R194). -/
def udpTxOperandError (len : Nat) : Option Failure := if 65535 < 8 + len then some .tooLong else none

/-- The UDP header fields, the checksum zero: offset, width, value (R95, R98, R193). -/
def udpFields (n : Nat) (sport dport : Half) : List (Nat × Nat × Nat) :=
  [(0, 2, sport.toNat), (2, 2, dport.toNat), (4, 2, 8 + n), (6, 2, 0)]

/-- `UDP_TX` (R193), its payload in BUF and its operands in the latches. -/
def udpTx (s : State) : Run :=
  match udpTxOperandError s.buf.len with
  | some f => .fail f s
  | none =>
    ((s.onBuffer .buf (Buffer.addHeader 8)).andThen fun s1 =>
      s1.onBuffer .buf (Buffer.memWrites (udpFields s.buf.len s.latches.sport s.latches.dport))).andThen fun s2 =>
    (s2.onBuffer .buf (Buffer.memWrite 6 2
      (csum16 (pseudoHeader s.ifIp s.latches.ip (8 + s.buf.len) ++ s2.buf.window)))).andThen fun s3 =>
    ipTx (s3.callWith .ipTx fun l => { l with ip := s.latches.ip, proto8 := 17#8 })

/-- UDP_RX (R185). -/
def execUdpRx (ip : IpAddr) (payload : Bytes) (s : State) : Host.Outcome State Fault Refusal :=
  finish (((s.accept (.udpRx ip payload)).loadBuffer .buf payload).andThen udpRx)

/-- UDP_TX (R193). Its operand limit comes before the Buffer's preconditions (R217; log 9). The limit of the IP_TX it calls
is met where R193 calls it, after the payload was placed in BUF: a payload of 65508 to 65527 bytes that BUF_CAP cannot hold
answers FAIL_BUF (DESIGN CHOICE, log 18). -/
def execUdpTx (ip : IpAddr) (sport dport : Half) (payload : Bytes) (s : State) : Host.Outcome State Fault Refusal :=
  let s0 := s.accept (.udpTx ip sport dport payload)
  match udpTxOperandError payload.length with
  | some f => finish (.fail f s0)
  | none => finish ((s0.loadBuffer .buf payload).andThen udpTx)

/-- UDP_OPEN (R200 to R202). -/
def execUdpOpen (key hnd : Half) (s : State) : Host.Outcome State Fault Refusal :=
  let s0 := s.accept (.udpOpen key hnd)
  match s0.ports.register s0.caps.ports s0.latches.key s0.latches.hnd with
  | none => finish (.fail .tableFull s0)
  | some t => finish (.done { s0 with ports := t })

/-- UDP_CLOSE (R203, R204). -/
def execUdpClose (key : Half) (s : State) : Host.Outcome State Fault Refusal :=
  let s0 := s.accept (.udpClose key)
  finish (.done { s0 with ports := s0.ports.erase s0.latches.key })

end Sys2Proof.Machine
end

