-- ==== Sys2Proof/Machine/Net.lean ====
section
/-!
DEFINITION. The protocol dispatch table and the IPv4 validator (42_dispatch.md, 43_ipv4_rx.md): `NET_REGISTER`,
`NET_DISPATCH`, `IP_RX`. The two operations call each other; the call graph of R156 has no cycle because `IP_RX`
dispatches with a 4-byte source, with which `NET_DISPATCH` never reaches `IP_RX` again (R157).
-/
namespace Sys2Proof.Machine

/-- `NET_DISPATCH` (R154) with `callIpRx` standing for the IPv4 validator it may call; the payload in BUF, the key and
the source in the latches. -/
def dispatchTo (callIpRx : State → Run) (s : State) : Run :=
  match s.dispatch.lookup s.latches.proto16 with
  | none => .drop .noHandler s
  | some h =>
    if h = Config.hIpRx then
      if s.latches.srcw = 6#8 then callIpRx (s.callWith .ipRx fun l => { l with mac := l.src })
      else .refused .wrongSource
    else if h = Config.hUdpRx then
      if s.latches.srcw = 4#8 then udpRx (s.callWith .udpRx fun l => { l with ip := l.srcIp })
      else .refused .wrongSource
    else .done (s.emit (.upward h s.buf.window s.latches.proto16 s.latches.srcBytes))

/-- `NET_DISPATCH` as `IP_RX` calls it, with a 4-byte source: the validator cannot be reached again (R156, R157). -/
def transportDispatch (s : State) : Run := dispatchTo (fun _ => .refused .wrongSource) s

/-- `IP_RX` (R160), the datagram in BUF: five checks in order, the trim, the header's removal, the protocol test and
the hand-over. The checksum field is zeroed for the sum and restored whatever the outcome (R163, R262). -/
def ipRx (s : State) : Run :=
  if s.buf.len < 20 then .drop .ipShort s
  else s.readBuffer .buf 0 1 fun verIhl =>
    if verIhl / 16 ≠ 4 then .drop .ipVersion s
    else s.readBuffer .buf 2 2 fun tl =>
      if s.buf.len < tl ∨ tl < 20 then .drop .ipTotlen s
      else s.readBuffer .buf 10 2 fun stored =>
        (s.onBuffer .buf (Buffer.memWrite 10 2 0)).andThen fun s1 =>
        (s1.onBuffer .buf (Buffer.memWrite 10 2 stored)).andThen fun s2 =>
        if csum16 (s1.buf.window.take 20) ≠ stored then .drop .ipCsum s2
        else s2.readBuffer .buf 16 4 fun dst =>
          if BitVec.ofNat 32 dst ≠ s2.ifIp then .drop .ipDst s2
          else (s2.onBuffer .buf (Buffer.removePadding (s2.buf.len - tl))).andThen fun s3 =>
            s3.readBuffer .buf 9 1 fun proto =>
            s3.readBuffer .buf 12 4 fun src =>
            (s3.onBuffer .buf (Buffer.removeHeader 20)).andThen fun s4 =>
            if proto ≠ 17 then
              (s4.onBuffer .buf (Buffer.addHeader 20)).andThen fun s5 =>
              .notify .protoUnreach (s5.emit (.icmpUnreach s5.buf.window (BitVec.ofNat 32 src) .protocolUnreachable))
            else
              transportDispatch (s4.callWith .netDispatch fun l =>
                { l with src := srcLatch (.ip (BitVec.ofNat 32 src)), srcw := 4#8, proto16 := 17#16 })

/-- `NET_DISPATCH` (R154), the payload in BUF, the key and the source in the latches. -/
def netDispatch (s : State) : Run := dispatchTo ipRx s

/-- NET_REGISTER (R152, R153). -/
def execNetRegister (key hnd : Half) (s : State) : Host.Outcome State Fault Refusal :=
  let s0 := s.accept (.netRegister key hnd)
  match s0.dispatch.register s0.caps.dispatch s0.latches.key s0.latches.hnd with
  | none => finish (.fail .tableFull s0)
  | some t => finish (.done { s0 with dispatch := t })

/-- NET_DISPATCH (R154 to R158). -/
def execNetDispatch (src : Source) (proto : Half) (payload : Bytes) (s : State) : Host.Outcome State Fault Refusal :=
  finish (((s.accept (.netDispatch src proto payload)).loadBuffer .buf payload).andThen netDispatch)

/-- IP_RX (R160). -/
def execIpRx (mac : MacAddr) (payload : Bytes) (s : State) : Host.Outcome State Fault Refusal :=
  finish (((s.accept (.ipRx mac payload)).loadBuffer .buf payload).andThen ipRx)

end Sys2Proof.Machine
end

