-- ==== Sys2Proof/Machine/Ethernet.lean ====
section
/-!
DEFINITION. The Ethernet frame dispatcher (41_ethernet.md): `ETH_RX`, `ETH_TX`, `ETH_POLL`.
-/
namespace Sys2Proof.Machine

/-- `ETH_RX` (R141), the frame in BUF. -/
def ethRx (s : State) : Run :=
  if s.buf.len < 14 then .drop .ethShort s
  else s.readBuffer .buf 6 6 fun src =>
    s.readBuffer .buf 12 2 fun etype =>
    (s.onBuffer .buf (Buffer.removeHeader 14)).andThen fun s1 =>
    netDispatch (s1.callWith .netDispatch fun l =>
      { l with src := BitVec.ofNat 48 src, srcw := 6#8, proto16 := BitVec.ofNat 16 etype })

/-- The Ethernet header fields: offset, width, value (R91, R98). -/
def ethFields (dst src : MacAddr) (proto : Half) : List (Nat × Nat × Nat) :=
  [(0, 6, dst.toNat), (6, 6, src.toNat), (12, 2, proto.toNat)]

/-- `if BUF.len < 46: buf_add_padding(46 - BUF.len)` (R145, R147). -/
def padFrame (s : State) : Run :=
  if s.buf.len < 46 then s.onBuffer .buf (Buffer.addPadding s.caps.buf (46 - s.buf.len)) else .done s

/-- `ETH_TX` (R145), its payload in BUF and its operands in the latches. The event has been emitted when the driver's
failure is reported, and there is no retry (R146). -/
def ethTx (s : State) : Run :=
  (padFrame s).andThen fun s1 =>
  (s1.onBuffer .buf (Buffer.addHeader 14)).andThen fun s2 =>
  (s2.onBuffer .buf (Buffer.memWrites (ethFields s2.latches.mac s2.ifMac s2.latches.proto16))).andThen fun s3 =>
  .ended (if s3.linkAnswer then none else some (.fail .link)) (s3.emit (.drvTx s3.buf.window)).linkAnswered

/-- `ETH_POLL` (R148): at most one frame is taken. -/
def ethPoll (s : State) : Run :=
  let s1 := (s.emit .drvPoll).pollAnswered
  match s.pollAnswer with
  | none => .done s1
  | some frame => (s1.loadBuffer .buf frame).andThen fun s2 => ethRx (s2.callWith .ethRx id)

/-- ETH_RX (R141). -/
def execEthRx (payload : Bytes) (s : State) : Host.Outcome State Fault Refusal :=
  finish (((s.accept (.ethRx payload)).loadBuffer .buf payload).andThen ethRx)

/-- ETH_TX (R145). -/
def execEthTx (mac : MacAddr) (proto : Half) (payload : Bytes) (s : State) : Host.Outcome State Fault Refusal :=
  finish (((s.accept (.ethTx mac proto payload)).loadBuffer .buf payload).andThen ethTx)

/-- ETH_POLL (R148). -/
def execEthPoll (s : State) : Host.Outcome State Fault Refusal := finish (ethPoll (s.accept .ethPoll))

end Sys2Proof.Machine
end

