-- ==== Sys2Proof/Machine/Dispatch.lean ====
section
/-!
DEFINITION. Which meaning each command has: one arm for each constructor of `Instr`.
-/
namespace Sys2Proof.Machine

def exec (i : Instr) (s : State) : Host.Outcome State Fault Refusal :=
  match i with
  | .csum16 payload => Sys2Proof.Machine.execCsum16 payload s
  | .ethRx payload => Sys2Proof.Machine.execEthRx payload s
  | .ethTx mac proto payload => Sys2Proof.Machine.execEthTx mac proto payload s
  | .ethPoll => Sys2Proof.Machine.execEthPoll s
  | .netRegister key hnd => Sys2Proof.Machine.execNetRegister key hnd s
  | .netDispatch src proto payload => Sys2Proof.Machine.execNetDispatch src proto payload s
  | .ipRx mac payload => Sys2Proof.Machine.execIpRx mac payload s
  | .ipFragEmit ip proto ident off mf payload => Sys2Proof.Machine.execIpFragEmit ip proto ident off mf payload s
  | .ipTx ip proto payload => Sys2Proof.Machine.execIpTx ip proto payload s
  | .udpRx ip payload => Sys2Proof.Machine.execUdpRx ip payload s
  | .udpTx ip sport dport payload => Sys2Proof.Machine.execUdpTx ip sport dport payload s
  | .udpOpen key hnd => Sys2Proof.Machine.execUdpOpen key hnd s
  | .udpClose key => Sys2Proof.Machine.execUdpClose key s

end Sys2Proof.Machine
end

