-- ==== Sys2Proof/Machine/Step.lean ====
section
/-!
DEFINITION. One step of the machine: it takes the next command from the command port and runs it to completion
(10_state.md R22, 30_encoding.md R105, R108, 70_reset_and_hazards.md R250, R251).
-/
namespace Sys2Proof.Machine

/-- One step. An illegal configuration is refused (R251, U8); a BUSY engine accepts nothing (R22, U15); without a whole
command at the port nothing happens (R221, R250; log 5); an illegal command is answered and its payload discarded
(R108); a command runs as one atomic step (R22). -/
def step (s : State) : Host.Outcome State Fault Refusal :=
  if s.configLegal = false then .refused .illegalConfiguration
  else
    match s.engine with
    | .busy => .refused .engineBusy
    | .idle =>
      match decode s.port with
      | .incomplete => .next s
      | .illegal _ rest => .next ({ s with port := rest } : State).rejectCommand
      | .command i rest => exec i { s with port := rest }

/-- `s` with the command of the table word `w`, its payload bytes zero, at the command port, ahead of what is there, and
the engine ready to accept it (log 5). -/
def State.withFetchWord (s : State) (_nbits w : Nat) : State :=
  { s with engine := .idle, port := tableBytes w ++ s.port }

end Sys2Proof.Machine
end

