-- ==== Sys2Proof/Safety.lean ====
section
/-!
DEFINITION. What holds between commands, and which tables and commands keep clear of the one case the spec gives no
meaning (20_memory.md R61, 42_dispatch.md R157, 70_reset_and_hazards.md R251, R270).
-/
namespace Sys2Proof.Machine

/-- A Buffer of `cap` bytes between primitives (R61): its memory is canonical and inside the backing store, and its
window is. -/
structure Buffer.Ok (cap : Nat) (b : Buffer) : Prop where
  canonical : b.data.wf
  inside : ∀ c ∈ b.data, c.1 < cap
  window : b.start + b.len ≤ cap

/-- A table of `cap` places (R31, R32): one handler for a key, in canonical form, and not more entries than places. -/
structure Table.Ok (cap : Nat) (t : Table) : Prop where
  canonical : t.wf
  room : t.length ≤ cap

/-- The state between commands: a legal configuration (R251), the engine IDLE (R22), both Buffers and both tables in
bounds. -/
structure State.Inv (s : State) : Prop where
  legal : s.configLegal = true
  idle : s.engine = .idle
  buf : s.buf.Ok s.caps.buf
  fbuf : s.fbuf.Ok s.caps.buf
  dispatch : s.dispatch.Ok s.caps.dispatch
  ports : s.ports.Ok s.caps.ports

/-- `s` once a command has ended: its events and then its response have left, the engine is IDLE, BUF holds `b`, and the
operand latches hold no defined value (draw `n`). Everything else is as in `s` (R22, R24, R78, R218). -/
def State.after (s : State) (early : Option EarlyEnd) (value : Half) (es : List Event) (b : Buffer) (n : Nat) : State :=
  { s with
    engine := .idle
    latches := Latches.free n
    status := statusOf early
    result := resultOf early value
    buf := b
    draws := n + 1
    trace := s.trace ++ es.map .event ++ [.response (statusOf early) (resultOf early value)]
    lastEnd := early }

/-- Two states that differ in nothing but scratch: the Buffers and the latches (R21, R34). As many free values were drawn
in both, so that the next command draws the same. -/
def State.Alike (s t : State) : Prop := s = { t with buf := s.buf, fbuf := s.fbuf, latches := s.latches }

/-- Two commands that do the same outside scratch. -/
def Alike : Host.Outcome State Fault Refusal → Host.Outcome State Fault Refusal → Prop
  | .next s, .next t => s.Alike t
  | .fault f, .fault g => f = g
  | .refused x, .refused y => x = y
  | .next _, .fault _ => False
  | .next _, .refused _ => False
  | .fault _, .next _ => False
  | .fault _, .refused _ => False
  | .refused _, .next _ => False
  | .refused _, .fault _ => False

/-- A dispatch table as a boot that follows R252 and R270 leaves it: `H_UDP_RX` only under key 17, and `H_IP_RX` not
under it. -/
def State.BootSafe (s : State) : Prop :=
  s.dispatch.lookup 17#16 ≠ some Config.hIpRx ∧
    ∀ k, s.dispatch.lookup k = some Config.hUdpRx → k = 17#16

/-- A frame whose EtherType is not 17 (R157, R270). -/
def frameSafe (frame : Bytes) : Prop := beAt frame 12 2 ≠ 17

/-- A command that does not itself name an in-block handler's key with the wrong kind of source (R157). -/
def State.CommandSafe (s : State) : Instr → Prop
  | .ethRx frame => frameSafe frame
  | .ethPoll => ∀ frame, s.pollAnswer = some frame → frameSafe frame
  | .netDispatch (.mac _) proto _ => s.dispatch.lookup proto ≠ some Config.hUdpRx
  | .netDispatch (.ip _) proto _ => s.dispatch.lookup proto ≠ some Config.hIpRx
  | .csum16 _ => True
  | .ethTx _ _ _ => True
  | .netRegister _ _ => True
  | .ipRx _ _ => True
  | .ipFragEmit _ _ _ _ _ _ => True
  | .ipTx _ _ _ => True
  | .udpRx _ _ => True
  | .udpTx _ _ _ _ => True
  | .udpOpen _ _ => True
  | .udpClose _ => True

end Sys2Proof.Machine
end

