-- ==== Sys2Proof/Wire.lean ====
section
/-!
DEFINITION. The wire formats as byte strings, and the validators' checks as functions of the bytes (30_encoding.md R91 to R98,
43_ipv4_rx.md R160 to R164, 45_udp.md R185 to R188). The machine does not use them: claims are stated in their terms,
so that a claim about what leaves the block or what it accepts can be held beside the header tables of the spec.
-/
namespace Sys2Proof.Wire

open Sys2Proof.Machine

/-! ### Frames and datagrams -/

/-- An Ethernet header (R91). -/
def ethHeader (dst src : MacAddr) (proto : Half) : Bytes :=
  bytesOf 6 dst.toNat ++ bytesOf 6 src.toNat ++ bytesOf 2 proto.toNat

/-- A transmitted frame: the header, the payload, and zeros up to 46 payload bytes (R145, R147). -/
def ethFrame (dst src : MacAddr) (proto : Half) (payload : Bytes) : Bytes :=
  ethHeader dst src proto ++ payload ++ zeros (46 - payload.length)

/-- What an IPv4 header the block builds says (R98, R172), with its payload length. -/
structure Ipv4 where
  ttl   : Byte
  src   : IpAddr
  dst   : IpAddr
  proto : Byte
  ident : Half
  off   : Half
  mf    : Bool
  len   : Nat
  deriving DecidableEq, Repr

/-- The 20 bytes of an IPv4 header with a given checksum field (R92, R98, R172). -/
def Ipv4.headerWith (h : Ipv4) (checksum : Nat) : Bytes :=
  [0x45#8, 0x00#8] ++ bytesOf 2 (20 + h.len) ++ bytesOf 2 h.ident.toNat ++
    bytesOf 2 (h.mf.toNat * 0x2000 + h.off.toNat / 8) ++ [h.ttl, h.proto] ++ bytesOf 2 checksum ++
    bytesOf 4 h.src.toNat ++ bytesOf 4 h.dst.toNat

/-- The header with its checksum: taken over the 20 bytes while the field is zero (R173). -/
def Ipv4.header (h : Ipv4) : Bytes := h.headerWith (csum16 (h.headerWith 0))

/-- The datagram `IP_FRAG_EMIT` hands on: a header and the payload (R170, R172, R174). -/
def datagram (ttl : Byte) (src dst : IpAddr) (proto : Byte) (ident off : Half) (mf : Bool) (p : Bytes) : Bytes :=
  Ipv4.header
      { ttl := ttl, src := src, dst := dst, proto := proto, ident := ident, off := off, mf := mf, len := p.length } ++ p

/-- The 8 bytes of a UDP header with a given checksum field (R95, R98). -/
def udpHeaderWith (sport dport : Half) (len checksum : Nat) : Bytes :=
  bytesOf 2 sport.toNat ++ bytesOf 2 dport.toNat ++ bytesOf 2 len ++ bytesOf 2 checksum

/-- A UDP datagram from `src` to `dst`: the checksum is taken over the pseudo-header and the datagram with the field
zero (R195). -/
def udpDatagram (src dst : IpAddr) (sport dport : Half) (payload : Bytes) : Bytes :=
  udpHeaderWith sport dport (8 + payload.length)
    (csum16 (pseudoHeader src dst (8 + payload.length) ++ (udpHeaderWith sport dport (8 + payload.length) 0 ++ payload)))
    ++ payload

/-! ### Fragments (R176) -/

/-- How many datagrams an `IP_TX` of `n` bytes emits with `maxp` payload bytes each: `ceil(n / maxp)`, and 1 for
`n = 0`. -/
def fragmentCount (maxp n : Nat) : Nat := if n = 0 then 1 else (n + maxp - 1) / maxp

/-- The payload of fragment `j`: `P[j*maxp .. min((j+1)*maxp, n))`. -/
def fragmentPayload (maxp : Nat) (p : Bytes) (j : Nat) : Bytes := (p.drop (j * maxp)).take maxp

/-- Fragment `j` of a payload: byte offset `j*maxp`, and more-fragments unless it is the last. -/
def fragment (maxp : Nat) (ttl : Byte) (src dst : IpAddr) (proto : Byte) (ident : Half) (p : Bytes) (j : Nat) : Bytes :=
  datagram ttl src dst proto ident (BitVec.ofNat 16 (j * maxp)) (decide (j + 1 < fragmentCount maxp p.length))
    (fragmentPayload maxp p j)

/-- The datagrams of one `IP_TX`, in the order they are emitted. -/
def fragments (maxp : Nat) (ttl : Byte) (src dst : IpAddr) (proto : Byte) (ident : Half) (p : Bytes) : List Bytes :=
  (List.range (fragmentCount maxp p.length)).map (fragment maxp ttl src dst proto ident p)

/-! ### The validators' checks on the bytes received -/

/-- A byte string with the 16-bit field at `off` set to zero (R136). -/
def zeroField (bs : Bytes) (off : Nat) : Bytes := bs.take off ++ [0#8, 0#8] ++ bs.drop (off + 2)

/-- The first of the five checks of R160 that a datagram fails, for an interface with address `ifIp`. -/
def ipGate (ifIp : IpAddr) (d : Bytes) : Option DropReason :=
  if d.length < 20 then some .ipShort
  else if beAt d 0 1 / 16 ≠ 4 then some .ipVersion
  else if d.length < beAt d 2 2 ∨ beAt d 2 2 < 20 then some .ipTotlen
  else if csum16 (zeroField (d.take 20) 10) ≠ beAt d 10 2 then some .ipCsum
  else if beAt d 16 4 ≠ ifIp.toNat then some .ipDst
  else none

/-- A datagram without the bytes beyond its total length: header and payload (R165). -/
def ipTrim (d : Bytes) : Bytes := d.take (beAt d 2 2)

/-- The first of the checks of R185 that a datagram from `src` fails, for an interface with address `ifIp`. -/
def udpGate (src ifIp : IpAddr) (d : Bytes) : Option DropReason :=
  if d.length < 8 then some .udpShort
  else if d.length < beAt d 4 2 ∨ beAt d 4 2 < 8 then some .udpLen
  else if csum16 (pseudoHeader src ifIp (beAt d 4 2) ++ (zeroField d 6).take (beAt d 4 2)) ≠ beAt d 6 2 then
    some .udpCsum
  else none

/-- The payload a UDP header declares: `length - 8` bytes (R96, R187). -/
def udpPayload (d : Bytes) : Bytes := (d.drop 8).take (beAt d 4 2 - 8)

end Sys2Proof.Wire
end

