-- ==== Sys2Proof/Certificates/Slice0/Obligations.lean ====
section
/-!
DEFINITION. What is claimed of the model, rule by rule. `s.after early value es b n` (Safety.lean) is `s` once a command
has ended: the events `es` and one response have left, BUF holds `b`, the latches hold draw `n`, and EVERYTHING ELSE is as in
`s`: an equation with it states the frame as well. No statement rests on the values of draws or of scratch.
-/

section
open Sys2Proof Sys2Proof.Machine

/-! ### Reset -/

/-- R37, R250: what reset leaves, for every configuration. No byte of a Buffer holds a defined value. What the spec leaves
unspecified (latches, STATUS, RESULT) is not stated. -/
def Obligations.ResetValues : Prop :=
  ∀ c : Config,
    (State.resetWith c).ifMac = c.ifMac ∧ (State.resetWith c).ifIp = c.ifIp ∧ (State.resetWith c).mtu = c.mtu ∧
    (State.resetWith c).ipTtlDefault = c.ipTtlDefault ∧ (State.resetWith c).ipId = 0#16 ∧
    (State.resetWith c).dispatch = [] ∧ (State.resetWith c).ports = [] ∧ (State.resetWith c).engine = .idle ∧
    (State.resetWith c).buf.start = 0 ∧ (State.resetWith c).buf.len = 0 ∧ (State.resetWith c).buf.data = [] ∧
    (State.resetWith c).fbuf.start = 0 ∧ (State.resetWith c).fbuf.len = 0 ∧ (State.resetWith c).fbuf.data = [] ∧
    (State.resetWith c).trace = [] ∧ State.reset = State.resetWith Config.installed

/-- The invariant holds after reset, for every legal configuration (R251) and for the installed one. -/
def Obligations.ResetMeetsInvariant : Prop :=
  (∀ c : Config, 28 ≤ c.mtu.toNat → (c.mtu.toNat - 20) % 8 = 0 → 2 ≤ c.dispatchCap → 1 ≤ c.portCap → 88 ≤ c.bufCap →
    (State.resetWith c).Inv) ∧ State.reset.Inv

/-- R250: the reset input puts every piece of state at its reset value and does not recall what has left the block. -/
def Obligations.ResetInputKeepsWhatHasLeft : Prop :=
  ∀ (c : Config) (s : State),
    (s.applyReset c).trace = s.trace ∧ (s.applyReset c).ifMac = c.ifMac ∧ (s.applyReset c).ifIp = c.ifIp ∧
    (s.applyReset c).mtu = c.mtu ∧ (s.applyReset c).ipTtlDefault = c.ipTtlDefault ∧ (s.applyReset c).ipId = 0#16 ∧
    (s.applyReset c).dispatch = [] ∧ (s.applyReset c).ports = [] ∧ (s.applyReset c).engine = .idle ∧
    (s.applyReset c).buf.start = 0 ∧ (s.applyReset c).buf.len = 0 ∧ (s.applyReset c).buf.data = [] ∧
    (s.applyReset c).fbuf.start = 0 ∧ (s.applyReset c).fbuf.len = 0 ∧ (s.applyReset c).fbuf.data = []

/-- R252, R111: from empty tables the two commands of `BOOT` leave exactly the two registrations, and a table from which
the receive path never reaches the case without a meaning. -/
def Obligations.BootRegistersTheReceivePath : Prop :=
  ∀ s : State, s.dispatch = [] → 2 ≤ s.caps.dispatch →
    ∃ (t u : State) (i j : Instr), Instr.boot = [i, j] ∧ exec i s = .next t ∧ exec j t = .next u ∧
      (∀ k, u.dispatch.lookup k =
        if k = 0x0800#16 then some 0x0001#16 else if k = 17#16 then some 0x0002#16 else none) ∧
      u.BootSafe ∧ t.status = 0#8 ∧ u.status = 0#8 ∧ u.ports = s.ports ∧ u.ipId = s.ipId

/-! ### Steps -/

/-- Every step keeps the invariant: a legal configuration, an IDLE engine, both Buffers in bounds with a canonical
memory, both tables within their capacity with one handler for a key (R22, R31, R32, R61, R251). -/
def Obligations.StepKeepsInvariant : Prop :=
  ∀ s t : State, s.Inv → step s = .next t → t.Inv

/-- When the bytes at the command port begin with the encoding of a well-formed command, the step runs that command on
the state in which those bytes are consumed (R22, R105). -/
def Obligations.StepRunsTheDecodedCommand : Prop :=
  ∀ (s : State) (i : Instr) (rest : Bytes), s.configLegal = true → s.engine = .idle → WellFormed i = true →
    s.port = encode i ++ rest → step s = exec i { s with port := rest }

/-- R108: a descriptor that matches no row of the opcode table, or NET_DISPATCH's row with an `SRCW` other than 4 or 6, is an
illegal command: the step changes no state but the response, emits no event, answers FAIL_BAD_CMD, and discards the payload
bytes that follow. -/
def Obligations.IllegalCommandOnlyAnswers : Prop :=
  ∀ (s : State) (d p rest : Bytes), s.configLegal = true → s.engine = .idle → d.length = 16 → p.length = beAt d 2 2 →
    s.port = d ++ p ++ rest →
    (∀ row ∈ opcodeTable, beNat d &&& row.2.2 = row.2.1 → row.1 = .netDispatch ∧ beAt d 12 1 ≠ 4 ∧ beAt d 12 1 ≠ 6) →
    step s = .next { s with
      port := rest
      status := 0x05#8
      result := 0#16
      trace := s.trace ++ [.response 0x05#8 0#16]
      lastEnd := some (.fail .badCmd) }

/-- Without a whole command at the port nothing happens (R221 "Nothing happens between commands"; the waiting is the model's
choice, log 5). -/
def Obligations.IncompleteCommandWaits : Prop :=
  ∀ s : State, s.configLegal = true → s.engine = .idle →
    (s.port.length < 16 ∨ s.port.length < 16 + beAt s.port 2 2) → step s = .next s

/-- R251: a configuration is run exactly if it meets the constraints of R9; the others are refused. -/
def Obligations.IllegalConfigurationIsRefused : Prop :=
  ∀ s : State,
    step s = .refused .illegalConfiguration ↔
      s.mtu.toNat < 28 ∨ (s.mtu.toNat - 20) % 8 ≠ 0 ∨ s.caps.dispatch < 2 ∨ s.caps.ports < 1 ∨ s.caps.buf < 42 + 46

/-- R22: a command is accepted only in IDLE; the refusal of a step of a BUSY engine is the model's choice (log 12). -/
def Obligations.BusyEngineAcceptsNothing : Prop :=
  ∀ s : State, s.configLegal = true → s.engine = .busy → step s = .refused .engineBusy

/-! ### Encoding -/

/-- Decoding what was encoded gives the command and what follows it, for every well-formed command. -/
def Obligations.EncodedCommandDecodes : Prop :=
  ∀ (i : Instr) (rest : Bytes), WellFormed i = true → decode (encode i ++ rest) = .command i rest

/-- The other direction: a command is decoded from its own encoding and from nothing else. -/
def Obligations.DecodedCommandEncodes : Prop :=
  ∀ (bs : Bytes) (i : Instr) (rest : Bytes), decode bs = .command i rest → WellFormed i = true ∧ bs = encode i ++ rest

/-- The decoder and spec/opcode_table.json agree, and R108 decides the rest: a descriptor with its `LEN` payload bytes decodes
to a command of operation `op` exactly if `op`'s row matches and, for NET_DISPATCH, `SRCW` is 4 or 6 and a 4-byte source
leaves bytes 8 and 9 zero; every other descriptor is an illegal command whose payload is skipped. -/
def Obligations.DecoderAcceptsTheOpcodeTable : Prop :=
  ∀ d p rest : Bytes, d.length = 16 → p.length = beAt d 2 2 →
    (∀ op : Opcode,
      (∃ i : Instr, i.opcode = op ∧ decode (d ++ p ++ rest) = .command i rest) ↔
        ∃ row ∈ opcodeTable, row.1 = op ∧ beNat d &&& row.2.2 = row.2.1 ∧
          (op = .netDispatch → beAt d 12 1 = 6 ∨ beAt d 12 1 = 4 ∧ beAt d 8 2 = 0)) ∧
    ((∃ (i : Instr) (r : Bytes), decode (d ++ p ++ rest) = .command i r) ∨
      ∃ why : Illegal, decode (d ++ p ++ rest) = .illegal why rest)

/-- Descriptors written out byte by byte from R105 to R107, one for each operand format. -/
def Obligations.SampleDescriptorsDecode : Prop :=
  decode [0x01, 0, 0, 2, 0, 0, 0, 0, 0, 0, 0, 0, 0, 0, 0, 0, 0xAB, 0xCD] = .command (.csum16 [0xAB, 0xCD]) [] ∧
  decode [0x11, 0, 0, 1, 2, 0, 0, 0, 0, 0xAA, 0x08, 0x06, 0, 0, 0, 0, 7] =
    .command (.ethTx 0x0200000000AA#48 0x0806#16 [7]) [] ∧
  decode [0x21, 0, 0, 0, 1, 2, 3, 4, 0, 0, 0, 17, 4, 0, 0, 0] = .command (.netDispatch (.ip 0x01020304#32) 17#16 []) [] ∧
  decode [0x32, 0, 0, 0, 1, 2, 3, 4, 17, 0, 0, 0, 0, 0, 0, 0, 9] = .command (.ipTx 0x01020304#32 17#8 []) [9] ∧
  decode [0x31, 1, 0, 0, 1, 2, 3, 4, 17, 0, 0xBE, 0xEF, 0x05, 0xC8, 0, 0] =
    .command (.ipFragEmit 0x01020304#32 17#8 0xBEEF#16 1480#16 true []) [] ∧
  decode [0x41, 0, 0, 0, 1, 2, 3, 4, 0, 53, 0x27, 0x0F, 0, 0, 0, 0] =
    .command (.udpTx 0x01020304#32 53#16 9999#16 []) [] ∧
  decode [0x42, 0, 0, 0, 0, 53, 1, 0, 0, 0, 0, 0, 0, 0, 0, 0] = .command (.udpOpen 53#16 0x0100#16) []

/-! ### Checksum -/

/-- R131 to R134 in closed form (the closed form of R133's loop is the spec's own derivation): with `sum` the sum of the
big-endian words, an odd last byte counting as a high byte, the checksum is 65535 minus the folded sum, which is 0
for `sum` = 0 and otherwise `sum` mod 65535 with 65535 for 0. -/
def Obligations.ChecksumClosedForm : Prop :=
  ∀ (bs : Bytes) (sum : Nat),
    sum = ((List.range ((bs.length + 1) / 2)).map fun k =>
      (bs.getD (2 * k) 0#8).toNat * 256 + (bs.getD (2 * k + 1) 0#8).toNat).sum →
    csum16 bs = 65535 - (if sum = 0 then 0 else if sum % 65535 = 0 then 65535 else sum % 65535)

/-- R131, R132, R134: the checksum is 65535 minus the folded sum of the big-endian words, an odd last byte counting as a high
byte; `fold` is the loop of R130, which ends because each fold lowers the sum. -/
def Obligations.ChecksumFollowsTheLoop : Prop :=
  ∃ fold : Nat → Nat, (∀ x, fold x = if 65536 ≤ x then fold (x % 65536 + x / 65536) else x) ∧
    ∀ bs : Bytes, csum16 bs = 65535 - fold
      (((List.range (bs.length / 2)).map fun k => (bs.getD (2 * k) 0#8).toNat * 256 + (bs.getD (2 * k + 1) 0#8).toNat).sum +
        if bs.length % 2 = 1 then (bs.getD (bs.length - 1) 0#8).toNat * 256 else 0)

/-- R130, R24: CSUM16 of a payload that fits BUF answers OK with the checksum in RESULT and changes nothing else: no
register, no table, no event, not FBUF. -/
def Obligations.Csum16Answers : Prop :=
  ∀ (p : Bytes) (s : State), 42 + p.length ≤ s.caps.buf →
    ∃ (b : Buffer) (n : Nat), b.window = p ∧
      exec (.csum16 p) s = .next (s.after none (BitVec.ofNat 16 (csum16 p)) [] b n) ∧ csum16 p < 65536

/-- R138: changing one byte of a range changes its checksum, and a range that verified against the 16-bit field inside it
(R136) does not verify after any one of its bytes is changed, the field's own included. -/
def Obligations.ChecksumDetectsOneChangedByte : Prop :=
  ∀ (bs : Bytes) (i : Nat) (v : Byte), i < bs.length → bs.getD i 0#8 ≠ v →
    csum16 (bs.set i v) ≠ csum16 bs ∧
    ∀ off : Nat, off + 2 ≤ bs.length → csum16 (Wire.zeroField bs off) = beAt bs off 2 →
      csum16 (Wire.zeroField (bs.set i v) off) ≠ beAt (bs.set i v) off 2

/-- R137: the corner cases (a) to (e). -/
def Obligations.ChecksumCorners : Prop :=
  csum16 [] = 0xFFFF ∧
  (∀ bs : Bytes, csum16 bs = 0xFFFF ↔ ∀ b ∈ bs, b = 0#8) ∧
  (∀ bs : Bytes, csum16 bs = 0 ↔ foldCarries (wordSum bs) = 0xFFFF) ∧ csum16 [0xFF#8, 0xFF#8] = 0 ∧
  (∀ as bs : Bytes, as.length % 2 = 0 → csum16 (as ++ [0#8, 0#8] ++ bs) = csum16 (as ++ bs)) ∧
  (∀ bs : Bytes, bs.length % 2 = 1 → csum16 (bs ++ [0#8]) = csum16 bs)

/-! ### Buffers -/

/-- R66, R67: a read returns the number whose most significant byte is the first, a stored field reads back, its bytes lie most
significant first, every other byte reads as before and the window stays; outside the window both are refused. -/
def Obligations.MemWriteThenMemRead : Prop :=
  ∀ (b : Buffer) (off n v : Nat),
    (off + n ≤ b.len →
      b.memRead off n = some ((List.range n).map fun k => (b.byteAt (b.start + off + k)).toNat * 256 ^ (n - 1 - k)).sum ∧
      ∃ c : Buffer, b.memWrite off n v = some c ∧ c.start = b.start ∧ c.len = b.len ∧
        (v < 256 ^ n → c.memRead off n = some v) ∧
        (∀ k, k < n → c.byteAt (b.start + off + k) = BitVec.ofNat 8 (v / 256 ^ (n - 1 - k))) ∧
        (∀ a, a < b.start + off ∨ b.start + off + n ≤ a → c.byteAt a = b.byteAt a)) ∧
    (b.len < off + n → b.memWrite off n v = none ∧ b.memRead off n = none)

/-- R61: every primitive keeps a Buffer in bounds and its memory canonical, and a primitive whose precondition fails, be it
a change, a read or a load, leaves the state and ends the operation with FAIL_BUF. -/
def Obligations.PrimitivesKeepBufferInvariant : Prop :=
  (∀ (cap : Nat) (b c : Buffer), b.Ok cap →
    ((∃ n, b.removeHeader n = some c) ∨ (∃ n, b.addHeader n = some c) ∨ (∃ n, b.addPadding cap n = some c) ∨
      (∃ n, b.removePadding n = some c) ∨ (∃ off n v, b.memWrite off n v = some c) ∨
      (∃ e p, Buffer.load cap e p = some c)) → c.Ok cap) ∧
  ∀ (w : BufId) (s : State),
    (∀ f : Buffer → Option Buffer, f (s.buffer w) = none → s.onBuffer w f = .ended (some (.fail .buf)) s) ∧
    (∀ off n k, (s.buffer w).memRead off n = none → s.readBuffer w off n k = .ended (some (.fail .buf)) s) ∧
    (∀ p : Bytes, s.caps.buf < 42 + p.length → s.loadBuffer w p = .ended (some (.fail .buf)) s)

/-- R62 to R65, R68: the effect of each primitive on the window and on every backing byte, under its precondition. -/
def Obligations.BufferPrimitivesDoAsStated : Prop :=
  (∀ (cap e : Nat) (p : Bytes), 42 + p.length ≤ cap → ∃ c : Buffer, Buffer.load cap e p = some c ∧ c.start = 42 ∧
    c.len = p.length ∧ c.window = p ∧ ∀ a, a < 42 ∨ 42 + p.length ≤ a → c.byteAt a = Config.freeByte e a) ∧
  (∀ (b : Buffer) (n : Nat), n ≤ b.len → ∃ c : Buffer, b.removeHeader n = some c ∧ c.start = b.start + n ∧
    c.len = b.len - n ∧ c.window = b.window.drop n ∧ ∀ a, c.byteAt a = b.byteAt a) ∧
  (∀ (b : Buffer) (n : Nat), n ≤ b.start → ∃ c : Buffer, b.addHeader n = some c ∧ c.start = b.start - n ∧
    c.len = b.len + n ∧ c.window = b.bytesFrom (b.start - n) n ++ b.window ∧ ∀ a, c.byteAt a = b.byteAt a) ∧
  (∀ (cap : Nat) (b : Buffer) (n : Nat), b.start + b.len + n ≤ cap → ∃ c : Buffer, b.addPadding cap n = some c ∧
    c.start = b.start ∧ c.len = b.len + n ∧ c.window = b.window ++ zeros n ∧
    ∀ a, a < b.start + b.len ∨ b.start + b.len + n ≤ a → c.byteAt a = b.byteAt a) ∧
  (∀ (b : Buffer) (n : Nat), n ≤ b.len → ∃ c : Buffer, b.removePadding n = some c ∧ c.start = b.start ∧
    c.len = b.len - n ∧ c.window = b.window.take (b.len - n) ∧ ∀ a, c.byteAt a = b.byteAt a)

/-- R163, R191, R262, R182, R64: which backing bytes each unit writes. The receive units leave every byte of BUF as it was
(the field zeroed for a checksum is restored) and do not touch FBUF; IP_FRAG_EMIT stores only in the 20 bytes before the
window it is called on; IP_TX leaves BUF alone; UDP_TX stores only in the 8 bytes before the window; ETH_TX only in the 14
bytes before it and in the padding up to 46 bytes. -/
def Obligations.UnitsKeepBytes : Prop :=
  ∀ (s t : State) (e : Option EarlyEnd),
    ((udpRx s = .ended e t ∨ ipRx s = .ended e t ∨ ethRx s = .ended e t ∨ netDispatch s = .ended e t) →
      (∀ a, t.buf.byteAt a = s.buf.byteAt a) ∧ t.fbuf = s.fbuf) ∧
    (∀ w, ipFragEmit w s = .ended e t →
      (∀ a, a < (s.buffer w).start - 20 ∨ (s.buffer w).start ≤ a → (t.buffer w).byteAt a = (s.buffer w).byteAt a) ∧
      (w = .buf → t.fbuf = s.fbuf) ∧ (w = .fbuf → t.buf = s.buf)) ∧
    (ipTx s = .ended e t → t.buf = s.buf) ∧
    (udpTx s = .ended e t → ∀ a, a < s.buf.start - 8 ∨ s.buf.start ≤ a → t.buf.byteAt a = s.buf.byteAt a) ∧
    (ethTx s = .ended e t → t.fbuf = s.fbuf ∧
      ∀ a, a < s.buf.start - 14 ∨ (s.buf.start ≤ a ∧ a < s.buf.start + s.buf.len) ∨
        s.buf.start + max 46 s.buf.len ≤ a → t.buf.byteAt a = s.buf.byteAt a)

/-- R61, R212: when BUF_CAP cannot hold the payload and the operand checks that come first (R217) pass, every command that
loads BUF answers FAIL_BUF and does nothing else. Which checks come first is the model's choice (log 9; for a UDP_TX of
65508 to 65527 bytes, log 18). -/
def Obligations.NoRoomForThePayloadFails : Prop :=
  ∀ (i : Instr) (s : State), s.caps.buf < 42 + i.payload.length →
    (match i with
      | .csum16 _ | .ethRx _ | .ethTx _ _ _ | .netDispatch _ _ _ | .ipRx _ _ | .udpRx _ _ => True
      | .ipFragEmit _ _ _ off _ p => off.toNat % 8 = 0 ∧ p.length ≤ 65515
      | .ipTx _ _ p => p.length ≤ 65515
      | .udpTx _ _ _ p => p.length ≤ 65527
      | .ethPoll | .netRegister _ _ | .udpOpen _ _ | .udpClose _ => False) →
    ∃ n : Nat, exec i s = .next (s.after (some (.fail .buf)) 0#16 [] s.buf n)

/-! ### Tables -/

/-- R152, R153: NET_REGISTER of a new key in a full table answers FAIL_TABLE_FULL with the table unchanged; every other
registration answers OK, maps the key to the handler, replacing what was there, and leaves the other keys. -/
def Obligations.NetRegisterWritesTheTable : Prop :=
  ∀ (key hnd : Half) (s : State), ∃ n : Nat,
    (s.dispatch.lookup key = none ∧ s.dispatch.length = s.caps.dispatch →
      exec (.netRegister key hnd) s = .next (s.after (some (.fail .tableFull)) 0#16 [] s.buf n)) ∧
    (¬ (s.dispatch.lookup key = none ∧ s.dispatch.length = s.caps.dispatch) →
      ∃ t : Table, (∀ k, t.lookup k = if k = key then some hnd else s.dispatch.lookup k) ∧
        exec (.netRegister key hnd) s = .next { s.after none 0#16 [] s.buf n with dispatch := t })

/-- R200 to R202: the same of UDP_OPEN and PORTS. -/
def Obligations.UdpOpenWritesTheTable : Prop :=
  ∀ (key hnd : Half) (s : State), ∃ n : Nat,
    (s.ports.lookup key = none ∧ s.ports.length = s.caps.ports →
      exec (.udpOpen key hnd) s = .next (s.after (some (.fail .tableFull)) 0#16 [] s.buf n)) ∧
    (¬ (s.ports.lookup key = none ∧ s.ports.length = s.caps.ports) →
      ∃ t : Table, (∀ k, t.lookup k = if k = key then some hnd else s.ports.lookup k) ∧
        exec (.udpOpen key hnd) s = .next { s.after none 0#16 [] s.buf n with ports := t })

/-- R203: UDP_CLOSE answers OK, removes the port, and changes nothing if the port was not open. -/
def Obligations.UdpCloseRemovesThePort : Prop :=
  ∀ (key : Half) (s : State), ∃ (n : Nat) (t : Table),
    (∀ k, t.lookup k = if k = key then none else s.ports.lookup k) ∧ (s.ports.lookup key = none → t = s.ports) ∧
    exec (.udpClose key) s = .next { s.after none 0#16 [] s.buf n with ports := t }

/-- R204: closing again only answers OK and changes nothing; closing a port that is not open is a no-op on the
table; a valid datagram to the closed port is then unreachable; and closing an open port frees a place, so that opening any
port succeeds. -/
def Obligations.CloseIsIdempotentAndFreesAPlace : Prop :=
  ∀ (key : Half) (s t : State), exec (.udpClose key) s = .next t →
    t.status = 0#8 ∧ (s.ports.lookup key = none → t.ports = s.ports) ∧
    (∃ n : Nat, exec (.udpClose key) t = .next (t.after none 0#16 [] t.buf n)) ∧
    (∀ (ip : IpAddr) (d : Bytes), 42 + d.length ≤ s.caps.buf → Wire.udpGate ip s.ifIp d = none → beAt d 2 2 = key.toNat →
      ∃ (orig : Bytes) (b : Buffer) (n : Nat), exec (.udpRx ip d) t = .next (t.after (some (.notify .portUnreach)) 0#16
        [.icmpUnreach orig ip .portUnreachable] b n)) ∧
    (s.Inv → s.ports.lookup key ≠ none → ∀ key' hnd, ∃ u : State, exec (.udpOpen key' hnd) t = .next u ∧
      u.status = 0#8 ∧ u.ports.lookup key' = some hnd)

/-! ### The whole machine -/

/-- R31, R32: DISPATCH is written only by NET_REGISTER, PORTS only by UDP_OPEN and UDP_CLOSE. -/
def Obligations.OnlyTableCommandsWriteTables : Prop :=
  ∀ (i : Instr) (s t : State), exec i s = .next t →
    (t.dispatch ≠ s.dispatch → ∃ key hnd, i = .netRegister key hnd) ∧
    (t.ports ≠ s.ports → (∃ key hnd, i = .udpOpen key hnd) ∨ ∃ key, i = .udpClose key)

/-- R30, R178: CR.IP_ID changes only in an IP_TX, called or issued, that completed, and then by one modulo 65536. -/
def Obligations.OnlyCompletedSendsAdvanceIpId : Prop :=
  ∀ (i : Instr) (s t : State), exec i s = .next t → t.ipId ≠ s.ipId →
    ((∃ ip proto p, i = .ipTx ip proto p) ∨ ∃ ip sport dport p, i = .udpTx ip sport dport p) ∧
    t.ipId = s.ipId + 1#16 ∧ t.status = 0#8

/-- R26 to R29, R36: no step writes CR.IF_MAC, CR.IF_IP, CR.MTU, CR.IP_TTL_DEFAULT or a capacity. -/
def Obligations.ConfigurationIsConstant : Prop :=
  ∀ s t : State, step s = .next t →
    t.ifMac = s.ifMac ∧ t.ifIp = s.ifIp ∧ t.mtu = s.mtu ∧ t.ipTtlDefault = s.ipTtlDefault ∧ t.caps = s.caps

/-- R22, R24, R78, R212: every command that ends has let out its events and then exactly one response, with the STATUS and
RESULT it leaves; STATUS is one of 0 to 6; RESULT is 0 unless the command is a CSUM16 that ended OK; the engine is IDLE. -/
def Obligations.OneResponseAfterTheEvents : Prop :=
  ∀ (i : Instr) (s t : State), exec i s = .next t →
    (∃ es : List Event, t.trace = s.trace ++ es.map .event ++ [.response t.status t.result]) ∧
    t.status.toNat ≤ 6 ∧ (t.result ≠ 0#16 → (∃ p, i = .csum16 p) ∧ t.status = 0#8) ∧ t.engine = .idle

/-- R210, R211, R212, R219: a command that ends early leaves the control registers and tables as they were; a drop and a
notification answer OK, a failure its code. -/
def Obligations.EarlyEndsLeaveRegistersAndTables : Prop :=
  ∀ (i : Instr) (s t : State) (e : EarlyEnd), exec i s = .next t → t.lastEnd = some e →
    t.dispatch = s.dispatch ∧ t.ports = s.ports ∧ t.ipId = s.ipId ∧ t.ifMac = s.ifMac ∧ t.ifIp = s.ifIp ∧
    t.mtu = s.mtu ∧ t.ipTtlDefault = s.ipTtlDefault ∧ t.result = 0#16 ∧
    t.status =
      match e with
      | .drop _ => 0x00#8
      | .notify _ => 0x00#8
      | .fail .tableFull => 0x01#8
      | .fail .tooLong => 0x02#8
      | .fail .badOperand => 0x03#8
      | .fail .link => 0x04#8
      | .fail .badCmd => 0x05#8
      | .fail .buf => 0x06#8

/-- R210, R211: a dropped packet causes no event and a notified one exactly one event, an EV_ICMP_UNREACH; the
EV_DRV_POLL that fetched the packet, for ETH_POLL, comes before either. -/
def Obligations.DropsAreSilentAndNotifiesSendOneEvent : Prop :=
  ∀ (i : Instr) (s t : State), s.configLegal = true → exec i s = .next t →
    ∃ pre : List Output, (i ≠ .ethPoll → pre = []) ∧ (i = .ethPoll → pre = [.event .drvPoll]) ∧
      (∀ r, t.lastEnd = some (.drop r) → t.trace = s.trace ++ pre ++ [.response 0#8 0#16]) ∧
      (∀ c, t.lastEnd = some (.notify c) → ∃ orig ip reason,
        t.trace = s.trace ++ pre ++ [.event (.icmpUnreach orig ip reason), .response 0#8 0#16])

/-- R34, R21: what a command does outside scratch does not depend on what scratch held: two states that agree on everything
but the Buffers, the latches, the engine state, STATUS, RESULT and the ghost give, by one command in a legal configuration, next
states that agree on everything but the Buffers and the latches, the count of draws included, or stop alike. -/
def Obligations.OutcomeIgnoresScratch : Prop :=
  ∀ (i : Instr) (s : State) (b c : Buffer) (l : Latches) (e : Engine) (st : Byte) (r : Half) (g : Option EarlyEnd),
    s.configLegal = true → Alike (exec i s)
      (exec i { s with buf := b, fbuf := c, latches := l, engine := e, status := st, result := r, lastEnd := g })

/-- R214, R157, R270: in a legal configuration whose dispatch table registers H_UDP_RX only under 17 and H_IP_RX not under
it, every command that does not itself name an in-block handler's key with the wrong kind of source runs to its end. -/
def Obligations.SafeTablesNeverStop : Prop :=
  ∀ (i : Instr) (s : State), s.configLegal = true → s.BootSafe → s.CommandSafe i → ∃ t : State, exec i s = .next t

/-- R61: with the default BUF_CAP of 65623 no Buffer precondition fails on any path, for every well-formed command and
every polled frame of at most 65535 bytes (R239). -/
def Obligations.DefaultCapacityNeverFailsBuf : Prop :=
  ∀ (i : Instr) (s t : State), s.configLegal = true → 65623 ≤ s.caps.buf → WellFormed i = true →
    (∀ f, s.pollAnswer = some f → f.length ≤ 65535) → exec i s = .next t → t.status ≠ 0x06#8

/-! ### NET_DISPATCH -/

/-- R155, R158: a key without an entry is a silent drop, and a handler identifier other than the two in-block ones gets one
EV_UPWARD with the payload, the key and the source (6 or 4 bytes in wire order). -/
def Obligations.NetDispatchDropsOrHandsUpward : Prop :=
  ∀ (src : Source) (key : Half) (p : Bytes) (s : State), 42 + p.length ≤ s.caps.buf →
    (s.dispatch.lookup key = none →
      ∃ (b : Buffer) (n : Nat), exec (.netDispatch src key p) s =
        .next (s.after (some (.drop .noHandler)) 0#16 [] b n)) ∧
    (∀ h, s.dispatch.lookup key = some h → h ≠ 0x0001#16 → h ≠ 0x0002#16 →
      ∃ (b : Buffer) (n : Nat), exec (.netDispatch src key p) s =
        .next (s.after none 0#16 [.upward h p key
          (match src with
            | .mac a => bytesOf 6 a.toNat
            | .ip a => bytesOf 4 a.toNat)] b n))

/-- R154, R156: a key under which an in-block handler is registered runs that unit on the payload, with the source it came
with; R157: with the wrong kind of source the model refuses the run. -/
def Obligations.NetDispatchRunsTheUnitOrRefuses : Prop :=
  ∀ (key : Half) (p : Bytes) (s : State), 42 + p.length ≤ s.caps.buf →
    (s.dispatch.lookup key = some 0x0001#16 → ∀ a,
      Alike (exec (.netDispatch (.mac a) key p) s) (exec (.ipRx a p) s)) ∧
    (s.dispatch.lookup key = some 0x0002#16 → ∀ a,
      Alike (exec (.netDispatch (.ip a) key p) s) (exec (.udpRx a p) s)) ∧
    (s.dispatch.lookup key = some 0x0001#16 → ∀ a, exec (.netDispatch (.ip a) key p) s = .refused .wrongSource) ∧
    (s.dispatch.lookup key = some 0x0002#16 → ∀ a, exec (.netDispatch (.mac a) key p) s = .refused .wrongSource)

/-! ### ETH_RX, ETH_TX, ETH_POLL -/

/-- R141, R142: a frame of fewer than 14 bytes is dropped; any other does what NET_DISPATCH does with what follows the
header, the source MAC at offset 6 and the EtherType at offset 12, and so completes when the EtherType's handler is outside
the block. -/
def Obligations.EthRxStripsAndDispatches : Prop :=
  ∀ (f : Bytes) (s : State), 42 + f.length ≤ s.caps.buf →
    (f.length < 14 → ∃ (b : Buffer) (n : Nat), exec (.ethRx f) s =
      .next (s.after (some (.drop .ethShort)) 0#16 [] b n)) ∧
    (14 ≤ f.length →
      Alike (exec (.ethRx f) s) (exec (.netDispatch (.mac (BitVec.ofNat 48 (beAt f 6 6)))
        (BitVec.ofNat 16 (beAt f 12 2)) (f.drop 14)) s)) ∧
    (14 ≤ f.length → ∀ h, s.dispatch.lookup (BitVec.ofNat 16 (beAt f 12 2)) = some h → h ≠ 0x0001#16 → h ≠ 0x0002#16 →
      ∃ (b : Buffer) (n : Nat), exec (.ethRx f) s = .next (s.after none 0#16
        [.upward h (f.drop 14) (BitVec.ofNat 16 (beAt f 12 2)) ((f.drop 6).take 6)] b n))

/-- R148: ETH_POLL asks the driver once. With nothing available it is done; a frame that fits is treated as ETH_RX treats
it; a frame that does not fit fails. `pollAnswers` is what the driver holds (log 6). -/
def Obligations.EthPollTakesAtMostOneFrame : Prop :=
  ∀ s : State,
    (s.pollAnswer = none → ∃ n : Nat, exec .ethPoll s =
      .next { s.after none 0#16 [.drvPoll] s.buf n with pollAnswers := s.pollAnswers.tail }) ∧
    (∀ f, s.pollAnswer = some f → 42 + f.length ≤ s.caps.buf →
      Alike (exec .ethPoll s)
        (exec (.ethRx f) { s with pollAnswers := s.pollAnswers.tail, trace := s.trace ++ [.event .drvPoll] })) ∧
    (∀ f, s.pollAnswer = some f → s.caps.buf < 42 + f.length → ∃ n : Nat, exec .ethPoll s =
      .next { s.after (some (.fail .buf)) 0#16 [.drvPoll] s.buf n with pollAnswers := s.pollAnswers.tail })

/-- R145 to R147: ETH_TX sends one frame: the header with CR.IF_MAC as source, the payload, and zeros up to 46 payload bytes;
it answers OK or FAIL_LINK as the driver answered (`ok`: any value where the environment holds no answer), and changes nothing
else. -/
def Obligations.EthTxSendsOneFrame : Prop :=
  ∀ (mac : MacAddr) (proto : Half) (p : Bytes) (s : State), 42 + max 46 p.length ≤ s.caps.buf →
    ∃ (b : Buffer) (ok : Bool) (n : Nat), (∀ a rest, s.txAnswers = a :: rest → ok = a) ∧
      exec (.ethTx mac proto p) s = .next
        { s.after (if ok then none else some (.fail .link)) 0#16
            [.drvTx (bytesOf 6 mac.toNat ++ bytesOf 6 s.ifMac.toNat ++ bytesOf 2 proto.toNat ++ p ++
              zeros (46 - p.length))] b n with
          txAnswers := s.txAnswers.tail }

/-! ### IP_RX -/

/-- R160 to R164, R169: a datagram that fails one of the five checks is dropped under the first it fails (`Wire.ipGate` lists
them in order), whatever the source MAC, and the bytes received are left as they were. -/
def Obligations.IpRxDropsAtTheFirstFailedCheck : Prop :=
  ∀ (mac : MacAddr) (d : Bytes) (s : State) (r : DropReason), 42 + d.length ≤ s.caps.buf →
    Wire.ipGate s.ifIp d = some r →
    ∃ (b : Buffer) (n : Nat), b.bytesFrom 42 d.length = d ∧
      exec (.ipRx mac d) s = .next (s.after (some (.drop r)) 0#16 [] b n)

/-- R165, R167, R216: a valid datagram with a protocol other than 17 is answered with one protocol-unreachable notification
to its source, showing the datagram as received without the bytes beyond its total length. -/
def Obligations.IpRxNotifiesOtherProtocols : Prop :=
  ∀ (mac : MacAddr) (d : Bytes) (s : State), 42 + d.length ≤ s.caps.buf → Wire.ipGate s.ifIp d = none →
    beAt d 9 1 ≠ 17 →
    ∃ (b : Buffer) (n : Nat), b.bytesFrom 42 d.length = d ∧
      exec (.ipRx mac d) s = .next (s.after (some (.notify .protoUnreach)) 0#16
        [.icmpUnreach (d.take (beAt d 2 2)) (BitVec.ofNat 32 (beAt d 12 4)) .protocolUnreachable] b n)

/-- R159, R165, R167, R189: a valid datagram with protocol 17, with H_UDP_RX registered under 17, whose payload passes the UDP
checks for its source address and whose destination port is open, reaches the port's handler. -/
def Obligations.IpRxDeliversUdp : Prop :=
  ∀ (mac : MacAddr) (d u : Bytes) (s : State) (h : Half), 42 + d.length ≤ s.caps.buf → Wire.ipGate s.ifIp d = none →
    beAt d 9 1 = 17 → s.dispatch.lookup 17#16 = some 0x0002#16 → u = (d.take (beAt d 2 2)).drop 20 →
    Wire.udpGate (BitVec.ofNat 32 (beAt d 12 4)) s.ifIp u = none →
    s.ports.lookup (BitVec.ofNat 16 (beAt u 2 2)) = some h →
    ∃ (b : Buffer) (n : Nat), b.bytesFrom 42 d.length = d ∧
      exec (.ipRx mac d) s = .next (s.after none 0#16
        [.handler h ((u.drop 8).take (beAt u 4 2 - 8)) (BitVec.ofNat 16 (beAt u 4 2 - 8)) (BitVec.ofNat 32 (beAt d 12 4))
          (BitVec.ofNat 16 (beAt u 0 2))] b n)

/-- R155, R158, R190, R216, R217: the other ends of a valid datagram with protocol 17: no handler under 17, a handler outside
the block, a datagram that fails a UDP check, and a closed port, whose notification shows the received IPv4 header and the
whole IPv4 payload. -/
def Obligations.IpRxOtherTransportEnds : Prop :=
  ∀ (mac : MacAddr) (d u : Bytes) (s : State) (src : IpAddr), 42 + d.length ≤ s.caps.buf → Wire.ipGate s.ifIp d = none →
    beAt d 9 1 = 17 → u = (d.take (beAt d 2 2)).drop 20 → src = BitVec.ofNat 32 (beAt d 12 4) →
    ∃ (b : Buffer) (n : Nat), b.bytesFrom 42 d.length = d ∧
      (s.dispatch.lookup 17#16 = none →
        exec (.ipRx mac d) s = .next (s.after (some (.drop .noHandler)) 0#16 [] b n)) ∧
      (∀ h, s.dispatch.lookup 17#16 = some h → h ≠ 0x0001#16 → h ≠ 0x0002#16 →
        exec (.ipRx mac d) s = .next (s.after none 0#16 [.upward h u 17#16 (bytesOf 4 src.toNat)] b n)) ∧
      (s.dispatch.lookup 17#16 = some 0x0002#16 → ∀ r, Wire.udpGate src s.ifIp u = some r →
        exec (.ipRx mac d) s = .next (s.after (some (.drop r)) 0#16 [] b n)) ∧
      (s.dispatch.lookup 17#16 = some 0x0002#16 → Wire.udpGate src s.ifIp u = none →
        s.ports.lookup (BitVec.ofNat 16 (beAt u 2 2)) = none →
        exec (.ipRx mac d) s = .next (s.after (some (.notify .portUnreach)) 0#16
          [.icmpUnreach (d.take 20 ++ u) src .portUnreachable] b n))

/-! ### IP_FRAG_EMIT, IP_TX -/

/-- R170, R172, R173, R174: IP_FRAG_EMIT hands one datagram to address resolution: the 20 header bytes, whose checksum field
is the checksum of the header with that field zero, and the payload. CR.IP_ID and everything else stay. -/
def Obligations.IpFragEmitBuildsTheDatagram : Prop :=
  ∀ (ip : IpAddr) (proto : Byte) (ident off : Half) (mf : Bool) (p : Bytes) (s : State), off.toNat % 8 = 0 →
    p.length ≤ 65515 → 42 + p.length ≤ s.caps.buf →
    ∃ (header : Bytes) (b : Buffer) (n : Nat),
      header = [0x45#8, 0x00#8] ++ bytesOf 2 (20 + p.length) ++ bytesOf 2 ident.toNat ++
        bytesOf 2 (mf.toNat * 0x2000 + off.toNat / 8) ++ [s.ipTtlDefault, proto] ++
        bytesOf 2 (csum16 (Wire.zeroField header 10)) ++ bytesOf 4 s.ifIp.toNat ++ bytesOf 4 ip.toNat ∧
      header ++ p = Wire.datagram s.ipTtlDefault s.ifIp ip proto ident off mf p ∧ b.window = header ++ p ∧
      exec (.ipFragEmit ip proto ident off mf p) s = .next (s.after none 0#16 [.arp (header ++ p) ip] b n)

/-- R171, R217: an offset that is not a multiple of 8 answers FAIL_BAD_OPERAND, before a payload over 65515 bytes answers
FAIL_TOO_LONG; neither does anything else. -/
def Obligations.IpFragEmitOperandErrors : Prop :=
  ∀ (ip : IpAddr) (proto : Byte) (ident off : Half) (mf : Bool) (p : Bytes) (s : State),
    (off.toNat % 8 ≠ 0 → ∃ n : Nat, exec (.ipFragEmit ip proto ident off mf p) s =
      .next (s.after (some (.fail .badOperand)) 0#16 [] s.buf n)) ∧
    (off.toNat % 8 = 0 → 65515 < p.length → ∃ n : Nat, exec (.ipFragEmit ip proto ident off mf p) s =
      .next (s.after (some (.fail .tooLong)) 0#16 [] s.buf n))

/-- R175, R176, R178, R182: IP_TX emits the fragments of the payload (`Wire.fragments`) in order, all with the value CR.IP_ID
had, advances CR.IP_ID by one modulo 65536, keeps the payload in BUF, and changes nothing else but FBUF. -/
def Obligations.IpTxEmitsTheFragments : Prop :=
  ∀ (ip : IpAddr) (proto : Byte) (p : Bytes) (s : State), s.configLegal = true → p.length ≤ 65515 →
    42 + p.length ≤ s.caps.buf →
    ∃ (b c : Buffer) (n : Nat), b.window = p ∧
      exec (.ipTx ip proto p) s = .next
        { s.after none 0#16 ((Wire.fragments (s.mtu.toNat - 20) s.ipTtlDefault s.ifIp ip proto s.ipId p).map
            fun d => .arp d ip) b n with
          fbuf := c
          ipId := s.ipId + 1#16 }

/-- R177: a payload over 65515 bytes is refused with FAIL_TOO_LONG; nothing is emitted and CR.IP_ID stays. -/
def Obligations.IpTxRefusesLongPayloads : Prop :=
  ∀ (ip : IpAddr) (proto : Byte) (p : Bytes) (s : State), 65515 < p.length →
    ∃ n : Nat, exec (.ipTx ip proto p) s = .next (s.after (some (.fail .tooLong)) 0#16 [] s.buf n)

/-- R176, R179, R180: what IP_TX emits, read from the bytes of the datagrams: their number; offsets that are increasing multiples
of 8; more-fragments 1 on all but the last, reserved flag and DF 0; one identification, protocol, TTL, source, destination;
total lengths that are the datagrams' own, at most MTU, and MTU for all but the last; and payloads that concatenate to the
payload sent. -/
def Obligations.FragmentsReassembleToThePayload : Prop :=
  ∀ (ip : IpAddr) (proto : Byte) (p : Bytes) (s t : State), s.configLegal = true → p.length ≤ 65515 →
    42 + p.length ≤ s.caps.buf → exec (.ipTx ip proto p) s = .next t →
    ∃ ds : List Bytes,
      t.trace = s.trace ++ ds.map (fun d => .event (.arp d ip)) ++ [.response 0#8 0#16] ∧
      ds.length = (if p.length = 0 then 1 else (p.length + (s.mtu.toNat - 20) - 1) / (s.mtu.toNat - 20)) ∧
      (ds.map fun d => d.drop 20).flatten = p ∧
      ∀ (j : Nat) (d : Bytes), ds[j]? = some d →
        8 * (beAt d 6 2 % 8192) = j * (s.mtu.toNat - 20) ∧
        beAt d 6 2 / 8192 = (if j + 1 < ds.length then 1 else 0) ∧
        beAt d 4 2 = s.ipId.toNat ∧ beAt d 8 1 = s.ipTtlDefault.toNat ∧ beAt d 9 1 = proto.toNat ∧
        beAt d 12 4 = s.ifIp.toNat ∧ beAt d 16 4 = ip.toNat ∧
        beAt d 2 2 = d.length ∧ 20 ≤ d.length ∧ d.length ≤ s.mtu.toNat ∧ (j + 1 < ds.length → d.length = s.mtu.toNat)

/-- R136, R163, R165, R173: what IP_FRAG_EMIT sends, IP_RX of the interface it is addressed to accepts. The datagram `d` that
leaves in EV_ARP, link-layer padding behind it or not, is dropped by none of the five checks: another protocol than 17 is
answered with the notification that shows `d` without the padding; protocol 17 goes on to what is registered under 17, a
handler outside the block getting the payload and the sender's address. -/
def Obligations.EmittedDatagramsPassTheGate : Prop :=
  ∀ (ip : IpAddr) (proto : Byte) (ident off : Half) (mf : Bool) (mac : MacAddr) (p pad : Bytes) (s r : State),
    off.toNat % 8 = 0 → p.length ≤ 65515 → 42 + p.length ≤ s.caps.buf → r.ifIp = ip →
    42 + 20 + p.length + pad.length ≤ r.caps.buf →
    ∃ (d : Bytes) (t : State),
      exec (.ipFragEmit ip proto ident off mf p) s = .next t ∧
      t.trace = s.trace ++ [.event (.arp d ip), .response 0#8 0#16] ∧ d.drop 20 = p ∧
      (∀ u, exec (.ipRx mac (d ++ pad)) r = .next u →
        ∀ x ∈ [DropReason.ipShort, .ipVersion, .ipTotlen, .ipCsum, .ipDst], u.lastEnd ≠ some (.drop x)) ∧
      (proto ≠ 17#8 → ∃ (b : Buffer) (n : Nat), exec (.ipRx mac (d ++ pad)) r =
        .next (r.after (some (.notify .protoUnreach)) 0#16 [.icmpUnreach d s.ifIp .protocolUnreachable] b n)) ∧
      (proto = 17#8 → r.dispatch.lookup 17#16 = none → ∃ (b : Buffer) (n : Nat), exec (.ipRx mac (d ++ pad)) r =
        .next (r.after (some (.drop .noHandler)) 0#16 [] b n)) ∧
      (∀ h, proto = 17#8 → r.dispatch.lookup 17#16 = some h → h ≠ 0x0001#16 → h ≠ 0x0002#16 →
        ∃ (b : Buffer) (n : Nat), exec (.ipRx mac (d ++ pad)) r =
          .next (r.after none 0#16 [.upward h p 17#16 (bytesOf 4 s.ifIp.toNat)] b n)) ∧
      (proto = 17#8 → r.dispatch.lookup 17#16 = some 0x0002#16 →
        ∃ u : State, exec (.ipRx mac (d ++ pad)) r = .next u)

/-! ### UDP_RX, UDP_TX -/

/-- R185 to R188, R191: a datagram that fails a check of UDP_RX is dropped under the first it fails (`Wire.udpGate` lists them
in order), whatever its port, and the bytes received are left as they were. -/
def Obligations.UdpRxDropsAtTheFirstFailedCheck : Prop :=
  ∀ (ip : IpAddr) (d : Bytes) (s : State) (r : DropReason), 42 + d.length ≤ s.caps.buf →
    Wire.udpGate ip s.ifIp d = some r →
    ∃ (b : Buffer) (n : Nat), b.bytesFrom 42 d.length = d ∧
      exec (.udpRx ip d) s = .next (s.after (some (.drop r)) 0#16 [] b n)

/-- R187, R189, R192: a valid datagram to an open port causes one EV_HANDLER with the port's handler, the payload its header
declares, its length, the source address and the source port. -/
def Obligations.UdpRxDelivers : Prop :=
  ∀ (ip : IpAddr) (d : Bytes) (s : State) (h : Half), 42 + d.length ≤ s.caps.buf → Wire.udpGate ip s.ifIp d = none →
    s.ports.lookup (BitVec.ofNat 16 (beAt d 2 2)) = some h →
    ∃ (b : Buffer) (n : Nat), b.bytesFrom 42 d.length = d ∧
      exec (.udpRx ip d) s = .next (s.after none 0#16
        [.handler h ((d.drop 8).take (beAt d 4 2 - 8)) (BitVec.ofNat 16 (beAt d 4 2 - 8)) ip
          (BitVec.ofNat 16 (beAt d 0 2))] b n)

/-- R190, R216: a valid datagram to a closed port causes one port-unreachable notification to its source and no EV_HANDLER;
issued as a command, its original datagram is 20 unspecified bytes and the datagram. -/
def Obligations.UdpRxNotifiesClosedPorts : Prop :=
  ∀ (ip : IpAddr) (d : Bytes) (s : State), 42 + d.length ≤ s.caps.buf → Wire.udpGate ip s.ifIp d = none →
    s.ports.lookup (BitVec.ofNat 16 (beAt d 2 2)) = none →
    ∃ (before : Bytes) (b : Buffer) (n : Nat), before.length = 20 ∧ b.bytesFrom 42 d.length = d ∧
      exec (.udpRx ip d) s = .next (s.after (some (.notify .portUnreach)) 0#16
        [.icmpUnreach (before ++ d) ip .portUnreachable] b n)

/-- R193, R195, R196: UDP_TX builds the datagram (ports, length, checksum over the pseudo-header and the datagram with a zero
field, payload), whatever PORTS holds, and hands it to IP_TX with protocol 17, which sends its fragments; a BUF_CAP that
holds the payload but not the datagram's first fragment makes FBUF fail with FAIL_BUF before anything has left (R181, R182). -/
def Obligations.UdpTxBuildsAndSends : Prop :=
  ∀ (ip : IpAddr) (sport dport : Half) (p : Bytes) (s : State), s.configLegal = true → p.length ≤ 65507 →
    42 + p.length ≤ s.caps.buf →
    (42 + min (s.mtu.toNat - 20) (8 + p.length) ≤ s.caps.buf →
      ∃ (u : Bytes) (b c : Buffer) (n : Nat),
        u = bytesOf 2 sport.toNat ++ bytesOf 2 dport.toNat ++ bytesOf 2 (8 + p.length) ++
          bytesOf 2 (csum16 (bytesOf 4 s.ifIp.toNat ++ bytesOf 4 ip.toNat ++ [0x00#8, 0x11#8] ++
            bytesOf 2 (8 + p.length) ++ Wire.zeroField u 6)) ++ p ∧
        u = Wire.udpDatagram s.ifIp ip sport dport p ∧ b.window = u ∧
        exec (.udpTx ip sport dport p) s = .next
          { s.after none 0#16 ((Wire.fragments (s.mtu.toNat - 20) s.ipTtlDefault s.ifIp ip 17#8 s.ipId u).map
              fun d => .arp d ip) b n with
            fbuf := c
            ipId := s.ipId + 1#16 }) ∧
    (s.caps.buf < 42 + min (s.mtu.toNat - 20) (8 + p.length) →
      ∃ (b : Buffer) (n : Nat),
        exec (.udpTx ip sport dport p) s = .next (s.after (some (.fail .buf)) 0#16 [] b n))

/-- R194: a payload over 65527 bytes is refused with FAIL_TOO_LONG by UDP_TX, one of 65508 to 65527 bytes by IP_TX; nothing is
emitted and CR.IP_ID stays.One of 65508 to 65527 bytes must fit BUF to reach IP_TX (log 18; NoRoomForThePayloadFails has the
others). -/
def Obligations.UdpTxRefusesLongPayloads : Prop :=
  ∀ (ip : IpAddr) (sport dport : Half) (p : Bytes) (s : State), 65507 < p.length →
    (65527 < p.length ∨ 42 + p.length ≤ s.caps.buf) →
    ∃ (b : Buffer) (n : Nat),
      exec (.udpTx ip sport dport p) s = .next (s.after (some (.fail .tooLong)) 0#16 [] b n)

/-- R197: a UDP datagram that UDP_TX on an engine with address A sent towards B, put together from the payloads of the
datagrams that left (one, if it fits one fragment), given to UDP_RX from A on an engine with address B and the
destination port open, delivers the payload, its length, A and the source port. -/
def Obligations.UdpRoundTrip : Prop :=
  ∀ (sport dport h : Half) (p : Bytes) (s r : State), s.configLegal = true → p.length ≤ 65507 →
    42 + p.length ≤ s.caps.buf → 42 + min (s.mtu.toNat - 20) (8 + p.length) ≤ s.caps.buf →
    42 + 8 + p.length ≤ r.caps.buf → r.ports.lookup dport = some h →
    ∃ (ds : List Bytes) (t : State) (b : Buffer) (n : Nat),
      exec (.udpTx r.ifIp sport dport p) s = .next t ∧
      t.trace = s.trace ++ ds.map (fun d => .event (.arp d r.ifIp)) ++ [.response 0#8 0#16] ∧
      (28 + p.length ≤ s.mtu.toNat → ds.length = 1) ∧
      exec (.udpRx s.ifIp (ds.map fun d => d.drop 20).flatten) r =
        .next (r.after none 0#16 [.handler h p (BitVec.ofNat 16 p.length) s.ifIp sport] b n)

/-- R159, R197, R236: from one engine to another over the wire. A payload that fits one fragment is sent by UDP_TX; address
resolution sends the datagram with ETH_TX; the frame, padding included, is given to ETH_RX of an engine that has the
addressed interface, the boot registrations and the port open; and the port's handler gets the payload. -/
def Obligations.WireRoundTrip : Prop :=
  ∀ (sport dport h : Half) (mac : MacAddr) (p : Bytes) (s r : State), s.configLegal = true →
    28 + p.length ≤ s.mtu.toNat → 42 + 28 + p.length ≤ s.caps.buf → 42 + 60 ≤ r.caps.buf → 42 + 42 + p.length ≤ r.caps.buf →
    r.dispatch.lookup 0x0800#16 = some 0x0001#16 → r.dispatch.lookup 17#16 = some 0x0002#16 →
    r.ports.lookup dport = some h →
    ∃ (d f : Bytes) (s1 s2 : State) (b : Buffer) (n : Nat),
      exec (.udpTx r.ifIp sport dport p) s = .next s1 ∧
      s1.trace = s.trace ++ [.event (.arp d r.ifIp), .response 0#8 0#16] ∧
      exec (.ethTx mac 0x0800#16 d) s1 = .next s2 ∧
      s2.trace = s1.trace ++ [.event (.drvTx f), .response s2.status 0#16] ∧
      exec (.ethRx f) r = .next (r.after none 0#16 [.handler h p (BitVec.ofNat 16 p.length) s.ifIp sport] b n)

end
end

