-- ==== Sys2Proof/Laws/Bytes.lean ====
section
/-!
SUPPORT. Byte strings and their numbers: lengths, and `beNat` and `bytesOf` as inverses of each other.
-/
namespace Sys2Proof

@[simp] theorem length_bytesOf (n v : Nat) : (bytesOf n v).length = n := by
  induction n generalizing v with
  | zero => rfl
  | succ n ih => simp [bytesOf, ih]

@[simp] theorem length_zeros (n : Nat) : (zeros n).length = n := by simp [zeros]

@[simp] theorem beNat_nil : beNat [] = 0 := rfl

@[simp] theorem beNat_snoc (bs : Bytes) (b : Byte) : beNat (bs ++ [b]) = beNat bs * 256 + b.toNat := by
  simp [beNat, List.foldl_append]

@[simp] theorem beNat_singleton (b : Byte) : beNat [b] = b.toNat := by simp [beNat]

theorem beNat_append (as bs : Bytes) : beNat (as ++ bs) = beNat as * 256 ^ bs.length + beNat bs := by
  induction bs using List.reverseRecOn with
  | nil => simp
  | append_singleton bs b ih =>
    rw [← List.append_assoc, beNat_snoc, beNat_snoc, ih, List.length_append, List.length_singleton, pow_succ]
    ring

theorem beNat_lt (bs : Bytes) : beNat bs < 256 ^ bs.length := by
  induction bs using List.reverseRecOn with
  | nil => simp
  | append_singleton bs b ih =>
    rw [beNat_snoc, List.length_append, List.length_singleton, pow_succ]
    have := b.isLt
    omega

@[simp] theorem beNat_bytesOf (n v : Nat) : beNat (bytesOf n v) = v % 256 ^ n := by
  induction n generalizing v with
  | zero => simp [bytesOf, Nat.mod_one]
  | succ n ih =>
    have h : v % 256 ^ (n + 1) = v % 256 + 256 * (v / 256 % 256 ^ n) := by
      rw [pow_succ, Nat.mul_comm (256 ^ n) 256, Nat.mod_mul]
    rw [bytesOf, beNat_snoc, ih, BitVec.toNat_ofNat, h]
    omega

theorem bytesOf_beNat (bs : Bytes) : bytesOf bs.length (beNat bs) = bs := by
  induction bs using List.reverseRecOn with
  | nil => rfl
  | append_singleton bs b ih =>
    have hb := b.isLt
    rw [List.length_append, List.length_singleton, bytesOf, beNat_snoc]
    have h1 : (beNat bs * 256 + b.toNat) / 256 = beNat bs := by omega
    have h2 : BitVec.ofNat 8 (beNat bs * 256 + b.toNat) = b := by
      apply BitVec.eq_of_toNat_eq
      rw [BitVec.toNat_ofNat]
      omega
    rw [h1, h2, ih]

/-- Byte strings of one length are equal when their numbers are. -/
theorem beNat_inj {as bs : Bytes} (hl : as.length = bs.length) (h : beNat as = beNat bs) : as = bs := by
  rw [← bytesOf_beNat as, ← bytesOf_beNat bs, hl, h]

theorem bytesOf_mod (n v : Nat) : bytesOf n (v % 256 ^ n) = bytesOf n v := by
  apply beNat_inj <;> simp

/-- Byte `i` of `bytesOf n v`, most significant first (R11). -/
theorem getElem_bytesOf (n v i : Nat) (h : i < (bytesOf n v).length) :
    (bytesOf n v)[i] = BitVec.ofNat 8 (v / 256 ^ (n - 1 - i)) := by
  induction n generalizing v with
  | zero => simp [bytesOf] at h
  | succ n ih =>
    simp only [length_bytesOf] at h
    simp only [bytesOf]
    by_cases hi : i < n
    · rw [List.getElem_append_left (by simpa using hi), ih, Nat.div_div_eq_div_mul]
      congr 2
      have : n + 1 - 1 - i = (n - 1 - i) + 1 := by omega
      rw [this, pow_succ, Nat.mul_comm]
    · have : i = n := by omega
      subst this
      simp

/-! ### Fields of a longer string -/

theorem beAt_append_left (as bs : Bytes) (off n : Nat) (h : off + n ≤ as.length) :
    beAt (as ++ bs) off n = beAt as off n := by
  unfold beAt
  rw [List.drop_append_of_le_length (by omega), List.take_append_of_le_length (by simp; omega)]

theorem beAt_append_right (as bs : Bytes) (off n : Nat) (h : as.length ≤ off) :
    beAt (as ++ bs) off n = beAt bs (off - as.length) n := by
  unfold beAt
  rw [List.drop_append, List.drop_of_length_le h]
  simp

theorem beAt_append_exact (as bs cs : Bytes) : beAt (as ++ bs ++ cs) as.length bs.length = beNat bs := by
  simp [beAt]

theorem and_digit (a b c d : Nat) (hb : b < 256) (hd : d < 256) :
    (a * 256 + b) &&& (c * 256 + d) = (a &&& c) * 256 + (b &&& d) := by
  have e : ∀ x y : Nat, y < 256 → x * 256 + y = 2 ^ 8 * x + y := fun x y _ => by ring
  have hbd : b &&& d < 2 ^ 8 := Nat.and_lt_two_pow _ hd
  apply Nat.eq_of_testBit_eq
  intro i
  rw [Nat.testBit_and, e _ _ hb, e _ _ hd, e _ _ hbd, Nat.testBit_two_pow_mul_add _ hb, Nat.testBit_two_pow_mul_add _ hd,
    Nat.testBit_two_pow_mul_add _ hbd]
  split <;> simp [Nat.testBit_and]

/-- Masking a number is masking its bytes. -/
theorem beNat_and (xs ms : Bytes) (h : xs.length = ms.length) :
    beNat xs &&& beNat ms = beNat (List.zipWith (· &&& ·) xs ms) := by
  induction xs using List.reverseRecOn generalizing ms with
  | nil => simp
  | append_singleton xs b ih =>
    rcases List.eq_nil_or_concat ms with rfl | ⟨ms, m, rfl⟩
    · simp at h
    · simp only [List.concat_eq_append, List.length_append, List.length_cons, List.length_nil] at h
      rw [List.concat_eq_append, List.zipWith_append (by omega), beNat_snoc, beNat_snoc,
        and_digit _ _ _ _ b.isLt m.isLt, ih ms (by omega)]
      simp

end Sys2Proof
end

