-- ==== Sys2Proof/Laws/Memory.lean ====
section
/-!
SUPPORT. Memory and tables: a read after a write, what a write leaves alone, and that every operation keeps the
canonical form.
-/
namespace Sys2Proof.Machine

/-! ### Memory -/

theorem Memory.get_set (m : Memory) (x y : Nat) (v : Byte) :
    (m.set x v).get y = if y = x then some v else m.get y := by
  induction m with
  | nil => simp [Memory.set, Memory.get]
  | cons c m ih =>
    obtain ⟨a, b⟩ := c
    simp only [Memory.set]
    split
    · simp [Memory.get]
    · split
      · subst a; by_cases h : y = x <;> simp [Memory.get, h]
      · by_cases h : y = a
        · subst h; simp [Memory.get]; omega
        · simp [Memory.get, h, ih]

@[simp] theorem Memory.get_set_self (m : Memory) (x : Nat) (v : Byte) : (m.set x v).get x = some v := by
  simp [Memory.get_set]

theorem Memory.get_set_of_ne (m : Memory) {x y : Nat} (v : Byte) (h : y ≠ x) : (m.set x v).get y = m.get y := by
  simp [Memory.get_set, h]

theorem Memory.get_setBytes (m : Memory) (x y : Nat) (vs : Bytes) :
    (m.setBytes x vs).get y = if h : x ≤ y ∧ y < x + vs.length then some (vs[y - x]'(by omega)) else m.get y := by
  induction vs generalizing m x with
  | nil => simp [Memory.setBytes]
  | cons v vs ih =>
    simp only [Memory.setBytes, ih, Memory.get_set, List.length_cons]
    by_cases h1 : x + 1 ≤ y ∧ y < x + 1 + vs.length
    · have h2 : x ≤ y ∧ y < x + (vs.length + 1) := by omega
      rw [dif_pos h1, dif_pos h2]
      congr 1
      have : y - x = (y - (x + 1)) + 1 := by omega
      simp only [this, List.getElem_cons_succ]
    · rw [dif_neg h1]
      by_cases h3 : y = x
      · subst h3
        simp
      · have h2 : ¬ (x ≤ y ∧ y < x + (vs.length + 1)) := by omega
        rw [dif_neg h2, if_neg h3]

theorem Memory.get_ofBytes (x y : Nat) (vs : Bytes) :
    (Memory.ofBytes x vs).get y = if h : x ≤ y ∧ y < x + vs.length then some (vs[y - x]'(by omega)) else none := by
  induction vs generalizing x with
  | nil => simp [Memory.ofBytes, Memory.get]
  | cons v vs ih =>
    simp only [Memory.ofBytes, Memory.get, ih, List.length_cons]
    by_cases h3 : y = x
    · subst h3
      simp
    · rw [if_neg h3]
      by_cases h1 : x + 1 ≤ y ∧ y < x + 1 + vs.length
      · have h2 : x ≤ y ∧ y < x + (vs.length + 1) := by omega
        rw [dif_pos h1, dif_pos h2]
        congr 1
        have : y - x = (y - (x + 1)) + 1 := by omega
        simp only [this, List.getElem_cons_succ]
      · have h2 : ¬ (x ≤ y ∧ y < x + (vs.length + 1)) := by omega
        rw [dif_neg h1, dif_neg h2]

theorem Memory.mem_set {m : Memory} {x : Nat} {v : Byte} {c : Host.Cell} (h : c ∈ m.set x v) :
    c = (x, v) ∨ c ∈ m := by
  induction m with
  | nil => simpa [Memory.set] using h
  | cons d m ih =>
    obtain ⟨a, b⟩ := d
    simp only [Memory.set] at h
    split at h
    · simpa using h
    · split at h
      · rcases List.mem_cons.1 h with h | h <;> simp [h]
      · rcases List.mem_cons.1 h with h | h
        · simp [h]
        · rcases ih h with h | h <;> simp [h]

theorem Memory.set_wf {m : Memory} (h : m.wf) (x : Nat) (v : Byte) : (m.set x v).wf := by
  induction m with
  | nil => simp [Memory.set, Memory.wf]
  | cons c m ih =>
    obtain ⟨a, b⟩ := c
    have h' : (∀ d ∈ m, a < d.1) ∧ Memory.wf m := List.pairwise_cons.1 h
    simp only [Memory.set]
    split
    · rename_i hx
      refine List.pairwise_cons.2 ⟨?_, h⟩
      intro d hd
      rcases List.mem_cons.1 hd with rfl | hd
      · exact hx
      · exact lt_trans hx (h'.1 d hd)
    · split
      · rename_i hx
        subst hx
        exact List.pairwise_cons.2 ⟨h'.1, h'.2⟩
      · refine List.pairwise_cons.2 ⟨?_, ih h'.2⟩
        intro d hd
        rcases Memory.mem_set hd with rfl | hd
        · simp only; omega
        · exact h'.1 d hd

theorem Memory.setBytes_wf {m : Memory} (h : m.wf) (x : Nat) (vs : Bytes) : (m.setBytes x vs).wf := by
  induction vs generalizing m x with
  | nil => exact h
  | cons v vs ih => exact ih (Memory.set_wf h x v) (x + 1)

theorem Memory.mem_setBytes {m : Memory} {x : Nat} {vs : Bytes} {c : Host.Cell} (h : c ∈ m.setBytes x vs) :
    c ∈ m ∨ (x ≤ c.1 ∧ c.1 < x + vs.length) := by
  induction vs generalizing m x with
  | nil => exact .inl h
  | cons v vs ih =>
    rcases ih h with h | h
    · rcases Memory.mem_set h with rfl | h
      · right; simp
      · exact .inl h
    · right; simp only [List.length_cons]; omega

theorem Memory.mem_ofBytes {x : Nat} {vs : Bytes} {c : Host.Cell} (h : c ∈ Memory.ofBytes x vs) :
    x ≤ c.1 ∧ c.1 < x + vs.length := by
  induction vs generalizing x with
  | nil => simp [Memory.ofBytes] at h
  | cons v vs ih =>
    rcases List.mem_cons.1 h with rfl | h
    · simp
    · have := ih h
      simp only [List.length_cons]; omega

theorem Memory.ofBytes_wf (x : Nat) (vs : Bytes) : (Memory.ofBytes x vs).wf := by
  induction vs generalizing x with
  | nil => exact List.Pairwise.nil
  | cons v vs ih =>
    refine List.pairwise_cons.2 ⟨?_, ih (x + 1)⟩
    intro d hd
    have := Memory.mem_ofBytes hd
    simp only; omega

/-- Canonical memories that hold the same bytes are equal. -/
theorem Memory.ext_get {m n : Memory} (hm : m.wf) (hn : n.wf) (h : ∀ x, m.get x = n.get x) : m = n := by
  have get_none : ∀ (k : Memory) (x : Nat), (∀ d ∈ k, x < d.1) → k.get x = none := by
    intro k x hk
    induction k with
    | nil => rfl
    | cons d k ih =>
      obtain ⟨a, b⟩ := d
      have h1 : x < a := hk (a, b) (by simp)
      simp only [Memory.get]
      rw [if_neg (by omega)]
      exact ih fun d hd => hk d (by simp [hd])
  induction m generalizing n with
  | nil =>
    cases n with
    | nil => rfl
    | cons d n => have := h d.1; simp [Memory.get] at this
  | cons c m ih =>
    obtain ⟨a, b⟩ := c
    have hm' : (∀ d ∈ m, a < d.1) ∧ Memory.wf m := List.pairwise_cons.1 hm
    cases n with
    | nil => have := h a; simp [Memory.get] at this
    | cons d n =>
      obtain ⟨a', b'⟩ := d
      have hn' : (∀ d ∈ n, a' < d.1) ∧ Memory.wf n := List.pairwise_cons.1 hn
      have haa : a = a' := by
        rcases Nat.lt_trichotomy a a' with hlt | heq | hgt
        · have := h a
          simp only [Memory.get, if_true] at this
          rw [if_neg (by omega), get_none n a fun d hd => lt_trans hlt (hn'.1 d hd)] at this
          cases this
        · exact heq
        · have := h a'
          simp only [Memory.get, if_true] at this
          rw [if_neg (by omega), get_none m a' fun d hd => lt_trans hgt (hm'.1 d hd)] at this
          cases this
      subst haa
      have hb := h a
      simp only [Memory.get, if_true, Option.some.injEq] at hb
      subst hb
      congr 1
      refine ih hm'.2 hn'.2 fun x => ?_
      by_cases hx : x = a
      · subst hx
        rw [get_none m x hm'.1, get_none n x hn'.1]
      · have := h x
        simpa [Memory.get, hx] using this

/-! ### Tables -/

theorem Table.lookup_insert (t : Table) (k x : Half) (v : Half) :
    (t.insert k v).lookup x = if x = k then some v else t.lookup x := by
  induction t with
  | nil => simp [Table.insert, Table.lookup]
  | cons e t ih =>
    obtain ⟨a, b⟩ := e
    simp only [Table.insert]
    split
    · simp [Table.lookup]
    · split
      · rename_i h; subst h
        by_cases h : x = k <;> simp [Table.lookup, h]
      · rename_i h
        by_cases hx : x = a
        · subst hx; simp [Table.lookup, Ne.symm h]
        · simp [Table.lookup, hx, ih]

theorem Table.mem_insert {t : Table} {k v : Half} {e : Half × Half} (h : e ∈ t.insert k v) : e = (k, v) ∨ e ∈ t := by
  induction t with
  | nil => simpa [Table.insert] using h
  | cons d t ih =>
    obtain ⟨a, b⟩ := d
    simp only [Table.insert] at h
    split at h
    · simpa using h
    · split at h
      · rcases List.mem_cons.1 h with h | h <;> simp [h]
      · rcases List.mem_cons.1 h with h | h
        · simp [h]
        · rcases ih h with h | h <;> simp [h]

theorem Table.insert_wf {t : Table} (h : t.wf) (k v : Half) : (t.insert k v).wf := by
  induction t with
  | nil => simp [Table.insert, Table.wf]
  | cons c t ih =>
    obtain ⟨a, b⟩ := c
    have h' : (∀ d ∈ t, a.toNat < d.1.toNat) ∧ Table.wf t := List.pairwise_cons.1 h
    simp only [Table.insert]
    split
    · rename_i hx
      refine List.pairwise_cons.2 ⟨?_, h⟩
      intro d hd
      rcases List.mem_cons.1 hd with rfl | hd
      · exact hx
      · exact lt_trans hx (h'.1 d hd)
    · split
      · rename_i hx
        subst hx
        exact List.pairwise_cons.2 ⟨h'.1, h'.2⟩
      · rename_i h1 h2
        refine List.pairwise_cons.2 ⟨?_, ih h'.2⟩
        intro d hd
        rcases Table.mem_insert hd with rfl | hd
        · have h3 : a.toNat ≠ k.toNat := fun h => h2 (BitVec.eq_of_toNat_eq h.symm)
          simp only; omega
        · exact h'.1 d hd

theorem Table.lookup_none_of_lt {t : Table} {k : Half} (h : ∀ d ∈ t, k.toNat < d.1.toNat) : t.lookup k = none := by
  induction t with
  | nil => rfl
  | cons c t ih =>
    obtain ⟨a, b⟩ := c
    have h1 : k.toNat < a.toNat := h (a, b) (by simp)
    have h2 : k ≠ a := fun h => by subst h; omega
    simp only [Table.lookup, if_neg h2]
    exact ih fun d hd => h d (by simp [hd])

/-- A registration adds one entry exactly when the key is new. -/
theorem Table.length_insert {t : Table} (h : t.wf) (k v : Half) :
    (t.insert k v).length = if t.lookup k = none then t.length + 1 else t.length := by
  induction t with
  | nil => simp [Table.insert, Table.lookup]
  | cons c t ih =>
    obtain ⟨a, b⟩ := c
    have h' : (∀ d ∈ t, a.toNat < d.1.toNat) ∧ Table.wf t := List.pairwise_cons.1 h
    simp only [Table.insert]
    split
    · rename_i hx
      have h1 : Table.lookup ((a, b) :: t) k = none := by
        apply Table.lookup_none_of_lt
        intro d hd
        rcases List.mem_cons.1 hd with rfl | hd
        · exact hx
        · exact lt_trans hx (h'.1 d hd)
      simp [h1]
    · split
      · rename_i hx
        subst hx
        simp [Table.lookup]
      · rename_i h1 h2
        simp only [List.length_cons, ih h'.2, Table.lookup, if_neg h2]
        split <;> rfl

theorem Table.erase_wf {t : Table} (h : t.wf) (k : Half) : (t.erase k).wf := List.Pairwise.filter _ h

theorem Table.lookup_erase (t : Table) (k x : Half) :
    (t.erase k).lookup x = if x = k then none else t.lookup x := by
  induction t with
  | nil => simp [Table.erase, Table.lookup]
  | cons c t ih =>
    obtain ⟨a, b⟩ := c
    simp only [Table.erase, List.filter_cons] at ih ⊢
    by_cases ha : a = k
    · subst ha
      simp only [bne_self_eq_false, Bool.false_eq_true, if_false]
      rw [ih]
      by_cases hx : x = a <;> simp [Table.lookup, hx]
    · have : (a != k) = true := by simpa using ha
      simp only [this, if_true]
      by_cases hx : x = a
      · subst hx; simp [Table.lookup, ha]
      · simp only [Table.lookup, if_neg hx, ih]

theorem Table.length_erase_le (t : Table) (k : Half) : (t.erase k).length ≤ t.length := List.length_filter_le _ _

/-- Canonical tables that map every key alike are equal. -/
theorem Table.erase_eq_self {t : Table} {k : Half} (h : t.lookup k = none) : t.erase k = t := by
  induction t with
  | nil => rfl
  | cons c t ih =>
    obtain ⟨a, b⟩ := c
    by_cases ha : k = a
    · simp [Table.lookup, ha] at h
    · simp only [Table.lookup, if_neg ha] at h
      have : (a != k) = true := by simpa using fun h => ha h.symm
      simp only [Table.erase, List.filter_cons, this, if_true]
      rw [show List.filter (fun e => e.1 != k) t = Table.erase t k from rfl, ih h]

@[simp] theorem Table.erase_erase (t : Table) (k : Half) : (t.erase k).erase k = t.erase k := by
  simp [Table.erase]

/-- Everything a registration can do (R152, R153, R200 to R202). -/
theorem Table.register_cases (cap : Nat) (t : Table) (key hnd : Half) :
    (t.lookup key = none ∧ t.length = cap ∧ t.register cap key hnd = none) ∨
    (¬ (t.lookup key = none ∧ t.length = cap) ∧ t.register cap key hnd = some (t.insert key hnd)) := by
  unfold Table.register
  by_cases h : t.lookup key = none ∧ t.length = cap
  · exact .inl ⟨h.1, h.2, if_pos h⟩
  · exact .inr ⟨h, if_neg h⟩

end Sys2Proof.Machine
end

