-- ==== Sys2Proof/Laws/Buffer.lean ====
section
/-!
SUPPORT. The Buffer primitives of 20_memory.md: what bytes a Buffer shows after each, in terms of backing indexes, and
that each keeps the Buffer's bounds.
-/
namespace Sys2Proof.Machine

/-! ### Bytes by backing index -/

@[simp] theorem Buffer.length_bytesFrom (b : Buffer) (a n : Nat) : (b.bytesFrom a n).length = n := by
  simp [Buffer.bytesFrom]

@[simp] theorem Buffer.length_window (b : Buffer) : b.window.length = b.len := by simp [Buffer.window]

@[simp] theorem Buffer.getElem_bytesFrom (b : Buffer) (a n i : Nat) (h : i < (b.bytesFrom a n).length) :
    (b.bytesFrom a n)[i] = b.byteAt (a + i) := by
  simp [Buffer.bytesFrom]

@[simp] theorem Buffer.bytesFrom_zero (b : Buffer) (a : Nat) : b.bytesFrom a 0 = [] := rfl

theorem Buffer.bytesFrom_add (b : Buffer) (a n m : Nat) :
    b.bytesFrom a (n + m) = b.bytesFrom a n ++ b.bytesFrom (a + n) m := by
  apply List.ext_getElem
  · simp
  · intro i h1 h2
    simp only [Buffer.length_bytesFrom] at h1
    by_cases hi : i < n
    · rw [List.getElem_append_left (by simpa using hi)]
      simp
    · rw [List.getElem_append_right (by simp; omega)]
      simp only [Buffer.getElem_bytesFrom, Buffer.length_bytesFrom]
      congr 1; omega

theorem Buffer.take_bytesFrom (b : Buffer) (a n k : Nat) : (b.bytesFrom a n).take k = b.bytesFrom a (min k n) := by
  apply List.ext_getElem <;> simp

theorem Buffer.drop_bytesFrom (b : Buffer) (a n k : Nat) : (b.bytesFrom a n).drop k = b.bytesFrom (a + k) (n - k) := by
  apply List.ext_getElem
  · simp
  · intro i h1 h2
    simp [Nat.add_assoc]

theorem Buffer.bytesFrom_congr {b c : Buffer} {a n : Nat} (h : ∀ x, a ≤ x → x < a + n → b.byteAt x = c.byteAt x) :
    b.bytesFrom a n = c.bytesFrom a n := by
  apply List.ext_getElem
  · simp
  · intro i h1 h2
    simp only [Buffer.length_bytesFrom] at h1
    simp only [Buffer.getElem_bytesFrom]
    exact h (a + i) (by omega) (by omega)

/-- The slice of the window that `MemRead(off, n)` reads. -/
theorem Buffer.slice_window (b : Buffer) (off n : Nat) (h : off + n ≤ b.len) :
    (b.window.drop off).take n = b.bytesFrom (b.start + off) n := by
  rw [Buffer.window, Buffer.drop_bytesFrom, Buffer.take_bytesFrom, Nat.min_eq_left (by omega)]

theorem Buffer.beAt_window (b : Buffer) (off n : Nat) (h : off + n ≤ b.len) :
    beAt b.window off n = beNat (b.bytesFrom (b.start + off) n) := by
  rw [beAt, Buffer.slice_window b off n h]

theorem Buffer.take_window (b : Buffer) {n : Nat} (h : n ≤ b.len) : b.window.take n = b.bytesFrom b.start n := by
  rw [Buffer.window, Buffer.take_bytesFrom, Nat.min_eq_left h]

/-- A field inside a prefix is read from the prefix. -/
theorem beAt_take (bs : Bytes) (off n k : Nat) (h : off + n ≤ k) : beAt (bs.take k) off n = beAt bs off n := by
  unfold beAt
  rw [List.drop_take, List.take_take, Nat.min_eq_left (by omega)]

/-! ### Stored bytes -/

theorem Buffer.byteAt_setBytes (b : Buffer) (x y : Nat) (vs : Bytes) :
    ({ b with data := b.data.setBytes x vs } : Buffer).byteAt y =
      if h : x ≤ y ∧ y < x + vs.length then vs[y - x]'(by omega) else b.byteAt y := by
  unfold Buffer.byteAt
  simp only [Memory.get_setBytes]
  split <;> rfl

theorem Buffer.byteAt_setBytes_of_not_mem (b : Buffer) {x y : Nat} {vs : Bytes} (h : ¬ (x ≤ y ∧ y < x + vs.length)) :
    ({ b with data := b.data.setBytes x vs } : Buffer).byteAt y = b.byteAt y := by
  rw [Buffer.byteAt_setBytes, dif_neg h]

theorem Buffer.bytesFrom_setBytes_self (b : Buffer) (x : Nat) (vs : Bytes) :
    ({ b with data := b.data.setBytes x vs } : Buffer).bytesFrom x vs.length = vs := by
  apply List.ext_getElem
  · simp
  · intro i h1 h2
    rw [Buffer.getElem_bytesFrom, Buffer.byteAt_setBytes, dif_pos (by omega)]
    congr 1; omega

theorem Buffer.bytesFrom_setBytes_disjoint (b : Buffer) (x : Nat) (vs : Bytes) (a n : Nat)
    (h : a + n ≤ x ∨ x + vs.length ≤ a) :
    ({ b with data := b.data.setBytes x vs } : Buffer).bytesFrom a n = b.bytesFrom a n := by
  apply Buffer.bytesFrom_congr
  intro y h1 h2
  exact Buffer.byteAt_setBytes_of_not_mem b (by omega)

/-- Two byte strings stored one after the other are one. -/
theorem Memory.setBytes_append (m : Memory) (x : Nat) (vs ws : Bytes) :
    m.setBytes x (vs ++ ws) = (m.setBytes x vs).setBytes (x + vs.length) ws := by
  induction vs generalizing m x with
  | nil => rfl
  | cons v vs ih =>
    simp only [List.cons_append, Memory.setBytes, ih, List.length_cons]
    congr 1; omega

/-! ### One lemma for each primitive: everything it can do -/

/-- `buf_load` (R62). -/
theorem Buffer.load_cases (cap epoch : Nat) (bytes : Bytes) :
    (cap < 42 + bytes.length ∧ Buffer.load cap epoch bytes = none) ∨
    (42 + bytes.length ≤ cap ∧ Buffer.load cap epoch bytes =
      some { data := Memory.ofBytes 42 bytes, start := 42, len := bytes.length, epoch := epoch }) := by
  unfold Buffer.load Config.bufHeadroom
  by_cases h : 42 + bytes.length ≤ cap
  · exact .inr ⟨h, if_pos h⟩
  · exact .inl ⟨by omega, if_neg h⟩

/-- The Buffer right after `buf_load(bytes)` as draw `epoch` (R62). -/
def Buffer.loaded (epoch : Nat) (bytes : Bytes) : Buffer :=
  { data := Memory.ofBytes 42 bytes, start := 42, len := bytes.length, epoch := epoch }

@[simp] theorem Buffer.loaded_start (e : Nat) (p : Bytes) : (Buffer.loaded e p).start = 42 := rfl
@[simp] theorem Buffer.loaded_len (e : Nat) (p : Bytes) : (Buffer.loaded e p).len = p.length := rfl
@[simp] theorem Buffer.loaded_epoch (e : Nat) (p : Bytes) : (Buffer.loaded e p).epoch = e := rfl
@[simp] theorem Buffer.loaded_data (e : Nat) (p : Bytes) : (Buffer.loaded e p).data = Memory.ofBytes 42 p := rfl

theorem Buffer.load_of_fits {cap epoch : Nat} {bytes : Bytes} (h : 42 + bytes.length ≤ cap) :
    Buffer.load cap epoch bytes = some (Buffer.loaded epoch bytes) := if_pos h

theorem Buffer.load_of_not_fits {cap epoch : Nat} {bytes : Bytes} (h : cap < 42 + bytes.length) :
    Buffer.load cap epoch bytes = none := if_neg (by simp; omega)

theorem Buffer.byteAt_loaded (e : Nat) (p : Bytes) (y : Nat) :
    (Buffer.loaded e p).byteAt y =
      if h : 42 ≤ y ∧ y < 42 + p.length then p[y - 42]'(by omega) else Config.freeByte e y := by
  unfold Buffer.byteAt
  simp only [Buffer.loaded_data, Memory.get_ofBytes, Buffer.loaded_epoch]
  split <;> rfl

theorem Buffer.bytesFrom_loaded (e : Nat) (p : Bytes) : (Buffer.loaded e p).bytesFrom 42 p.length = p := by
  apply List.ext_getElem
  · simp
  · intro i h1 h2
    rw [Buffer.getElem_bytesFrom, Buffer.byteAt_loaded, dif_pos (by omega)]
    congr 1; omega

@[simp] theorem Buffer.window_loaded (e : Nat) (p : Bytes) : (Buffer.loaded e p).window = p :=
  Buffer.bytesFrom_loaded e p

/-- `MemRead` inside the window (R66). -/
theorem Buffer.memRead_of_le {b : Buffer} {off n : Nat} (h : off + n ≤ b.len) :
    b.memRead off n = some (beAt b.window off n) := by
  rw [Buffer.beAt_window b off n h]
  exact if_pos h

/-- `MemWrite` inside the window (R67). -/
theorem Buffer.memWrite_of_le {b : Buffer} {off n : Nat} (v : Nat) (h : off + n ≤ b.len) :
    b.memWrite off n v = some { b with data := b.data.setBytes (b.start + off) (bytesOf n v) } := if_pos h

/-- The same bytes behind another window (R63, R64, R68). -/
def Buffer.slide (b : Buffer) (start len : Nat) : Buffer := { b with start := start, len := len }

@[simp] theorem Buffer.slide_start (b : Buffer) (x n : Nat) : (b.slide x n).start = x := rfl
@[simp] theorem Buffer.slide_len (b : Buffer) (x n : Nat) : (b.slide x n).len = n := rfl
@[simp] theorem Buffer.slide_data (b : Buffer) (x n : Nat) : (b.slide x n).data = b.data := rfl
@[simp] theorem Buffer.slide_epoch (b : Buffer) (x n : Nat) : (b.slide x n).epoch = b.epoch := rfl
@[simp] theorem Buffer.slide_byteAt (b : Buffer) (x n a : Nat) : (b.slide x n).byteAt a = b.byteAt a := rfl
@[simp] theorem Buffer.slide_bytesFrom (b : Buffer) (x n a m : Nat) :
    (b.slide x n).bytesFrom a m = b.bytesFrom a m := rfl
theorem Buffer.slide_window (b : Buffer) (x n : Nat) : (b.slide x n).window = b.bytesFrom x n := rfl

/-- `buf_remove_header` inside the window (R63). -/
theorem Buffer.removeHeader_of_le {b : Buffer} {n : Nat} (h : n ≤ b.len) :
    b.removeHeader n = some (b.slide (b.start + n) (b.len - n)) := if_pos h

/-- `buf_add_header` inside the headroom (R64). -/
theorem Buffer.addHeader_of_le {b : Buffer} {n : Nat} (h : n ≤ b.start) :
    b.addHeader n = some (b.slide (b.start - n) (b.len + n)) := if_pos h

/-- `buf_remove_padding` inside the window (R68). -/
theorem Buffer.removePadding_of_le {b : Buffer} {n : Nat} (h : n ≤ b.len) :
    b.removePadding n = some (b.slide b.start (b.len - n)) := if_pos h

/-- The bytes of a header's fields in order. -/
def fieldBytes (fields : List (Nat × Nat × Nat)) : Bytes := fields.flatMap fun f => bytesOf f.2.1 f.2.2

/-- Fields that follow one another from offset `off` on. -/
def contiguous : Nat → List (Nat × Nat × Nat) → Bool
  | _, [] => true
  | off, (o, n, _) :: fields => o == off && contiguous (off + n) fields

/-- Writing contiguous fields is one store (R98). -/
theorem Buffer.memWrites_contiguous {fields : List (Nat × Nat × Nat)} {off : Nat} {b : Buffer}
    (hc : contiguous off fields = true) (h : off + (fieldBytes fields).length ≤ b.len) :
    Buffer.memWrites fields b = some { b with data := b.data.setBytes (b.start + off) (fieldBytes fields) } := by
  induction fields generalizing off b with
  | nil => rfl
  | cons f fields ih =>
    obtain ⟨o, n, v⟩ := f
    simp only [contiguous, Bool.and_eq_true, beq_iff_eq] at hc
    obtain ⟨rfl, hc⟩ := hc
    have hl : (fieldBytes ((o, n, v) :: fields)).length = n + (fieldBytes fields).length := by
      simp [fieldBytes]
    rw [hl] at h
    rw [Buffer.memWrites, Buffer.memWrite_of_le v (by omega)]
    simp only [Option.bind_some]
    rw [ih (off := o + n) hc (by simp only; omega)]
    have : fieldBytes ((o, n, v) :: fields) = bytesOf n v ++ fieldBytes fields := rfl
    rw [this, Memory.setBytes_append, length_bytesOf]
    simp only [Nat.add_assoc]

end Sys2Proof.Machine
end

