-- ==== Sys2Proof/Laws/Checksum.lean ====
section
/-!
SUPPORT. The checksum: bounds, the closed form of the carry fold (40_checksum.md R133), and how the word sum splits.
-/
namespace Sys2Proof.Machine

theorem foldRounds_lt {k sum : Nat} (h : sum ≤ k) : foldRounds k sum < 65536 := by
  induction k generalizing sum with
  | zero => simp [foldRounds]; omega
  | succ k ih =>
    simp only [foldRounds]
    split
    · apply ih; omega
    · omega

theorem foldCarries_lt (sum : Nat) : foldCarries sum < 65536 := foldRounds_lt (le_refl sum)

theorem csum16_le (bs : Bytes) : csum16 bs ≤ 65535 := Nat.sub_le _ _

theorem foldRounds_mod (k sum : Nat) : foldRounds k sum % 65535 = sum % 65535 := by
  induction k generalizing sum with
  | zero => rfl
  | succ k ih =>
    simp only [foldRounds]
    split
    · rw [ih]; omega
    · rfl

theorem foldRounds_eq_zero (k sum : Nat) : foldRounds k sum = 0 ↔ sum = 0 := by
  induction k generalizing sum with
  | zero => rfl
  | succ k ih =>
    simp only [foldRounds]
    split
    · rw [ih]; omega
    · rfl

/-- The folded sum is the sum modulo 65535, with 65535 in the place of 0 for a sum that is not 0. -/
theorem foldCarries_eq_of {sum x : Nat} (h1 : x < 65536) (h2 : x % 65535 = sum % 65535) (h3 : x = 0 ↔ sum = 0) :
    foldCarries sum = x := by
  have a := foldCarries_lt sum
  have b : foldCarries sum % 65535 = sum % 65535 := foldRounds_mod sum sum
  have c : foldCarries sum = 0 ↔ sum = 0 := foldRounds_eq_zero sum sum
  omega

theorem wordSum_append_even (as bs : Bytes) (h : as.length % 2 = 0) : wordSum (as ++ bs) = wordSum as + wordSum bs := by
  induction as using wordSum.induct with
  | case1 => simp [wordSum]
  | case2 b => simp at h
  | case3 a b rest ih =>
    simp only [List.length_cons] at h
    simp only [List.cons_append, wordSum, ih (by omega)]
    omega

theorem wordSum_eq_zero (bs : Bytes) : wordSum bs = 0 ↔ ∀ b ∈ bs, b = 0#8 := by
  have z : ∀ b : Byte, b.toNat = 0 ↔ b = 0#8 := fun b =>
    ⟨fun h => BitVec.eq_of_toNat_eq (by simpa using h), fun h => by simp [h]⟩
  induction bs using wordSum.induct with
  | case1 => simp [wordSum]
  | case2 b => simp [wordSum, z]
  | case3 a b rest ih =>
    simp only [wordSum, Nat.add_eq_zero_iff, ih, List.mem_cons, forall_eq_or_imp, Nat.mul_eq_zero, z, and_assoc]
    simp

/-- Two ranges whose word sums agree modulo 65535 and are not zero have one checksum. -/
theorem csum16_congr {as bs : Bytes} (h : wordSum as % 65535 = wordSum bs % 65535)
    (hz : wordSum as = 0 ↔ wordSum bs = 0) : csum16 as = csum16 bs := by
  unfold csum16
  have b : foldCarries (wordSum bs) % 65535 = wordSum bs % 65535 := foldRounds_mod _ _
  have c : foldCarries (wordSum bs) = 0 ↔ wordSum bs = 0 := foldRounds_eq_zero _ _
  rw [foldCarries_eq_of (foldCarries_lt (wordSum bs)) (by omega) (by omega)]

theorem csum16_congr_wordSum {as bs : Bytes} (h : wordSum as = wordSum bs) : csum16 as = csum16 bs := by
  simp [csum16, h]

@[simp] theorem length_pseudoHeader (s d : IpAddr) (l : Nat) : (pseudoHeader s d l).length = 12 := by
  simp [pseudoHeader]

end Sys2Proof.Machine

namespace Sys2Proof.Wire
open Sys2Proof.Machine

@[simp] theorem length_ethHeader (d s : MacAddr) (p : Half) : (ethHeader d s p).length = 14 := by simp [ethHeader]

@[simp] theorem Ipv4.length_headerWith (h : Ipv4) (c : Nat) : (h.headerWith c).length = 20 := by
  simp [Ipv4.headerWith]

@[simp] theorem Ipv4.length_header (h : Ipv4) : h.header.length = 20 := by simp [Ipv4.header]

@[simp] theorem length_udpHeaderWith (s d : Half) (l c : Nat) : (udpHeaderWith s d l c).length = 8 := by
  simp [udpHeaderWith]

@[simp] theorem length_udpDatagram (s d : IpAddr) (sp dp : Half) (p : Bytes) :
    (udpDatagram s d sp dp p).length = 8 + p.length := by
  simp [udpDatagram]

end Sys2Proof.Wire
end

