-- ==== Sys2Proof/Laws/PerInstr.lean ====
section
/-!
SUPPORT. Statements about every instruction as syntax. Family `Descriptor`: the decoder reads from the descriptor and the
payload of an instruction that instruction (30_encoding.md R105, R106).
-/
namespace Sys2Proof.Laws.Descriptor

/-- The descriptor of `i`, decoded with `i`'s payload, is `i`. -/
def Statement (i : Instr) : Prop := decodeDescriptor i.descriptor i.payload = .ok i

/-- How a descriptor decodes once its operation is known and its fixed bytes are right. -/
theorem decode_of {op : Opcode} {d p : Bytes} (h0 : Opcode.ofByte (d.getD 0 0#8) = some op)
    (h1 : op.flagsLegal (d.getD 1 0#8) = true) (h2 : (op.unusedBytes.any fun k => d.getD k 0#8 != 0#8) = false)
    (h3 : (op.noPayload && !p.isEmpty) = false) : decodeDescriptor d p = decodeOperands op d p := by
  unfold decodeDescriptor
  rw [h0]
  simp only [h1, h2, h3, Bool.not_true, Bool.false_eq_true, if_false]

theorem ofNat_beNat_bytesOf {w : Nat} (n : Nat) (v : BitVec w) (h : w = 8 * n) :
    BitVec.ofNat w (beNat (bytesOf n v.toNat)) = v := by
  apply BitVec.eq_of_toNat_eq
  have := v.isLt
  have e : 256 ^ n = 2 ^ w := by rw [h, pow_mul]; rfl
  rw [beNat_bytesOf, BitVec.toNat_ofNat, e]
  simp

theorem csum16 (p : Bytes) : Statement (.csum16 p) := decode_of (op := .csum16) rfl rfl rfl rfl

theorem ethRx (p : Bytes) : Statement (.ethRx p) := decode_of (op := .ethRx) rfl rfl rfl rfl

theorem ethTx (mac : MacAddr) (proto : Half) (p : Bytes) : Statement (.ethTx mac proto p) := by
  refine (decode_of (op := .ethTx) rfl rfl rfl rfl).trans ?_
  show Except.ok (Instr.ethTx (BitVec.ofNat 48 (beNat (bytesOf 6 mac.toNat)))
    (BitVec.ofNat 16 (beNat (bytesOf 2 proto.toNat))) p) = _
  rw [ofNat_beNat_bytesOf 6 mac rfl, ofNat_beNat_bytesOf 2 proto rfl]

theorem ethPoll : Statement .ethPoll := decode_of (op := .ethPoll) rfl rfl rfl rfl

theorem netRegister (key hnd : Half) : Statement (.netRegister key hnd) := by
  refine (decode_of (op := .netRegister) rfl rfl rfl rfl).trans ?_
  show Except.ok (Instr.netRegister (BitVec.ofNat 16 (beNat (bytesOf 2 key.toNat)))
    (BitVec.ofNat 16 (beNat (bytesOf 2 hnd.toNat)))) = _
  rw [ofNat_beNat_bytesOf 2 key rfl, ofNat_beNat_bytesOf 2 hnd rfl]

theorem netDispatch (src : Source) (proto : Half) (p : Bytes) : Statement (.netDispatch src proto p) := by
  cases src with
  | mac a =>
    refine (decode_of (op := .netDispatch) rfl rfl rfl rfl).trans ?_
    have hw : beAt (Instr.netDispatch (.mac a) proto p).descriptor 12 1 = 6 := rfl
    have ha : beAt (Instr.netDispatch (.mac a) proto p).descriptor 4 6 = beNat (bytesOf 6 a.toNat) := rfl
    have hk : beAt (Instr.netDispatch (.mac a) proto p).descriptor 10 2 = beNat (bytesOf 2 proto.toNat) := rfl
    unfold decodeOperands
    rw [if_pos hw, ha, hk, ofNat_beNat_bytesOf 6 a rfl, ofNat_beNat_bytesOf 2 proto rfl]
    rfl
  | ip a =>
    refine (decode_of (op := .netDispatch) rfl rfl rfl rfl).trans ?_
    have hw : beAt (Instr.netDispatch (.ip a) proto p).descriptor 12 1 = 4 := rfl
    have h8 : beAt (Instr.netDispatch (.ip a) proto p).descriptor 8 2 = 0 := rfl
    have ha : beAt (Instr.netDispatch (.ip a) proto p).descriptor 4 4 = beNat (bytesOf 4 a.toNat) := rfl
    have hk : beAt (Instr.netDispatch (.ip a) proto p).descriptor 10 2 = beNat (bytesOf 2 proto.toNat) := rfl
    unfold decodeOperands
    rw [hw, if_neg (by decide), if_pos rfl, if_pos h8, ha, hk, ofNat_beNat_bytesOf 4 a rfl,
      ofNat_beNat_bytesOf 2 proto rfl]
    rfl

theorem ipRx (mac : MacAddr) (p : Bytes) : Statement (.ipRx mac p) := by
  refine (decode_of (op := .ipRx) rfl rfl rfl rfl).trans ?_
  show Except.ok (Instr.ipRx (BitVec.ofNat 48 (beNat (bytesOf 6 mac.toNat))) p) = _
  rw [ofNat_beNat_bytesOf 6 mac rfl]

theorem ipFragEmit (ip : IpAddr) (proto : Byte) (ident off : Half) (mf : Bool) (p : Bytes) :
    Statement (.ipFragEmit ip proto ident off mf p) := by
  refine (decode_of (op := .ipFragEmit) rfl (by cases mf <;> rfl) rfl rfl).trans ?_
  have hm : (beNat [Instr.flagByte (.ipFragEmit ip proto ident off mf p)] == 1) = mf := by cases mf <;> rfl
  show Except.ok (Instr.ipFragEmit (BitVec.ofNat 32 (beNat (bytesOf 4 ip.toNat))) (BitVec.ofNat 8 (beNat [proto]))
    (BitVec.ofNat 16 (beNat (bytesOf 2 ident.toNat))) (BitVec.ofNat 16 (beNat (bytesOf 2 off.toNat)))
    (beNat [Instr.flagByte (.ipFragEmit ip proto ident off mf p)] == 1) p) = _
  rw [hm, ofNat_beNat_bytesOf 4 ip rfl, ofNat_beNat_bytesOf 2 ident rfl, ofNat_beNat_bytesOf 2 off rfl,
    beNat_singleton, BitVec.ofNat_toNat, BitVec.setWidth_eq]

theorem ipTx (ip : IpAddr) (proto : Byte) (p : Bytes) : Statement (.ipTx ip proto p) := by
  refine (decode_of (op := .ipTx) rfl rfl rfl rfl).trans ?_
  show Except.ok (Instr.ipTx (BitVec.ofNat 32 (beNat (bytesOf 4 ip.toNat))) (BitVec.ofNat 8 (beNat [proto])) p) = _
  rw [ofNat_beNat_bytesOf 4 ip rfl, beNat_singleton, BitVec.ofNat_toNat, BitVec.setWidth_eq]

theorem udpRx (ip : IpAddr) (p : Bytes) : Statement (.udpRx ip p) := by
  refine (decode_of (op := .udpRx) rfl rfl rfl rfl).trans ?_
  show Except.ok (Instr.udpRx (BitVec.ofNat 32 (beNat (bytesOf 4 ip.toNat))) p) = _
  rw [ofNat_beNat_bytesOf 4 ip rfl]

theorem udpTx (ip : IpAddr) (sport dport : Half) (p : Bytes) : Statement (.udpTx ip sport dport p) := by
  refine (decode_of (op := .udpTx) rfl rfl rfl rfl).trans ?_
  show Except.ok (Instr.udpTx (BitVec.ofNat 32 (beNat (bytesOf 4 ip.toNat)))
    (BitVec.ofNat 16 (beNat (bytesOf 2 sport.toNat))) (BitVec.ofNat 16 (beNat (bytesOf 2 dport.toNat))) p) = _
  rw [ofNat_beNat_bytesOf 4 ip rfl, ofNat_beNat_bytesOf 2 sport rfl, ofNat_beNat_bytesOf 2 dport rfl]

theorem udpOpen (key hnd : Half) : Statement (.udpOpen key hnd) := by
  refine (decode_of (op := .udpOpen) rfl rfl rfl rfl).trans ?_
  show Except.ok (Instr.udpOpen (BitVec.ofNat 16 (beNat (bytesOf 2 key.toNat)))
    (BitVec.ofNat 16 (beNat (bytesOf 2 hnd.toNat)))) = _
  rw [ofNat_beNat_bytesOf 2 key rfl, ofNat_beNat_bytesOf 2 hnd rfl]

theorem udpClose (key : Half) : Statement (.udpClose key) := by
  refine (decode_of (op := .udpClose) rfl rfl rfl rfl).trans ?_
  show Except.ok (Instr.udpClose (BitVec.ofNat 16 (beNat (bytesOf 2 key.toNat)))) = _
  rw [ofNat_beNat_bytesOf 2 key rfl]

end Sys2Proof.Laws.Descriptor
end

