-- ==== Sys2Proof/Laws/Decode.lean ====
section
/-!
SUPPORT. How the decoder takes a command apart: the framing by `LEN`, and that a descriptor it accepts is the descriptor
of the command it reads (30_encoding.md R105, R106, R108).
-/
namespace Sys2Proof

/-- A descriptor, its `LEN` payload bytes, and what follows. -/
theorem decode_framed (d p rest : Bytes) (hd : d.length = 16) (hp : p.length = beAt d 2 2) :
    decode (d ++ p ++ rest) =
      match decodeDescriptor d p with
      | .error why => .illegal why rest
      | .ok i => .command i rest := by
  have hlen : beAt (d ++ p ++ rest) 2 2 = p.length := by
    rw [List.append_assoc, beAt_append_left _ _ _ _ (by omega), hp]
  have htake : (d ++ p ++ rest).take 16 = d := by
    rw [List.append_assoc]
    exact List.take_left' hd
  have hdrop : (d ++ p ++ rest).drop 16 = p ++ rest := by
    rw [List.append_assoc]
    exact List.drop_left' hd
  unfold decode
  rewrite [hlen, htake, hdrop, if_neg (by simp only [List.length_append]; omega),
    if_neg (by simp only [List.length_append]; omega), List.take_left' rfl, List.drop_left' rfl]
  cases decodeDescriptor d p <;> rfl

/-- Bytes that hold a whole command are a descriptor, a payload of `LEN` bytes and the rest. -/
theorem framed_of_length {bs : Bytes} (h1 : 16 ≤ bs.length) (h2 : 16 + beAt bs 2 2 ≤ bs.length) :
    ∃ d p rest : Bytes, bs = d ++ p ++ rest ∧ d.length = 16 ∧ p.length = beAt d 2 2 ∧ beAt d 2 2 = beAt bs 2 2 := by
  have e : beAt (bs.take 16) 2 2 = beAt bs 2 2 := by
    unfold beAt
    rw [List.drop_take, List.take_take, Nat.min_eq_left (by omega)]
  refine ⟨bs.take 16, (bs.drop 16).take (beAt bs 2 2), (bs.drop 16).drop (beAt bs 2 2), ?_, ?_, ?_, e⟩
  · rw [List.append_assoc, List.take_append_drop, List.take_append_drop]
  · rw [List.length_take]; omega
  · rw [e, List.length_take, List.length_drop]; omega

theorem decode_incomplete_iff (bs : Bytes) :
    decode bs = .incomplete ↔ bs.length < 16 ∨ bs.length < 16 + beAt bs 2 2 := by
  unfold decode
  by_cases h1 : bs.length < 16
  · simp [h1]
  · rw [if_neg h1]
    by_cases h2 : (bs.drop 16).length < beAt bs 2 2
    · rw [if_pos h2]
      rw [List.length_drop] at h2
      simp only [true_iff]; omega
    · rw [if_neg h2]
      rw [List.length_drop] at h2
      split
      · simp only [reduceCtorEq, false_iff]; omega
      · simp only [reduceCtorEq, false_iff]; omega

/-! ### A descriptor that is accepted -/

theorem Opcode.ofByte_eq {b : Byte} {op : Opcode} (h : Opcode.ofByte b = some op) : b = op.code := by
  have := List.find?_some h
  exact (by simpa using this : op.code = b).symm

theorem Opcode.ofByte_code (op : Opcode) : Opcode.ofByte op.code = some op := by cases op <;> rfl

/-- What acceptance says of the fixed bytes. -/
theorem decodeDescriptor_ok {d p : Bytes} {i : Instr} (h : decodeDescriptor d p = .ok i) :
    ∃ op : Opcode, d.getD 0 0#8 = op.code ∧ op.flagsLegal (d.getD 1 0#8) = true ∧
      (∀ k ∈ op.unusedBytes, d.getD k 0#8 = 0#8) ∧ (op.noPayload = true → p = []) ∧ decodeOperands op d p = .ok i := by
  unfold decodeDescriptor at h
  split at h
  · cases h
  · rename_i op hop
    split at h
    · cases h
    · rename_i h1
      split at h
      · cases h
      · rename_i h2
        split at h
        · cases h
        · rename_i h3
          refine ⟨op, Opcode.ofByte_eq hop, by simpa using h1, ?_, ?_, h⟩
          · intro k hk
            by_contra hne
            exact h2 (List.any_eq_true.2 ⟨k, hk, by simpa using hne⟩)
          · intro hn
            by_contra hne
            apply h3
            simp [hn, hne]

/-- The number of a slice of bytes, cut to the slice's width, written back gives the slice. -/
theorem bytesOf_ofNat_beNat {w : Nat} (bs : Bytes) (h : w = 8 * bs.length) :
    bytesOf bs.length (BitVec.ofNat w (beNat bs)).toNat = bs := by
  have hlt := beNat_lt bs
  have e : 256 ^ bs.length = 2 ^ w := by rw [h, pow_mul]; rfl
  rw [BitVec.toNat_ofNat, Nat.mod_eq_of_lt (by rw [← e]; exact hlt), bytesOf_beNat]

theorem bytes16 {d : Bytes} (h : d.length = 16) : ∃ b0 b1 b2 b3 b4 b5 b6 b7 b8 b9 b10 b11 b12 b13 b14 b15 : Byte,
    d = [b0, b1, b2, b3, b4, b5, b6, b7, b8, b9, b10, b11, b12, b13, b14, b15] := by
  match d, h with
  | [b0, b1, b2, b3, b4, b5, b6, b7, b8, b9, b10, b11, b12, b13, b14, b15], _ => exact ⟨b0, b1, b2, b3, b4, b5, b6, b7,
      b8, b9, b10, b11, b12, b13, b14, b15, rfl⟩

/-- An accepted descriptor is the descriptor of the command read from it. -/
theorem descriptor_of_decode {d p : Bytes} {i : Instr} (h : decodeDescriptor d p = .ok i) (hd : d.length = 16)
    (hp : p.length = beAt d 2 2) : i.descriptor = d ∧ i.payload = p := by
  obtain ⟨op, h0, h1, h2, h3, h4⟩ := decodeDescriptor_ok h
  obtain ⟨b0, b1, b2, b3, b4, b5, b6, b7, b8, b9, b10, b11, b12, b13, b14, b15, rfl⟩ := bytes16 hd
  have hl : bytesOf 2 p.length = [b2, b3] := by
    rw [hp]
    exact bytesOf_beNat [b2, b3]
  have e48 : bytesOf 6 (BitVec.ofNat 48 (beNat [b4, b5, b6, b7, b8, b9])).toNat = [b4, b5, b6, b7, b8, b9] :=
    bytesOf_ofNat_beNat [b4, b5, b6, b7, b8, b9] rfl
  have e32 : bytesOf 4 (BitVec.ofNat 32 (beNat [b4, b5, b6, b7])).toNat = [b4, b5, b6, b7] :=
    bytesOf_ofNat_beNat [b4, b5, b6, b7] rfl
  have e16 : ∀ x y : Byte, bytesOf 2 (BitVec.ofNat 16 (beNat [x, y])).toNat = [x, y] :=
    fun x y => bytesOf_ofNat_beNat [x, y] rfl
  have e8 : ∀ x : Byte, BitVec.ofNat 8 (beNat [x]) = x := fun x => by simp
  have h0' : b0 = op.code := h0
  have h1' : op.flagsLegal b1 = true := h1
  subst h0'
  cases op with
  | csum16 =>
    obtain rfl : i = .csum16 p := (Except.ok.inj h4).symm
    refine ⟨?_, rfl⟩
    obtain rfl : b1 = 0#8 := by simpa [Opcode.flagsLegal] using h1'
    obtain rfl : b4 = 0#8 := h2 4 (by decide)
    obtain rfl : b5 = 0#8 := h2 5 (by decide)
    obtain rfl : b6 = 0#8 := h2 6 (by decide)
    obtain rfl : b7 = 0#8 := h2 7 (by decide)
    obtain rfl : b8 = 0#8 := h2 8 (by decide)
    obtain rfl : b9 = 0#8 := h2 9 (by decide)
    obtain rfl : b10 = 0#8 := h2 10 (by decide)
    obtain rfl : b11 = 0#8 := h2 11 (by decide)
    obtain rfl : b12 = 0#8 := h2 12 (by decide)
    obtain rfl : b13 = 0#8 := h2 13 (by decide)
    obtain rfl : b14 = 0#8 := h2 14 (by decide)
    obtain rfl : b15 = 0#8 := h2 15 (by decide)
    show [Opcode.code .csum16, 0#8] ++ bytesOf 2 p.length ++ zeros 12 = _
    rw [hl]
    rfl
  | ethRx =>
    obtain rfl : i = .ethRx p := (Except.ok.inj h4).symm
    refine ⟨?_, rfl⟩
    obtain rfl : b1 = 0#8 := by simpa [Opcode.flagsLegal] using h1'
    obtain rfl : b4 = 0#8 := h2 4 (by decide)
    obtain rfl : b5 = 0#8 := h2 5 (by decide)
    obtain rfl : b6 = 0#8 := h2 6 (by decide)
    obtain rfl : b7 = 0#8 := h2 7 (by decide)
    obtain rfl : b8 = 0#8 := h2 8 (by decide)
    obtain rfl : b9 = 0#8 := h2 9 (by decide)
    obtain rfl : b10 = 0#8 := h2 10 (by decide)
    obtain rfl : b11 = 0#8 := h2 11 (by decide)
    obtain rfl : b12 = 0#8 := h2 12 (by decide)
    obtain rfl : b13 = 0#8 := h2 13 (by decide)
    obtain rfl : b14 = 0#8 := h2 14 (by decide)
    obtain rfl : b15 = 0#8 := h2 15 (by decide)
    show [Opcode.code .ethRx, 0#8] ++ bytesOf 2 p.length ++ zeros 12 = _
    rw [hl]
    rfl
  | ethTx =>
    obtain rfl : i = .ethTx (BitVec.ofNat 48 (beNat [b4, b5, b6, b7, b8, b9])) (BitVec.ofNat 16 (beNat [b10, b11]))
      p := (Except.ok.inj h4).symm
    refine ⟨?_, rfl⟩
    obtain rfl : b1 = 0#8 := by simpa [Opcode.flagsLegal] using h1'
    obtain rfl : b12 = 0#8 := h2 12 (by decide)
    obtain rfl : b13 = 0#8 := h2 13 (by decide)
    obtain rfl : b14 = 0#8 := h2 14 (by decide)
    obtain rfl : b15 = 0#8 := h2 15 (by decide)
    show [Opcode.code .ethTx, 0#8] ++ bytesOf 2 p.length ++ (bytesOf 6 (BitVec.ofNat 48 (beNat [b4, b5, b6, b7, b8,
      b9])).toNat ++ bytesOf 2 (BitVec.ofNat 16 (beNat [b10, b11])).toNat ++ zeros 4) = _
    rw [hl, e48, e16]
    rfl
  | ethPoll =>
    obtain rfl : i = .ethPoll := (Except.ok.inj h4).symm
    obtain rfl : p = [] := h3 rfl
    refine ⟨?_, rfl⟩
    obtain rfl : b1 = 0#8 := by simpa [Opcode.flagsLegal] using h1'
    obtain rfl : b4 = 0#8 := h2 4 (by decide)
    obtain rfl : b5 = 0#8 := h2 5 (by decide)
    obtain rfl : b6 = 0#8 := h2 6 (by decide)
    obtain rfl : b7 = 0#8 := h2 7 (by decide)
    obtain rfl : b8 = 0#8 := h2 8 (by decide)
    obtain rfl : b9 = 0#8 := h2 9 (by decide)
    obtain rfl : b10 = 0#8 := h2 10 (by decide)
    obtain rfl : b11 = 0#8 := h2 11 (by decide)
    obtain rfl : b12 = 0#8 := h2 12 (by decide)
    obtain rfl : b13 = 0#8 := h2 13 (by decide)
    obtain rfl : b14 = 0#8 := h2 14 (by decide)
    obtain rfl : b15 = 0#8 := h2 15 (by decide)
    show [Opcode.code .ethPoll, 0#8] ++ bytesOf 2 (List.length ([] : Bytes)) ++ zeros 12 = _
    rw [hl]
    rfl
  | netRegister =>
    obtain rfl : i = .netRegister (BitVec.ofNat 16 (beNat [b4, b5])) (BitVec.ofNat 16 (beNat [b6, b7])) :=
      (Except.ok.inj h4).symm
    obtain rfl : p = [] := h3 rfl
    refine ⟨?_, rfl⟩
    obtain rfl : b1 = 0#8 := by simpa [Opcode.flagsLegal] using h1'
    obtain rfl : b8 = 0#8 := h2 8 (by decide)
    obtain rfl : b9 = 0#8 := h2 9 (by decide)
    obtain rfl : b10 = 0#8 := h2 10 (by decide)
    obtain rfl : b11 = 0#8 := h2 11 (by decide)
    obtain rfl : b12 = 0#8 := h2 12 (by decide)
    obtain rfl : b13 = 0#8 := h2 13 (by decide)
    obtain rfl : b14 = 0#8 := h2 14 (by decide)
    obtain rfl : b15 = 0#8 := h2 15 (by decide)
    show [Opcode.code .netRegister, 0#8] ++ bytesOf 2 (List.length ([] : Bytes)) ++ (bytesOf 2 (BitVec.ofNat 16
      (beNat [b4, b5])).toNat ++ bytesOf 2 (BitVec.ofNat 16 (beNat [b6, b7])).toNat ++ zeros 8) = _
    rw [hl, e16, e16]
    rfl
  | ipRx =>
    obtain rfl : i = .ipRx (BitVec.ofNat 48 (beNat [b4, b5, b6, b7, b8, b9])) p := (Except.ok.inj h4).symm
    refine ⟨?_, rfl⟩
    obtain rfl : b1 = 0#8 := by simpa [Opcode.flagsLegal] using h1'
    obtain rfl : b10 = 0#8 := h2 10 (by decide)
    obtain rfl : b11 = 0#8 := h2 11 (by decide)
    obtain rfl : b12 = 0#8 := h2 12 (by decide)
    obtain rfl : b13 = 0#8 := h2 13 (by decide)
    obtain rfl : b14 = 0#8 := h2 14 (by decide)
    obtain rfl : b15 = 0#8 := h2 15 (by decide)
    show [Opcode.code .ipRx, 0#8] ++ bytesOf 2 p.length ++ (bytesOf 6 (BitVec.ofNat 48 (beNat [b4, b5, b6, b7, b8,
      b9])).toNat ++ zeros 6) = _
    rw [hl, e48]
    rfl
  | ipFragEmit =>
    obtain rfl : i = .ipFragEmit (BitVec.ofNat 32 (beNat [b4, b5, b6, b7])) (BitVec.ofNat 8 (beNat [b8]))
      (BitVec.ofNat 16 (beNat [b10, b11])) (BitVec.ofNat 16 (beNat [b12, b13])) (beNat [b1] == 1) p :=
      (Except.ok.inj h4).symm
    refine ⟨?_, rfl⟩
    have hb1 : b1 = 0#8 ∨ b1 = 1#8 := by simpa [Opcode.flagsLegal] using h1'
    have hf : (if (beNat [b1] == 1) = true then 1#8 else 0#8) = b1 := by rcases hb1 with rfl | rfl <;> rfl
    obtain rfl : b9 = 0#8 := h2 9 (by decide)
    obtain rfl : b14 = 0#8 := h2 14 (by decide)
    obtain rfl : b15 = 0#8 := h2 15 (by decide)
    show [Opcode.code .ipFragEmit, if (beNat [b1] == 1) = true then 1#8 else 0#8] ++ bytesOf 2 p.length ++ (bytesOf
      4 (BitVec.ofNat 32 (beNat [b4, b5, b6, b7])).toNat ++ [(BitVec.ofNat 8 (beNat [b8]))] ++ zeros 1 ++
      bytesOf 2 (BitVec.ofNat 16 (beNat [b10, b11])).toNat ++ bytesOf 2 (BitVec.ofNat 16 (beNat [b12,
      b13])).toNat ++ zeros 2) = _
    rw [hl, hf, e32, e8, e16, e16]
    rfl
  | ipTx =>
    obtain rfl : i = .ipTx (BitVec.ofNat 32 (beNat [b4, b5, b6, b7])) (BitVec.ofNat 8 (beNat [b8])) p :=
      (Except.ok.inj h4).symm
    refine ⟨?_, rfl⟩
    obtain rfl : b1 = 0#8 := by simpa [Opcode.flagsLegal] using h1'
    obtain rfl : b9 = 0#8 := h2 9 (by decide)
    obtain rfl : b10 = 0#8 := h2 10 (by decide)
    obtain rfl : b11 = 0#8 := h2 11 (by decide)
    obtain rfl : b12 = 0#8 := h2 12 (by decide)
    obtain rfl : b13 = 0#8 := h2 13 (by decide)
    obtain rfl : b14 = 0#8 := h2 14 (by decide)
    obtain rfl : b15 = 0#8 := h2 15 (by decide)
    show [Opcode.code .ipTx, 0#8] ++ bytesOf 2 p.length ++ (bytesOf 4 (BitVec.ofNat 32 (beNat [b4, b5, b6,
      b7])).toNat ++ [(BitVec.ofNat 8 (beNat [b8]))] ++ zeros 7) = _
    rw [hl, e32, e8]
    rfl
  | udpRx =>
    obtain rfl : i = .udpRx (BitVec.ofNat 32 (beNat [b4, b5, b6, b7])) p := (Except.ok.inj h4).symm
    refine ⟨?_, rfl⟩
    obtain rfl : b1 = 0#8 := by simpa [Opcode.flagsLegal] using h1'
    obtain rfl : b8 = 0#8 := h2 8 (by decide)
    obtain rfl : b9 = 0#8 := h2 9 (by decide)
    obtain rfl : b10 = 0#8 := h2 10 (by decide)
    obtain rfl : b11 = 0#8 := h2 11 (by decide)
    obtain rfl : b12 = 0#8 := h2 12 (by decide)
    obtain rfl : b13 = 0#8 := h2 13 (by decide)
    obtain rfl : b14 = 0#8 := h2 14 (by decide)
    obtain rfl : b15 = 0#8 := h2 15 (by decide)
    show [Opcode.code .udpRx, 0#8] ++ bytesOf 2 p.length ++ (bytesOf 4 (BitVec.ofNat 32 (beNat [b4, b5, b6,
      b7])).toNat ++ zeros 8) = _
    rw [hl, e32]
    rfl
  | udpTx =>
    obtain rfl : i = .udpTx (BitVec.ofNat 32 (beNat [b4, b5, b6, b7])) (BitVec.ofNat 16 (beNat [b8, b9]))
      (BitVec.ofNat 16 (beNat [b10, b11])) p := (Except.ok.inj h4).symm
    refine ⟨?_, rfl⟩
    obtain rfl : b1 = 0#8 := by simpa [Opcode.flagsLegal] using h1'
    obtain rfl : b12 = 0#8 := h2 12 (by decide)
    obtain rfl : b13 = 0#8 := h2 13 (by decide)
    obtain rfl : b14 = 0#8 := h2 14 (by decide)
    obtain rfl : b15 = 0#8 := h2 15 (by decide)
    show [Opcode.code .udpTx, 0#8] ++ bytesOf 2 p.length ++ (bytesOf 4 (BitVec.ofNat 32 (beNat [b4, b5, b6,
      b7])).toNat ++ bytesOf 2 (BitVec.ofNat 16 (beNat [b8, b9])).toNat ++ bytesOf 2 (BitVec.ofNat 16 (beNat
      [b10, b11])).toNat ++ zeros 4) = _
    rw [hl, e32, e16, e16]
    rfl
  | udpOpen =>
    obtain rfl : i = .udpOpen (BitVec.ofNat 16 (beNat [b4, b5])) (BitVec.ofNat 16 (beNat [b6, b7])) :=
      (Except.ok.inj h4).symm
    obtain rfl : p = [] := h3 rfl
    refine ⟨?_, rfl⟩
    obtain rfl : b1 = 0#8 := by simpa [Opcode.flagsLegal] using h1'
    obtain rfl : b8 = 0#8 := h2 8 (by decide)
    obtain rfl : b9 = 0#8 := h2 9 (by decide)
    obtain rfl : b10 = 0#8 := h2 10 (by decide)
    obtain rfl : b11 = 0#8 := h2 11 (by decide)
    obtain rfl : b12 = 0#8 := h2 12 (by decide)
    obtain rfl : b13 = 0#8 := h2 13 (by decide)
    obtain rfl : b14 = 0#8 := h2 14 (by decide)
    obtain rfl : b15 = 0#8 := h2 15 (by decide)
    show [Opcode.code .udpOpen, 0#8] ++ bytesOf 2 (List.length ([] : Bytes)) ++ (bytesOf 2 (BitVec.ofNat 16 (beNat
      [b4, b5])).toNat ++ bytesOf 2 (BitVec.ofNat 16 (beNat [b6, b7])).toNat ++ zeros 8) = _
    rw [hl, e16, e16]
    rfl
  | udpClose =>
    obtain rfl : i = .udpClose (BitVec.ofNat 16 (beNat [b4, b5])) := (Except.ok.inj h4).symm
    obtain rfl : p = [] := h3 rfl
    refine ⟨?_, rfl⟩
    obtain rfl : b1 = 0#8 := by simpa [Opcode.flagsLegal] using h1'
    obtain rfl : b6 = 0#8 := h2 6 (by decide)
    obtain rfl : b7 = 0#8 := h2 7 (by decide)
    obtain rfl : b8 = 0#8 := h2 8 (by decide)
    obtain rfl : b9 = 0#8 := h2 9 (by decide)
    obtain rfl : b10 = 0#8 := h2 10 (by decide)
    obtain rfl : b11 = 0#8 := h2 11 (by decide)
    obtain rfl : b12 = 0#8 := h2 12 (by decide)
    obtain rfl : b13 = 0#8 := h2 13 (by decide)
    obtain rfl : b14 = 0#8 := h2 14 (by decide)
    obtain rfl : b15 = 0#8 := h2 15 (by decide)
    show [Opcode.code .udpClose, 0#8] ++ bytesOf 2 (List.length ([] : Bytes)) ++ (bytesOf 2 (BitVec.ofNat 16 (beNat
      [b4, b5])).toNat ++ zeros 10) = _
    rw [hl, e16]
    rfl
  | netDispatch =>
    obtain rfl : b1 = 0#8 := by simpa [Opcode.flagsLegal] using h1'
    obtain rfl : b13 = 0#8 := h2 13 (by decide)
    obtain rfl : b14 = 0#8 := h2 14 (by decide)
    obtain rfl : b15 = 0#8 := h2 15 (by decide)
    have h4' : (if beNat [b12] = 6 then
        Except.ok (Instr.netDispatch (.mac (BitVec.ofNat 48 (beNat [b4, b5, b6, b7, b8, b9])))
          (BitVec.ofNat 16 (beNat [b10, b11])) p)
      else if beNat [b12] = 4 then
        if beNat [b8, b9] = 0 then
          Except.ok (Instr.netDispatch (.ip (BitVec.ofNat 32 (beNat [b4, b5, b6, b7])))
            (BitVec.ofNat 16 (beNat [b10, b11])) p)
        else Except.error .nonZeroReserved
      else Except.error Illegal.badSourceWidth) = Except.ok i := h4
    rw [beNat_singleton] at h4'
    by_cases h6 : b12.toNat = 6
    · rw [if_pos h6] at h4'
      obtain rfl : b12 = 6#8 := BitVec.eq_of_toNat_eq h6
      obtain rfl := Except.ok.inj h4'
      refine ⟨?_, rfl⟩
      show [Opcode.code .netDispatch, 0#8] ++ bytesOf 2 p.length ++
        (bytesOf 6 (BitVec.ofNat 48 (beNat [b4, b5, b6, b7, b8, b9])).toNat ++
          bytesOf 2 (BitVec.ofNat 16 (beNat [b10, b11])).toNat ++ [6#8] ++ zeros 3) = _
      rw [hl, e48, e16]
      rfl
    · rw [if_neg h6] at h4'
      by_cases h7 : b12.toNat = 4
      · rw [if_pos h7] at h4'
        obtain rfl : b12 = 4#8 := BitVec.eq_of_toNat_eq h7
        by_cases h8 : beNat [b8, b9] = 0
        · rw [if_pos h8] at h4'
          have h89 : [b8, b9] = [0#8, 0#8] := beNat_inj rfl h8
          obtain ⟨rfl, rfl⟩ : b8 = 0#8 ∧ b9 = 0#8 := by simpa using h89
          obtain rfl := Except.ok.inj h4'
          refine ⟨?_, rfl⟩
          show [Opcode.code .netDispatch, 0#8] ++ bytesOf 2 p.length ++
            (bytesOf 4 (BitVec.ofNat 32 (beNat [b4, b5, b6, b7])).toNat ++ zeros 2 ++
              bytesOf 2 (BitVec.ofNat 16 (beNat [b10, b11])).toNat ++ [4#8] ++ zeros 3) = _
          rw [hl, e32, e16]
          rfl
        · rw [if_neg h8] at h4'
          cases h4'
      · rw [if_neg h7] at h4'
        cases h4'

end Sys2Proof
end

