-- ==== Sys2Proof/Laws/State.lean ====
section
/-!
SUPPORT. One lemma for each field and each named update of State: what the update makes of the field.
-/
namespace Sys2Proof.Machine

/-! ### `emit` -/

@[simp] theorem State.emit_caps (e : Event) (s : State) : (s.emit e).caps = s.caps := rfl
@[simp] theorem State.emit_ifMac (e : Event) (s : State) : (s.emit e).ifMac = s.ifMac := rfl
@[simp] theorem State.emit_ifIp (e : Event) (s : State) : (s.emit e).ifIp = s.ifIp := rfl
@[simp] theorem State.emit_mtu (e : Event) (s : State) : (s.emit e).mtu = s.mtu := rfl
@[simp] theorem State.emit_ipTtlDefault (e : Event) (s : State) : (s.emit e).ipTtlDefault = s.ipTtlDefault := rfl
@[simp] theorem State.emit_ipId (e : Event) (s : State) : (s.emit e).ipId = s.ipId := rfl
@[simp] theorem State.emit_dispatch (e : Event) (s : State) : (s.emit e).dispatch = s.dispatch := rfl
@[simp] theorem State.emit_ports (e : Event) (s : State) : (s.emit e).ports = s.ports := rfl
@[simp] theorem State.emit_engine (e : Event) (s : State) : (s.emit e).engine = s.engine := rfl
@[simp] theorem State.emit_latches (e : Event) (s : State) : (s.emit e).latches = s.latches := rfl
@[simp] theorem State.emit_status (e : Event) (s : State) : (s.emit e).status = s.status := rfl
@[simp] theorem State.emit_result (e : Event) (s : State) : (s.emit e).result = s.result := rfl
@[simp] theorem State.emit_buf (e : Event) (s : State) : (s.emit e).buf = s.buf := rfl
@[simp] theorem State.emit_fbuf (e : Event) (s : State) : (s.emit e).fbuf = s.fbuf := rfl
@[simp] theorem State.emit_port (e : Event) (s : State) : (s.emit e).port = s.port := rfl
@[simp] theorem State.emit_txAnswers (e : Event) (s : State) : (s.emit e).txAnswers = s.txAnswers := rfl
@[simp] theorem State.emit_pollAnswers (e : Event) (s : State) : (s.emit e).pollAnswers = s.pollAnswers := rfl
@[simp] theorem State.emit_draws (e : Event) (s : State) : (s.emit e).draws = s.draws := rfl
@[simp] theorem State.emit_trace (e : Event) (s : State) : (s.emit e).trace = s.trace ++ [.event e] := rfl
@[simp] theorem State.emit_lastEnd (e : Event) (s : State) : (s.emit e).lastEnd = s.lastEnd := rfl

/-! ### `accept` -/

@[simp] theorem State.accept_caps (i : Instr) (s : State) : (s.accept i).caps = s.caps := rfl
@[simp] theorem State.accept_ifMac (i : Instr) (s : State) : (s.accept i).ifMac = s.ifMac := rfl
@[simp] theorem State.accept_ifIp (i : Instr) (s : State) : (s.accept i).ifIp = s.ifIp := rfl
@[simp] theorem State.accept_mtu (i : Instr) (s : State) : (s.accept i).mtu = s.mtu := rfl
@[simp] theorem State.accept_ipTtlDefault (i : Instr) (s : State) : (s.accept i).ipTtlDefault = s.ipTtlDefault := rfl
@[simp] theorem State.accept_ipId (i : Instr) (s : State) : (s.accept i).ipId = s.ipId := rfl
@[simp] theorem State.accept_dispatch (i : Instr) (s : State) : (s.accept i).dispatch = s.dispatch := rfl
@[simp] theorem State.accept_ports (i : Instr) (s : State) : (s.accept i).ports = s.ports := rfl
@[simp] theorem State.accept_engine (i : Instr) (s : State) : (s.accept i).engine = .busy := rfl
@[simp] theorem State.accept_latches (i : Instr) (s : State) : (s.accept i).latches = s.latches.ofCommand i := rfl
@[simp] theorem State.accept_status (i : Instr) (s : State) : (s.accept i).status = s.status := rfl
@[simp] theorem State.accept_result (i : Instr) (s : State) : (s.accept i).result = s.result := rfl
@[simp] theorem State.accept_buf (i : Instr) (s : State) : (s.accept i).buf = s.buf := rfl
@[simp] theorem State.accept_fbuf (i : Instr) (s : State) : (s.accept i).fbuf = s.fbuf := rfl
@[simp] theorem State.accept_port (i : Instr) (s : State) : (s.accept i).port = s.port := rfl
@[simp] theorem State.accept_txAnswers (i : Instr) (s : State) : (s.accept i).txAnswers = s.txAnswers := rfl
@[simp] theorem State.accept_pollAnswers (i : Instr) (s : State) : (s.accept i).pollAnswers = s.pollAnswers := rfl
@[simp] theorem State.accept_draws (i : Instr) (s : State) : (s.accept i).draws = s.draws := rfl
@[simp] theorem State.accept_trace (i : Instr) (s : State) : (s.accept i).trace = s.trace := rfl
@[simp] theorem State.accept_lastEnd (i : Instr) (s : State) : (s.accept i).lastEnd = s.lastEnd := rfl

/-! ### `callWith` -/

@[simp] theorem State.callWith_caps (op : Opcode) (f : Latches → Latches) (s : State) :
    (s.callWith op f).caps = s.caps := rfl
@[simp] theorem State.callWith_ifMac (op : Opcode) (f : Latches → Latches) (s : State) :
    (s.callWith op f).ifMac = s.ifMac := rfl
@[simp] theorem State.callWith_ifIp (op : Opcode) (f : Latches → Latches) (s : State) :
    (s.callWith op f).ifIp = s.ifIp := rfl
@[simp] theorem State.callWith_mtu (op : Opcode) (f : Latches → Latches) (s : State) :
    (s.callWith op f).mtu = s.mtu := rfl
@[simp] theorem State.callWith_ipTtlDefault (op : Opcode) (f : Latches → Latches) (s : State) :
    (s.callWith op f).ipTtlDefault = s.ipTtlDefault := rfl
@[simp] theorem State.callWith_ipId (op : Opcode) (f : Latches → Latches) (s : State) :
    (s.callWith op f).ipId = s.ipId := rfl
@[simp] theorem State.callWith_dispatch (op : Opcode) (f : Latches → Latches) (s : State) :
    (s.callWith op f).dispatch = s.dispatch := rfl
@[simp] theorem State.callWith_ports (op : Opcode) (f : Latches → Latches) (s : State) :
    (s.callWith op f).ports = s.ports := rfl
@[simp] theorem State.callWith_engine (op : Opcode) (f : Latches → Latches) (s : State) :
    (s.callWith op f).engine = s.engine := rfl
@[simp] theorem State.callWith_latches (op : Opcode) (f : Latches → Latches) (s : State) :
    (s.callWith op f).latches = { f s.latches with opc := op.code } := rfl
@[simp] theorem State.callWith_status (op : Opcode) (f : Latches → Latches) (s : State) :
    (s.callWith op f).status = s.status := rfl
@[simp] theorem State.callWith_result (op : Opcode) (f : Latches → Latches) (s : State) :
    (s.callWith op f).result = s.result := rfl
@[simp] theorem State.callWith_buf (op : Opcode) (f : Latches → Latches) (s : State) :
    (s.callWith op f).buf = s.buf := rfl
@[simp] theorem State.callWith_fbuf (op : Opcode) (f : Latches → Latches) (s : State) :
    (s.callWith op f).fbuf = s.fbuf := rfl
@[simp] theorem State.callWith_port (op : Opcode) (f : Latches → Latches) (s : State) :
    (s.callWith op f).port = s.port := rfl
@[simp] theorem State.callWith_txAnswers (op : Opcode) (f : Latches → Latches) (s : State) :
    (s.callWith op f).txAnswers = s.txAnswers := rfl
@[simp] theorem State.callWith_pollAnswers (op : Opcode) (f : Latches → Latches) (s : State) :
    (s.callWith op f).pollAnswers = s.pollAnswers := rfl
@[simp] theorem State.callWith_draws (op : Opcode) (f : Latches → Latches) (s : State) :
    (s.callWith op f).draws = s.draws := rfl
@[simp] theorem State.callWith_trace (op : Opcode) (f : Latches → Latches) (s : State) :
    (s.callWith op f).trace = s.trace := rfl
@[simp] theorem State.callWith_lastEnd (op : Opcode) (f : Latches → Latches) (s : State) :
    (s.callWith op f).lastEnd = s.lastEnd := rfl

/-! ### `respond` -/

@[simp] theorem State.respond_caps (e : Option EarlyEnd) (v : Half) (s : State) : (s.respond e v).caps = s.caps := rfl
@[simp] theorem State.respond_ifMac (e : Option EarlyEnd) (v : Half) (s : State) :
    (s.respond e v).ifMac = s.ifMac := rfl
@[simp] theorem State.respond_ifIp (e : Option EarlyEnd) (v : Half) (s : State) : (s.respond e v).ifIp = s.ifIp := rfl
@[simp] theorem State.respond_mtu (e : Option EarlyEnd) (v : Half) (s : State) : (s.respond e v).mtu = s.mtu := rfl
@[simp] theorem State.respond_ipTtlDefault (e : Option EarlyEnd) (v : Half) (s : State) :
    (s.respond e v).ipTtlDefault = s.ipTtlDefault := rfl
@[simp] theorem State.respond_ipId (e : Option EarlyEnd) (v : Half) (s : State) : (s.respond e v).ipId = s.ipId := rfl
@[simp] theorem State.respond_dispatch (e : Option EarlyEnd) (v : Half) (s : State) :
    (s.respond e v).dispatch = s.dispatch := rfl
@[simp] theorem State.respond_ports (e : Option EarlyEnd) (v : Half) (s : State) :
    (s.respond e v).ports = s.ports := rfl
@[simp] theorem State.respond_engine (e : Option EarlyEnd) (v : Half) (s : State) :
    (s.respond e v).engine = .idle := rfl
@[simp] theorem State.respond_latches (e : Option EarlyEnd) (v : Half) (s : State) :
    (s.respond e v).latches = s.latches := rfl
@[simp] theorem State.respond_status (e : Option EarlyEnd) (v : Half) (s : State) :
    (s.respond e v).status = statusOf e := rfl
@[simp] theorem State.respond_result (e : Option EarlyEnd) (v : Half) (s : State) :
    (s.respond e v).result = resultOf e v := rfl
@[simp] theorem State.respond_buf (e : Option EarlyEnd) (v : Half) (s : State) : (s.respond e v).buf = s.buf := rfl
@[simp] theorem State.respond_fbuf (e : Option EarlyEnd) (v : Half) (s : State) : (s.respond e v).fbuf = s.fbuf := rfl
@[simp] theorem State.respond_port (e : Option EarlyEnd) (v : Half) (s : State) : (s.respond e v).port = s.port := rfl
@[simp] theorem State.respond_txAnswers (e : Option EarlyEnd) (v : Half) (s : State) :
    (s.respond e v).txAnswers = s.txAnswers := rfl
@[simp] theorem State.respond_pollAnswers (e : Option EarlyEnd) (v : Half) (s : State) :
    (s.respond e v).pollAnswers = s.pollAnswers := rfl
@[simp] theorem State.respond_draws (e : Option EarlyEnd) (v : Half) (s : State) :
    (s.respond e v).draws = s.draws := rfl
@[simp] theorem State.respond_trace (e : Option EarlyEnd) (v : Half) (s : State) :
    (s.respond e v).trace = s.trace ++ [.response (statusOf e) (resultOf e v)] := rfl
@[simp] theorem State.respond_lastEnd (e : Option EarlyEnd) (v : Half) (s : State) :
    (s.respond e v).lastEnd = e := rfl

/-! ### `release` -/

@[simp] theorem State.release_caps (s : State) : (s.release).caps = s.caps := rfl
@[simp] theorem State.release_ifMac (s : State) : (s.release).ifMac = s.ifMac := rfl
@[simp] theorem State.release_ifIp (s : State) : (s.release).ifIp = s.ifIp := rfl
@[simp] theorem State.release_mtu (s : State) : (s.release).mtu = s.mtu := rfl
@[simp] theorem State.release_ipTtlDefault (s : State) : (s.release).ipTtlDefault = s.ipTtlDefault := rfl
@[simp] theorem State.release_ipId (s : State) : (s.release).ipId = s.ipId := rfl
@[simp] theorem State.release_dispatch (s : State) : (s.release).dispatch = s.dispatch := rfl
@[simp] theorem State.release_ports (s : State) : (s.release).ports = s.ports := rfl
@[simp] theorem State.release_engine (s : State) : (s.release).engine = s.engine := rfl
@[simp] theorem State.release_latches (s : State) : (s.release).latches = Latches.free s.draws := rfl
@[simp] theorem State.release_status (s : State) : (s.release).status = s.status := rfl
@[simp] theorem State.release_result (s : State) : (s.release).result = s.result := rfl
@[simp] theorem State.release_buf (s : State) : (s.release).buf = s.buf := rfl
@[simp] theorem State.release_fbuf (s : State) : (s.release).fbuf = s.fbuf := rfl
@[simp] theorem State.release_port (s : State) : (s.release).port = s.port := rfl
@[simp] theorem State.release_txAnswers (s : State) : (s.release).txAnswers = s.txAnswers := rfl
@[simp] theorem State.release_pollAnswers (s : State) : (s.release).pollAnswers = s.pollAnswers := rfl
@[simp] theorem State.release_draws (s : State) : (s.release).draws = s.draws + 1 := rfl
@[simp] theorem State.release_trace (s : State) : (s.release).trace = s.trace := rfl
@[simp] theorem State.release_lastEnd (s : State) : (s.release).lastEnd = s.lastEnd := rfl

/-! ### `pollAnswered` -/

@[simp] theorem State.pollAnswered_caps (s : State) : (s.pollAnswered).caps = s.caps := rfl
@[simp] theorem State.pollAnswered_ifMac (s : State) : (s.pollAnswered).ifMac = s.ifMac := rfl
@[simp] theorem State.pollAnswered_ifIp (s : State) : (s.pollAnswered).ifIp = s.ifIp := rfl
@[simp] theorem State.pollAnswered_mtu (s : State) : (s.pollAnswered).mtu = s.mtu := rfl
@[simp] theorem State.pollAnswered_ipTtlDefault (s : State) : (s.pollAnswered).ipTtlDefault = s.ipTtlDefault := rfl
@[simp] theorem State.pollAnswered_ipId (s : State) : (s.pollAnswered).ipId = s.ipId := rfl
@[simp] theorem State.pollAnswered_dispatch (s : State) : (s.pollAnswered).dispatch = s.dispatch := rfl
@[simp] theorem State.pollAnswered_ports (s : State) : (s.pollAnswered).ports = s.ports := rfl
@[simp] theorem State.pollAnswered_engine (s : State) : (s.pollAnswered).engine = s.engine := rfl
@[simp] theorem State.pollAnswered_latches (s : State) : (s.pollAnswered).latches = s.latches := rfl
@[simp] theorem State.pollAnswered_status (s : State) : (s.pollAnswered).status = s.status := rfl
@[simp] theorem State.pollAnswered_result (s : State) : (s.pollAnswered).result = s.result := rfl
@[simp] theorem State.pollAnswered_buf (s : State) : (s.pollAnswered).buf = s.buf := rfl
@[simp] theorem State.pollAnswered_fbuf (s : State) : (s.pollAnswered).fbuf = s.fbuf := rfl
@[simp] theorem State.pollAnswered_port (s : State) : (s.pollAnswered).port = s.port := rfl
@[simp] theorem State.pollAnswered_txAnswers (s : State) : (s.pollAnswered).txAnswers = s.txAnswers := rfl
@[simp] theorem State.pollAnswered_pollAnswers (s : State) : (s.pollAnswered).pollAnswers = s.pollAnswers.tail := rfl
@[simp] theorem State.pollAnswered_draws (s : State) : (s.pollAnswered).draws = s.draws := rfl
@[simp] theorem State.pollAnswered_trace (s : State) : (s.pollAnswered).trace = s.trace := rfl
@[simp] theorem State.pollAnswered_lastEnd (s : State) : (s.pollAnswered).lastEnd = s.lastEnd := rfl

/-! ### `linkAnswered` -/

@[simp] theorem State.linkAnswered_caps (s : State) :
    (s.linkAnswered).caps = s.caps := by unfold State.linkAnswered; split <;> rfl
@[simp] theorem State.linkAnswered_ifMac (s : State) :
    (s.linkAnswered).ifMac = s.ifMac := by unfold State.linkAnswered; split <;> rfl
@[simp] theorem State.linkAnswered_ifIp (s : State) :
    (s.linkAnswered).ifIp = s.ifIp := by unfold State.linkAnswered; split <;> rfl
@[simp] theorem State.linkAnswered_mtu (s : State) :
    (s.linkAnswered).mtu = s.mtu := by unfold State.linkAnswered; split <;> rfl
@[simp] theorem State.linkAnswered_ipTtlDefault (s : State) :
    (s.linkAnswered).ipTtlDefault = s.ipTtlDefault := by unfold State.linkAnswered; split <;> rfl
@[simp] theorem State.linkAnswered_ipId (s : State) :
    (s.linkAnswered).ipId = s.ipId := by unfold State.linkAnswered; split <;> rfl
@[simp] theorem State.linkAnswered_dispatch (s : State) :
    (s.linkAnswered).dispatch = s.dispatch := by unfold State.linkAnswered; split <;> rfl
@[simp] theorem State.linkAnswered_ports (s : State) :
    (s.linkAnswered).ports = s.ports := by unfold State.linkAnswered; split <;> rfl
@[simp] theorem State.linkAnswered_engine (s : State) :
    (s.linkAnswered).engine = s.engine := by unfold State.linkAnswered; split <;> rfl
@[simp] theorem State.linkAnswered_latches (s : State) :
    (s.linkAnswered).latches = s.latches := by unfold State.linkAnswered; split <;> rfl
@[simp] theorem State.linkAnswered_status (s : State) :
    (s.linkAnswered).status = s.status := by unfold State.linkAnswered; split <;> rfl
@[simp] theorem State.linkAnswered_result (s : State) :
    (s.linkAnswered).result = s.result := by unfold State.linkAnswered; split <;> rfl
@[simp] theorem State.linkAnswered_buf (s : State) :
    (s.linkAnswered).buf = s.buf := by unfold State.linkAnswered; split <;> rfl
@[simp] theorem State.linkAnswered_fbuf (s : State) :
    (s.linkAnswered).fbuf = s.fbuf := by unfold State.linkAnswered; split <;> rfl
@[simp] theorem State.linkAnswered_port (s : State) :
    (s.linkAnswered).port = s.port := by unfold State.linkAnswered; split <;> rfl
@[simp] theorem State.linkAnswered_pollAnswers (s : State) :
    (s.linkAnswered).pollAnswers = s.pollAnswers := by unfold State.linkAnswered; split <;> rfl
@[simp] theorem State.linkAnswered_trace (s : State) :
    (s.linkAnswered).trace = s.trace := by unfold State.linkAnswered; split <;> rfl
@[simp] theorem State.linkAnswered_lastEnd (s : State) :
    (s.linkAnswered).lastEnd = s.lastEnd := by unfold State.linkAnswered; split <;> rfl

/-- The two ways an answer is consumed, in one form. -/
theorem State.linkAnswered_eq (s : State) : s.linkAnswered =
    { s with txAnswers := s.txAnswers.tail, draws := if s.txAnswers = [] then s.draws + 1 else s.draws } := by
  obtain ⟨_, _, _, _, _, _, _, _, _, _, _, _, _, _, _, tx, _, _, _, _⟩ := s
  cases tx <;> rfl

/-! ### `rejectCommand` -/

@[simp] theorem State.rejectCommand_caps (s : State) : (s.rejectCommand).caps = s.caps := rfl
@[simp] theorem State.rejectCommand_ifMac (s : State) : (s.rejectCommand).ifMac = s.ifMac := rfl
@[simp] theorem State.rejectCommand_ifIp (s : State) : (s.rejectCommand).ifIp = s.ifIp := rfl
@[simp] theorem State.rejectCommand_mtu (s : State) : (s.rejectCommand).mtu = s.mtu := rfl
@[simp] theorem State.rejectCommand_ipTtlDefault (s : State) : (s.rejectCommand).ipTtlDefault = s.ipTtlDefault := rfl
@[simp] theorem State.rejectCommand_ipId (s : State) : (s.rejectCommand).ipId = s.ipId := rfl
@[simp] theorem State.rejectCommand_dispatch (s : State) : (s.rejectCommand).dispatch = s.dispatch := rfl
@[simp] theorem State.rejectCommand_ports (s : State) : (s.rejectCommand).ports = s.ports := rfl
@[simp] theorem State.rejectCommand_engine (s : State) : (s.rejectCommand).engine = .idle := rfl
@[simp] theorem State.rejectCommand_latches (s : State) : (s.rejectCommand).latches = s.latches := rfl
@[simp] theorem State.rejectCommand_status (s : State) : (s.rejectCommand).status = 0x05#8 := rfl
@[simp] theorem State.rejectCommand_result (s : State) : (s.rejectCommand).result = 0#16 := rfl
@[simp] theorem State.rejectCommand_buf (s : State) : (s.rejectCommand).buf = s.buf := rfl
@[simp] theorem State.rejectCommand_fbuf (s : State) : (s.rejectCommand).fbuf = s.fbuf := rfl
@[simp] theorem State.rejectCommand_port (s : State) : (s.rejectCommand).port = s.port := rfl
@[simp] theorem State.rejectCommand_txAnswers (s : State) : (s.rejectCommand).txAnswers = s.txAnswers := rfl
@[simp] theorem State.rejectCommand_pollAnswers (s : State) : (s.rejectCommand).pollAnswers = s.pollAnswers := rfl
@[simp] theorem State.rejectCommand_draws (s : State) : (s.rejectCommand).draws = s.draws := rfl
@[simp] theorem State.rejectCommand_trace (s : State) :
    (s.rejectCommand).trace = s.trace ++ [.response 0x05#8 0#16] := rfl
@[simp] theorem State.rejectCommand_lastEnd (s : State) : (s.rejectCommand).lastEnd = some (.fail .badCmd) := rfl

/-! ### `setBuffer` -/

@[simp] theorem State.setBuffer_caps (w : BufId) (b : Buffer) (s : State) : (s.setBuffer w b).caps = s.caps := by
  cases w <;> rfl
@[simp] theorem State.setBuffer_ifMac (w : BufId) (b : Buffer) (s : State) : (s.setBuffer w b).ifMac = s.ifMac := by
  cases w <;> rfl
@[simp] theorem State.setBuffer_ifIp (w : BufId) (b : Buffer) (s : State) : (s.setBuffer w b).ifIp = s.ifIp := by
  cases w <;> rfl
@[simp] theorem State.setBuffer_mtu (w : BufId) (b : Buffer) (s : State) : (s.setBuffer w b).mtu = s.mtu := by
  cases w <;> rfl
@[simp] theorem State.setBuffer_ipTtlDefault (w : BufId) (b : Buffer) (s : State) : (s.setBuffer w b).ipTtlDefault = s.ipTtlDefault := by
  cases w <;> rfl
@[simp] theorem State.setBuffer_ipId (w : BufId) (b : Buffer) (s : State) : (s.setBuffer w b).ipId = s.ipId := by
  cases w <;> rfl
@[simp] theorem State.setBuffer_dispatch (w : BufId) (b : Buffer) (s : State) : (s.setBuffer w b).dispatch = s.dispatch := by
  cases w <;> rfl
@[simp] theorem State.setBuffer_ports (w : BufId) (b : Buffer) (s : State) : (s.setBuffer w b).ports = s.ports := by
  cases w <;> rfl
@[simp] theorem State.setBuffer_engine (w : BufId) (b : Buffer) (s : State) : (s.setBuffer w b).engine = s.engine := by
  cases w <;> rfl
@[simp] theorem State.setBuffer_latches (w : BufId) (b : Buffer) (s : State) : (s.setBuffer w b).latches = s.latches := by
  cases w <;> rfl
@[simp] theorem State.setBuffer_status (w : BufId) (b : Buffer) (s : State) : (s.setBuffer w b).status = s.status := by
  cases w <;> rfl
@[simp] theorem State.setBuffer_result (w : BufId) (b : Buffer) (s : State) : (s.setBuffer w b).result = s.result := by
  cases w <;> rfl
@[simp] theorem State.setBuffer_port (w : BufId) (b : Buffer) (s : State) : (s.setBuffer w b).port = s.port := by
  cases w <;> rfl
@[simp] theorem State.setBuffer_txAnswers (w : BufId) (b : Buffer) (s : State) : (s.setBuffer w b).txAnswers = s.txAnswers := by
  cases w <;> rfl
@[simp] theorem State.setBuffer_pollAnswers (w : BufId) (b : Buffer) (s : State) : (s.setBuffer w b).pollAnswers = s.pollAnswers := by
  cases w <;> rfl
@[simp] theorem State.setBuffer_draws (w : BufId) (b : Buffer) (s : State) : (s.setBuffer w b).draws = s.draws := by
  cases w <;> rfl
@[simp] theorem State.setBuffer_trace (w : BufId) (b : Buffer) (s : State) : (s.setBuffer w b).trace = s.trace := by
  cases w <;> rfl
@[simp] theorem State.setBuffer_lastEnd (w : BufId) (b : Buffer) (s : State) : (s.setBuffer w b).lastEnd = s.lastEnd := by
  cases w <;> rfl
@[simp] theorem State.setBuffer_buf_buf (b : Buffer) (s : State) : (s.setBuffer .buf b).buf = b := rfl
@[simp] theorem State.setBuffer_buf_fbuf (b : Buffer) (s : State) : (s.setBuffer .buf b).fbuf = s.fbuf := rfl
@[simp] theorem State.setBuffer_fbuf_buf (b : Buffer) (s : State) : (s.setBuffer .fbuf b).buf = s.buf := rfl
@[simp] theorem State.setBuffer_fbuf_fbuf (b : Buffer) (s : State) : (s.setBuffer .fbuf b).fbuf = b := rfl
@[simp] theorem State.buffer_buf (s : State) : s.buffer .buf = s.buf := rfl
@[simp] theorem State.buffer_fbuf (s : State) : s.buffer .fbuf = s.fbuf := rfl
@[simp] theorem State.buffer_setBuffer (w : BufId) (b : Buffer) (s : State) : (s.setBuffer w b).buffer w = b := by
  cases w <;> rfl
@[simp] theorem State.setBuffer_setBuffer (w : BufId) (b c : Buffer) (s : State) :
    (s.setBuffer w b).setBuffer w c = s.setBuffer w c := by
  cases w <;> rfl
@[simp] theorem State.buffer_emit (w : BufId) (e : Event) (s : State) : (s.emit e).buffer w = s.buffer w := by
  cases w <;> rfl
@[simp] theorem State.buffer_callWith (w : BufId) (op : Opcode) (f : Latches → Latches) (s : State) :
    (s.callWith op f).buffer w = s.buffer w := by
  cases w <;> rfl

/-! ### Chains of calls -/

@[simp] theorem Run.done_andThen (s : State) (k : State → Run) : (Run.done s).andThen k = k s := rfl
@[simp] theorem Run.drop_andThen (r : DropReason) (s : State) (k : State → Run) :
    (Run.drop r s).andThen k = .drop r s := rfl
@[simp] theorem Run.notify_andThen (c : NotifyCode) (s : State) (k : State → Run) :
    (Run.notify c s).andThen k = .notify c s := rfl
@[simp] theorem Run.fail_andThen (f : Failure) (s : State) (k : State → Run) :
    (Run.fail f s).andThen k = .fail f s := rfl
@[simp] theorem Run.fault_andThen (f : Fault) (k : State → Run) : (Run.fault f).andThen k = .fault f := rfl
@[simp] theorem Run.refused_andThen (r : Refusal) (k : State → Run) : (Run.refused r).andThen k = .refused r := rfl

theorem Run.andThen_assoc (r : Run) (f g : State → Run) : (r.andThen f).andThen g = r.andThen fun s => (f s).andThen g := by
  rcases r with ⟨_ | e, s⟩ | f | x <;> rfl

@[simp] theorem finishWith_ended (v : State → Half) (e : Option EarlyEnd) (s : State) :
    finishWith v (.ended e s) = .next (s.respond e (v s)).release := rfl
@[simp] theorem finish_ended (e : Option EarlyEnd) (s : State) :
    finish (.ended e s) = .next (s.respond e 0#16).release := rfl
@[simp] theorem finish_done (s : State) : finish (.done s) = .next (s.respond none 0#16).release := rfl
@[simp] theorem finish_drop (r : DropReason) (s : State) :
    finish (.drop r s) = .next (s.respond (some (.drop r)) 0#16).release := rfl
@[simp] theorem finish_notify (c : NotifyCode) (s : State) :
    finish (.notify c s) = .next (s.respond (some (.notify c)) 0#16).release := rfl
@[simp] theorem finish_fail (f : Failure) (s : State) :
    finish (.fail f s) = .next (s.respond (some (.fail f)) 0#16).release := rfl
@[simp] theorem finish_fault (f : Fault) : finish (.fault f) = .fault f := rfl
@[simp] theorem finish_refused (x : Refusal) : finish (.refused x) = .refused x := rfl

/-- Everything the shared end of a command can do. -/
theorem finishWith_cases (v : State → Half) (r : Run) :
    (∃ e s, r = .ended e s ∧ finishWith v r = .next (s.respond e (v s)).release) ∨
    (∃ f, r = .fault f ∧ finishWith v r = .fault f) ∨ (∃ x, r = .refused x ∧ finishWith v r = .refused x) := by
  cases r with
  | ended e s => exact .inl ⟨e, s, rfl, rfl⟩
  | fault f => exact .inr (.inl ⟨f, rfl, rfl⟩)
  | refused x => exact .inr (.inr ⟨x, rfl, rfl⟩)

/-! ### Buffer primitives as parts of an operation -/

theorem State.onBuffer_some {w : BufId} {f : Buffer → Option Buffer} {s : State} {b : Buffer}
    (h : f (s.buffer w) = some b) : s.onBuffer w f = .done (s.setBuffer w b) := by
  simp [State.onBuffer, h]

theorem State.onBuffer_none {w : BufId} {f : Buffer → Option Buffer} {s : State}
    (h : f (s.buffer w) = none) : s.onBuffer w f = .fail .buf s := by
  simp [State.onBuffer, h]

theorem State.loadBuffer_of_fits {w : BufId} {p : Bytes} {s : State} (h : 42 + p.length ≤ s.caps.buf) :
    s.loadBuffer w p = .done { s.setBuffer w (Buffer.loaded s.draws p) with draws := s.draws + 1 } := by
  simp [State.loadBuffer, Buffer.load_of_fits h]

theorem State.loadBuffer_of_not_fits {w : BufId} {p : Bytes} {s : State} (h : s.caps.buf < 42 + p.length) :
    s.loadBuffer w p = .fail .buf s := by
  simp [State.loadBuffer, Buffer.load_of_not_fits h]

theorem State.readBuffer_of_le {w : BufId} {off n : Nat} {s : State} (k : Nat → Run)
    (h : off + n ≤ (s.buffer w).len) : s.readBuffer w off n k = k (beAt (s.buffer w).window off n) := by
  simp [State.readBuffer, Buffer.memRead_of_le h]

theorem State.readBuf_of_le {off n : Nat} {s : State} (k : Nat → Run) (h : off + n ≤ s.buf.len) :
    s.readBuffer .buf off n k = k (beAt s.buf.window off n) :=
  State.readBuffer_of_le (w := .buf) k h

end Sys2Proof.Machine
end

