-- ==== Sys2Proof/Laws/Receive.lean ====
section
/-!
SUPPORT. What the receive units do, once each: `UDP_RX`, `IP_RX`, `NET_DISPATCH`, `ETH_RX` as functions of the bytes in
the window (41_ethernet.md R141, 42_dispatch.md R154, 43_ipv4_rx.md R160, 45_udp.md R185).
-/
namespace Sys2Proof.Machine

/-- Two Buffers with the same window position and the same byte everywhere. -/
structure Buffer.Same (b c : Buffer) : Prop where
  start : b.start = c.start
  len : b.len = c.len
  byteAt : ∀ a, b.byteAt a = c.byteAt a

theorem Buffer.Same.refl (b : Buffer) : b.Same b := ⟨rfl, rfl, fun _ => rfl⟩

theorem Buffer.Same.bytesFrom {b c : Buffer} (h : b.Same c) (a n : Nat) : b.bytesFrom a n = c.bytesFrom a n :=
  Buffer.bytesFrom_congr fun x _ _ => h.byteAt x

theorem Buffer.Same.window {b c : Buffer} (h : b.Same c) : b.window = c.window := by
  rw [Buffer.window, Buffer.window, h.start, h.len, h.bytesFrom]

/-- `data` after a 16-bit field was zeroed and written back with the value it had (R163, R262). -/
def Buffer.rewritten (b : Buffer) (off : Nat) : Buffer :=
  { b with
    data := (b.data.setBytes (b.start + off) (bytesOf 2 0)).setBytes (b.start + off) (bytesOf 2 (beAt b.window off 2)) }

theorem Buffer.rewritten_same (b : Buffer) (off : Nat) (h : off + 2 ≤ b.len) : (b.rewritten off).Same b := by
  refine ⟨rfl, rfl, fun a => ?_⟩
  have key : bytesOf 2 (beAt b.window off 2) = b.bytesFrom (b.start + off) 2 := by
    rw [Buffer.beAt_window b off 2 h]
    exact bytesOf_beNat (b.bytesFrom (b.start + off) 2)
  have e : ∀ c : Buffer, c = { b with data := b.data.setBytes (b.start + off) (bytesOf 2 0) } →
      b.rewritten off = { c with data := c.data.setBytes (b.start + off) (b.bytesFrom (b.start + off) 2) } := by
    rintro c rfl
    rw [Buffer.rewritten, key]
  rw [e _ rfl, Buffer.byteAt_setBytes]
  split
  · rename_i hy
    simp only [Buffer.getElem_bytesFrom]
    congr 1; omega
  · rename_i hy
    exact Buffer.byteAt_setBytes_of_not_mem b (by simpa using hy)

/-- The window while the field at `off` is zero. -/
theorem Buffer.window_zeroed (b : Buffer) (off : Nat) (h : off + 2 ≤ b.len) :
    ({ b with data := b.data.setBytes (b.start + off) (bytesOf 2 0) } : Buffer).window =
      Wire.zeroField b.window off := by
  have hz : bytesOf 2 0 = [0#8, 0#8] := rfl
  apply List.ext_getElem
  · simp [Wire.zeroField]; omega
  · intro i h1 h2
    simp only [Buffer.length_window] at h1
    simp only [Buffer.window, Buffer.getElem_bytesFrom, Buffer.byteAt_setBytes, hz, Wire.zeroField,
      List.getElem_append, List.length_append, List.length_take, Buffer.length_bytesFrom, List.length_cons,
      List.length_nil, List.getElem_take, List.getElem_drop]
    by_cases h3 : i < off
    · have h4 : ¬ (b.start + off ≤ b.start + i ∧ b.start + i < b.start + off + (0 + 1 + 1)) := by omega
      rw [dif_neg h4]
      have h5 : i < min off b.len + (0 + 1 + 1) := by omega
      have h6 : i < min off b.len := by omega
      simp [h5, h6]
    · by_cases h7 : i < off + 2
      · have h4 : b.start + off ≤ b.start + i ∧ b.start + i < b.start + off + (0 + 1 + 1) := by omega
        rw [dif_pos h4]
        have h5 : i < min off b.len + (0 + 1 + 1) := by omega
        have h6 : ¬ i < min off b.len := by omega
        simp only [h5, h6, dif_pos, dif_neg, not_false_eq_true]
        congr 1
        omega
      · have h4 : ¬ (b.start + off ≤ b.start + i ∧ b.start + i < b.start + off + (0 + 1 + 1)) := by omega
        rw [dif_neg h4]
        have h5 : ¬ i < min off b.len + (0 + 1 + 1) := by omega
        simp only [h5, dif_neg, not_false_eq_true]
        congr 1
        omega

theorem length_zeroField (bs : Bytes) (off : Nat) (h : off + 2 ≤ bs.length) :
    (Wire.zeroField bs off).length = bs.length := by
  simp [Wire.zeroField]; omega

/-- Zeroing a field commutes with keeping a prefix that contains it. -/
theorem take_zeroField (bs : Bytes) (off n : Nat) (h : off + 2 ≤ n) (hl : n ≤ bs.length) :
    (Wire.zeroField bs off).take n = Wire.zeroField (bs.take n) off := by
  unfold Wire.zeroField
  rw [List.take_append, List.take_append, List.take_take, List.take_take, List.drop_take]
  have e1 : min n off = off := by omega
  have e2 : min off n = off := by omega
  rw [e1, e2]
  simp only [List.length_append, List.length_take, List.length_cons, List.length_nil]
  have e3 : min off bs.length = off := by omega
  rw [e3]
  have e4 : List.take (n - off) ([0#8, 0#8] : Bytes) = [0#8, 0#8] := by
    apply List.take_of_length_le
    simp; omega
  rw [e4]

/-- The zero-and-restore of a verification: what it leaves is the same Buffer (R163, R262). -/
theorem State.zero_restore (s : State) (off : Nat) (h : off + 2 ≤ s.buf.len) (k : State → State → Run) :
    ((s.onBuffer .buf (Buffer.memWrite off 2 0)).andThen fun s1 =>
      (s1.onBuffer .buf (Buffer.memWrite off 2 (beAt s.buf.window off 2))).andThen fun s2 => k s1 s2) =
    k (s.setBuffer .buf { s.buf with data := s.buf.data.setBytes (s.buf.start + off) (bytesOf 2 0) })
      (s.setBuffer .buf (s.buf.rewritten off)) := by
  rw [State.onBuffer_some (Buffer.memWrite_of_le 0 h), Run.done_andThen,
    State.onBuffer_some (Buffer.memWrite_of_le _ (by simpa using h)), Run.done_andThen]
  rfl

/-! ### UDP_RX -/

/-- Everything `UDP_RX` can do (R185 to R192). -/
theorem udpRx_spec (s : State) :
    ∃ b : Buffer, b.Same s.buf ∧
    udpRx s =
      match Wire.udpGate s.latches.ip s.ifIp s.buf.window with
      | some r => .drop r (s.setBuffer .buf b)
      | none =>
        match s.ports.lookup (BitVec.ofNat 16 (beAt s.buf.window 2 2)) with
        | none =>
          if 20 ≤ s.buf.start then
            .notify .portUnreach ((s.setBuffer .buf (b.slide (b.start - 20) (b.len + 20))).emit
              (.icmpUnreach (s.buf.bytesFrom (s.buf.start - 20) 20 ++ s.buf.window) s.latches.ip .portUnreachable))
          else .fail .buf (s.setBuffer .buf b)
        | some h =>
          .done ((s.setBuffer .buf (b.slide (b.start + 8) (b.len - 8))).emit
            (.handler h (Wire.udpPayload s.buf.window) (BitVec.ofNat 16 (beAt s.buf.window 4 2 - 8)) s.latches.ip
              (BitVec.ofNat 16 (beAt s.buf.window 0 2)))) := by
  unfold udpRx Wire.udpGate
  simp only [Buffer.length_window]
  by_cases h1 : s.buf.len < 8
  · exact ⟨s.buf, .refl _, by simp only [h1, if_true]; rfl⟩
  rw [if_neg h1, if_neg h1, State.readBuf_of_le _ (by omega)]
  by_cases h2 : s.buf.len < beAt s.buf.window 4 2 ∨ beAt s.buf.window 4 2 < 8
  · exact ⟨s.buf, .refl _, by simp only [h2, if_true]; rfl⟩
  rw [if_neg h2, if_neg h2, State.readBuf_of_le _ (by omega)]
  rw [State.zero_restore s 6 (by omega)]
  have same := Buffer.rewritten_same s.buf 6 (by omega)
  refine ⟨s.buf.rewritten 6, same, ?_⟩
  simp only [State.setBuffer_buf_buf, State.setBuffer_ports]
  rw [Buffer.window_zeroed s.buf 6 (by omega)]
  by_cases h3 : csum16 (pseudoHeader s.latches.ip s.ifIp (beAt s.buf.window 4 2) ++
      (Wire.zeroField s.buf.window 6).take (beAt s.buf.window 4 2)) ≠ beAt s.buf.window 6 2
  · rw [if_pos h3, if_pos h3]
  rw [if_neg h3, if_neg h3]
  have hb : (s.setBuffer .buf (s.buf.rewritten 6)).buffer .buf = s.buf.rewritten 6 := rfl
  have hl : (s.setBuffer .buf (s.buf.rewritten 6)).buf.len = s.buf.len := rfl
  have hw : (s.setBuffer .buf (s.buf.rewritten 6)).buf.window = s.buf.window := same.window
  rw [State.readBuf_of_le _ (by rw [hl]; omega), State.readBuf_of_le _ (by rw [hl]; omega), hw]
  cases hp : s.ports.lookup (BitVec.ofNat 16 (beAt s.buf.window 2 2)) with
  | none =>
    simp only
    by_cases h4 : 20 ≤ s.buf.start
    · rw [if_pos h4, State.onBuffer_some (Buffer.addHeader_of_le (by rw [hb, same.start]; exact h4)), Run.done_andThen]
      simp only [State.buffer_setBuffer, State.setBuffer_buf_buf, State.setBuffer_latches, Buffer.slide_window]
      rw [same.start, same.len, Nat.add_comm, same.bytesFrom, Buffer.bytesFrom_add, Nat.sub_add_cancel h4, Nat.add_comm]
      rfl
    · rw [if_neg h4, State.onBuffer_none (by rw [hb]; exact if_neg h4)]
      rfl
  | some hnd =>
    simp only
    rw [State.onBuffer_some (Buffer.removeHeader_of_le (by rw [hb, same.len]; omega)), Run.done_andThen]
    simp only [State.buffer_setBuffer, State.setBuffer_buf_buf, State.setBuffer_latches, Buffer.slide_window]
    rw [same.start, same.len, same.bytesFrom, ← Buffer.drop_bytesFrom]
    rfl

/-! ### IP_RX -/

/-- How `IP_RX` hands a datagram over: the source address as a 4-byte source, key 17 (R160). -/
def State.toTransport (src : IpAddr) (s : State) : State :=
  s.callWith .netDispatch fun l => { l with src := srcLatch (.ip src), srcw := 4#8, proto16 := 17#16 }

/-- Everything `IP_RX` can do before the hand-over (R160 to R169). -/
theorem ipRx_spec (s : State) :
    ∃ b : Buffer, b.Same s.buf ∧
    ipRx s =
      match Wire.ipGate s.ifIp s.buf.window with
      | some r => .drop r (s.setBuffer .buf b)
      | none =>
        if beAt s.buf.window 9 1 = 17 then
          transportDispatch ((s.setBuffer .buf (b.slide (b.start + 20) (beAt s.buf.window 2 2 - 20))).toTransport
            (BitVec.ofNat 32 (beAt s.buf.window 12 4)))
        else
          .notify .protoUnreach ((s.setBuffer .buf (b.slide b.start (beAt s.buf.window 2 2))).emit
            (.icmpUnreach (Wire.ipTrim s.buf.window) (BitVec.ofNat 32 (beAt s.buf.window 12 4))
              .protocolUnreachable)) := by
  unfold ipRx Wire.ipGate
  simp only [Buffer.length_window]
  by_cases h1 : s.buf.len < 20
  · exact ⟨s.buf, .refl _, by simp only [h1, if_true]; rfl⟩
  rw [if_neg h1, if_neg h1, State.readBuf_of_le _ (by omega)]
  by_cases h2 : beAt s.buf.window 0 1 / 16 ≠ 4
  · exact ⟨s.buf, .refl _, by rw [if_pos h2, if_pos h2]; rfl⟩
  rw [if_neg h2, if_neg h2, State.readBuf_of_le _ (by omega)]
  by_cases h3 : s.buf.len < beAt s.buf.window 2 2 ∨ beAt s.buf.window 2 2 < 20
  · exact ⟨s.buf, .refl _, by rw [if_pos h3, if_pos h3]; rfl⟩
  rw [if_neg h3, if_neg h3, State.readBuf_of_le _ (by omega), State.zero_restore s 10 (by omega)]
  have same := Buffer.rewritten_same s.buf 10 (by omega)
  refine ⟨s.buf.rewritten 10, same, ?_⟩
  have hz := Buffer.window_zeroed s.buf 10 (by omega)
  have ht := take_zeroField s.buf.window 10 20 (by omega) (by simp; omega)
  simp only [State.setBuffer_buf_buf, hz, ht]
  by_cases h4 : csum16 (Wire.zeroField (s.buf.window.take 20) 10) ≠ beAt s.buf.window 10 2
  · rw [if_pos h4, if_pos h4]
  rw [if_neg h4, if_neg h4]
  have hb : (s.setBuffer .buf (s.buf.rewritten 10)).buffer .buf = s.buf.rewritten 10 := rfl
  have hl : (s.setBuffer .buf (s.buf.rewritten 10)).buf.len = s.buf.len := rfl
  have hw : (s.setBuffer .buf (s.buf.rewritten 10)).buf.window = s.buf.window := same.window
  rw [State.readBuf_of_le _ (by rw [hl]; omega), hw, State.setBuffer_ifIp]
  have hlt : beAt s.buf.window 16 4 < 2 ^ 32 := by
    have := beNat_lt ((s.buf.window.drop 16).take 4)
    have h5 : ((s.buf.window.drop 16).take 4).length = 4 := by simp; omega
    rw [h5] at this
    exact this
  have hdst : BitVec.ofNat 32 (beAt s.buf.window 16 4) ≠ s.ifIp ↔ beAt s.buf.window 16 4 ≠ s.ifIp.toNat := by
    rw [not_iff_not, ← BitVec.toNat_inj, BitVec.toNat_ofNat, Nat.mod_eq_of_lt hlt]
  by_cases h5 : beAt s.buf.window 16 4 ≠ s.ifIp.toNat
  · rw [if_pos (hdst.2 h5), if_pos h5]
  rw [if_neg (fun h => h5 (hdst.1 h)), if_neg h5]
  have htl : 20 ≤ beAt s.buf.window 2 2 ∧ beAt s.buf.window 2 2 ≤ s.buf.len := by omega
  rw [State.onBuffer_some (Buffer.removePadding_of_le (by rw [hb]; omega)), Run.done_andThen]
  have e3 : (s.setBuffer .buf (s.buf.rewritten 10)).setBuffer .buf
      (((s.setBuffer .buf (s.buf.rewritten 10)).buffer .buf).slide
        ((s.setBuffer .buf (s.buf.rewritten 10)).buffer .buf).start
        (((s.setBuffer .buf (s.buf.rewritten 10)).buffer .buf).len -
          ((s.buf.rewritten 10).len - beAt s.buf.window 2 2))) =
      s.setBuffer .buf ((s.buf.rewritten 10).slide (s.buf.rewritten 10).start (beAt s.buf.window 2 2)) := by
    rw [hb, same.len, Nat.sub_sub_self htl.2]
    rfl
  rw [e3]
  have hl3 : (s.setBuffer .buf ((s.buf.rewritten 10).slide (s.buf.rewritten 10).start (beAt s.buf.window 2 2))).buf.len =
    beAt s.buf.window 2 2 := rfl
  have hw3 : (s.setBuffer .buf ((s.buf.rewritten 10).slide (s.buf.rewritten 10).start
      (beAt s.buf.window 2 2))).buf.window = Wire.ipTrim s.buf.window := by
    rw [State.setBuffer_buf_buf, Buffer.slide_window, same.start, same.bytesFrom, Wire.ipTrim,
      Buffer.take_window _ htl.2]
  have hread : ∀ off n, off + n ≤ 20 → beAt (Wire.ipTrim s.buf.window) off n = beAt s.buf.window off n :=
    fun off n hn => beAt_take _ off n _ (by omega)
  rw [State.readBuf_of_le _ (by rw [hl3]; omega), State.readBuf_of_le _ (by rw [hl3]; omega), hw3,
    hread 9 1 (by omega), hread 12 4 (by omega),
    State.onBuffer_some (Buffer.removeHeader_of_le (by rw [State.buffer_setBuffer, Buffer.slide_len]; omega)),
    Run.done_andThen]
  by_cases h6 : beAt s.buf.window 9 1 = 17
  · rw [if_neg (by simpa using h6)]
    simp only [h6, if_true]
    rfl
  · rw [if_pos h6]
    simp only [h6, if_false]
    rw [State.onBuffer_some (Buffer.addHeader_of_le (by
      simp only [State.buffer_setBuffer, Buffer.slide_start]; omega)), Run.done_andThen]
    have e5 : ∀ t : State, (t.setBuffer .buf ((t.buffer .buf).slide ((t.buffer .buf).start) ((t.buffer .buf).len))) = t :=
      fun _ => rfl
    simp only [State.buffer_setBuffer, Buffer.slide_start, Buffer.slide_len, Nat.add_sub_cancel,
      Nat.sub_add_cancel htl.1, State.setBuffer_buf_buf]
    rw [Buffer.slide_window, Buffer.slide_bytesFrom, Buffer.slide_bytesFrom, same.start, same.bytesFrom, Wire.ipTrim,
      Buffer.take_window _ htl.2]
    rfl

/-! ### ETH_RX -/

/-- How `ETH_RX` hands a frame over: the source MAC as a 6-byte source, the EtherType as key (R141). -/
def State.toNetwork (frame : Bytes) (s : State) : State :=
  s.callWith .netDispatch fun l =>
    { l with src := BitVec.ofNat 48 (beAt frame 6 6), srcw := 6#8, proto16 := BitVec.ofNat 16 (beAt frame 12 2) }

/-- Everything `ETH_RX` can do before the hand-over (R141, R142). -/
theorem ethRx_spec (s : State) :
    ethRx s =
      if s.buf.len < 14 then .drop .ethShort s
      else netDispatch ((s.setBuffer .buf (s.buf.slide (s.buf.start + 14) (s.buf.len - 14))).toNetwork s.buf.window) := by
  unfold ethRx
  by_cases h : s.buf.len < 14
  · rw [if_pos h, if_pos h]
  · rw [if_neg h, if_neg h, State.readBuf_of_le _ (by omega), State.readBuf_of_le _ (by omega),
      State.onBuffer_some (Buffer.removeHeader_of_le (by simp only [State.buffer_buf]; omega)), Run.done_andThen]
    rfl

end Sys2Proof.Machine
end

