-- ==== Sys2Proof/Laws/Outcome.lean ====
section
/-!
SUPPORT. What the receive units answer, as functions of the tables, the interface's address and the bytes received: how
the chain of calls ends and which events leave. One lemma for each unit, with everything it writes.
-/
namespace Sys2Proof.Machine

/-- How a chain ends, and the events it emitted. -/
abbrev Answer := Option EarlyEnd × List Event

/-- `UDP_RX` of the datagram `d` from `src`, with the 20 bytes `before` in front of it (R185). -/
def State.udpAnswer (s : State) (src : IpAddr) (before d : Bytes) : Answer :=
  match Wire.udpGate src s.ifIp d with
  | some r => (some (.drop r), [])
  | none =>
    match s.ports.lookup (BitVec.ofNat 16 (beAt d 2 2)) with
    | none => (some (.notify .portUnreach), [.icmpUnreach (before ++ d) src .portUnreachable])
    | some h =>
      (none, [.handler h (Wire.udpPayload d) (BitVec.ofNat 16 (beAt d 4 2 - 8)) src (BitVec.ofNat 16 (beAt d 0 2))])

/-- `NET_DISPATCH` of `d` with the source `src` under `key`; `ip` is what `IP_RX` would answer (R154 to R158). -/
def State.dispatchAnswer (s : State) (ip : Except Refusal Answer) (src : Source) (key : Half) (before d : Bytes) :
    Except Refusal Answer :=
  match s.dispatch.lookup key with
  | none => .ok (some (.drop .noHandler), [])
  | some h =>
    if h = Config.hIpRx then
      match src with
      | .mac _ => ip
      | .ip _ => .error .wrongSource
    else if h = Config.hUdpRx then
      match src with
      | .mac _ => .error .wrongSource
      | .ip a => .ok (s.udpAnswer a before d)
    else .ok (none, [.upward h d key (src.srcBytes.take src.width.toNat)])

/-- `IP_RX` of the bytes `d` (R160). -/
def State.ipAnswer (s : State) (d : Bytes) : Except Refusal Answer :=
  match Wire.ipGate s.ifIp d with
  | some r => .ok (some (.drop r), [])
  | none =>
    if beAt d 9 1 = 17 then
      s.dispatchAnswer (.error .wrongSource) (.ip (BitVec.ofNat 32 (beAt d 12 4))) 17#16 (d.take 20)
        ((Wire.ipTrim d).drop 20)
    else
      .ok (some (.notify .protoUnreach),
        [.icmpUnreach (Wire.ipTrim d) (BitVec.ofNat 32 (beAt d 12 4)) .protocolUnreachable])

/-- `NET_DISPATCH` as a command or from `ETH_RX` (R154). -/
def State.netAnswer (s : State) (src : Source) (key : Half) (before d : Bytes) : Except Refusal Answer :=
  s.dispatchAnswer (s.ipAnswer d) src key before d

/-- `ETH_RX` of a frame (R141). -/
def State.ethAnswer (s : State) (f : Bytes) : Except Refusal Answer :=
  if f.length < 14 then .ok (some (.drop .ethShort), [])
  else s.netAnswer (.mac (BitVec.ofNat 48 (beAt f 6 6))) (BitVec.ofNat 16 (beAt f 12 2)) [] (f.drop 14)

/-- A chain that started in `s` ends as an answer says: beside the events it writes only the window's place and the
latches, and every byte of BUF reads as before (R163, R191, R262). -/
def Run.Gives (s : State) (r : Run) : Except Refusal Answer → Prop
  | .ok (early, es) => ∃ (b : Buffer) (l : Latches), (∀ a, b.byteAt a = s.buf.byteAt a) ∧
      r = .ended early { s with buf := b, latches := l, trace := s.trace ++ es.map .event }
  | .error x => r = .refused x

theorem Run.gives_of_same {s : State} (t : State) {r : Run} {x : Except Refusal Answer}
    (ht : t = { s with buf := t.buf, latches := t.latches }) (hb : ∀ a, t.buf.byteAt a = s.buf.byteAt a)
    (h : r.Gives t x) : r.Gives s x := by
  cases x with
  | error x => exact h
  | ok a =>
    obtain ⟨c, l', hc, hr⟩ := h
    rw [ht] at hr
    exact ⟨c, l', fun a => (hc a).trans (hb a), hr⟩

theorem Run.gives_ended {s : State} {early : Option EarlyEnd} {b : Buffer} {l : Latches} (es : List Event)
    (hb : ∀ a, b.byteAt a = s.buf.byteAt a) :
    (Run.ended early { s with buf := b, latches := l, trace := s.trace ++ es.map .event }).Gives s (.ok (early, es)) :=
  ⟨b, l, hb, rfl⟩

/-- An end without events. -/
theorem Run.gives_quiet {s : State} {early : Option EarlyEnd} {b : Buffer} {l : Latches}
    (hb : ∀ a, b.byteAt a = s.buf.byteAt a) :
    (Run.ended early { s with buf := b, latches := l }).Gives s (.ok (early, [])) :=
  ⟨b, l, hb, by simp⟩

theorem udpRx_gives (s : State) (hs : 20 ≤ s.buf.start) :
    (udpRx s).Gives s (.ok (s.udpAnswer s.latches.ip (s.buf.bytesFrom (s.buf.start - 20) 20) s.buf.window)) := by
  obtain ⟨b, same, h⟩ := udpRx_spec s
  rw [h]
  unfold State.udpAnswer
  cases Wire.udpGate s.latches.ip s.ifIp s.buf.window with
  | some r => exact Run.gives_quiet same.byteAt
  | none =>
    simp only
    cases s.ports.lookup (BitVec.ofNat 16 (beAt s.buf.window 2 2)) with
    | none =>
      simp only
      rw [if_pos hs]
      exact ⟨b.slide (b.start - 20) (b.len + 20), s.latches, same.byteAt, rfl⟩
    | some hnd => exact ⟨b.slide (b.start + 8) (b.len - 8), s.latches, same.byteAt, rfl⟩

theorem srcIp_srcLatch (a : IpAddr) (l : Latches) (h : l.src = srcLatch (.ip a)) : l.srcIp = a := by
  apply BitVec.eq_of_toNat_eq
  have := a.isLt
  simp only [Latches.srcIp, h, srcLatch, BitVec.toNat_ofNat]
  omega

theorem srcBytes_srcLatch (src : Source) (l : Latches) (h : l.src = srcLatch src) (hw : l.srcw = src.width) :
    l.srcBytes = src.srcBytes.take src.width.toNat := by
  unfold Latches.srcBytes
  rw [h, hw]
  congr 1
  cases src with
  | mac a => rfl
  | ip a =>
    have := a.isLt
    apply beNat_inj
    · simp [Source.srcBytes]
    · rw [beNat_bytesOf, Source.srcBytes, beNat_append, beNat_bytesOf]
      have e : beNat (zeros 2) = 0 := rfl
      simp only [srcLatch, BitVec.toNat_ofNat, length_zeros, e]
      omega

/-- `NET_DISPATCH` with a source in its latches, given what the validator answers. -/
theorem dispatchTo_gives {f : State → Run} (s : State) (src : Source) (ip : Except Refusal Answer)
    (hsrc : s.latches.src = srcLatch src) (hw : s.latches.srcw = src.width) (hs : 20 ≤ s.buf.start)
    (hf : ∀ a, src = .mac a → (f (s.callWith .ipRx fun l => { l with mac := l.src })).Gives
      (s.callWith .ipRx fun l => { l with mac := l.src }) ip) :
    (dispatchTo f s).Gives s
      (s.dispatchAnswer ip src s.latches.proto16 (s.buf.bytesFrom (s.buf.start - 20) 20) s.buf.window) := by
  unfold dispatchTo State.dispatchAnswer
  cases s.dispatch.lookup s.latches.proto16 with
  | none => exact Run.gives_quiet (s := s) (b := s.buf) (l := s.latches) fun _ => rfl
  | some h =>
    simp only
    by_cases h1 : h = Config.hIpRx
    · rw [if_pos h1, if_pos h1]
      cases src with
      | mac a =>
        rw [if_pos (by rw [hw]; rfl)]
        exact Run.gives_of_same (s.callWith .ipRx fun l => { l with mac := l.src }) rfl (fun _ => rfl) (hf a rfl)
      | ip a =>
        rw [if_neg (by rw [hw, Source.width]; decide)]
        rfl
    · rw [if_neg h1, if_neg h1]
      by_cases h2 : h = Config.hUdpRx
      · rw [if_pos h2, if_pos h2]
        cases src with
        | mac a =>
          rw [if_neg (by rw [hw, Source.width]; decide)]
          rfl
        | ip a =>
          rw [if_pos (by rw [hw]; rfl)]
          have hsrcip : s.latches.srcIp = a := srcIp_srcLatch a _ hsrc
          have := udpRx_gives (s.callWith .udpRx fun l => { l with ip := l.srcIp }) hs
          refine Run.gives_of_same (s.callWith .udpRx fun l => { l with ip := l.srcIp }) rfl (fun _ => rfl) ?_
          rw [← hsrcip]
          exact this
      · rw [if_neg h2, if_neg h2]
        rw [← srcBytes_srcLatch src _ hsrc hw]
        exact ⟨s.buf, s.latches, fun _ => rfl, rfl⟩

theorem ipRx_gives (s : State) : (ipRx s).Gives s (s.ipAnswer s.buf.window) := by
  obtain ⟨b, same, h⟩ := ipRx_spec s
  rw [h]
  unfold State.ipAnswer
  cases hg : Wire.ipGate s.ifIp s.buf.window with
  | some r => exact Run.gives_quiet same.byteAt
  | none =>
    simp only
    by_cases h6 : beAt s.buf.window 9 1 = 17
    · rw [if_pos h6, if_pos h6]
      have hlen : 20 ≤ s.buf.len ∧ 20 ≤ beAt s.buf.window 2 2 ∧ beAt s.buf.window 2 2 ≤ s.buf.len := by
        unfold Wire.ipGate at hg
        rw [Buffer.length_window] at hg
        split at hg
        · cases hg
        split at hg
        · cases hg
        split at hg
        · cases hg
        omega
      refine Run.gives_of_same ((s.setBuffer .buf (b.slide (b.start + 20) (beAt s.buf.window 2 2 - 20))).toTransport
        (BitVec.ofNat 32 (beAt s.buf.window 12 4))) rfl same.byteAt ?_
      have key := dispatchTo_gives (f := fun _ => .refused .wrongSource)
        ((s.setBuffer .buf (b.slide (b.start + 20) (beAt s.buf.window 2 2 - 20))).toTransport
            (BitVec.ofNat 32 (beAt s.buf.window 12 4))) (.ip (BitVec.ofNat 32 (beAt s.buf.window 12 4)))
        (.error .wrongSource) rfl rfl (by
          show 20 ≤ b.start + 20
          omega) (by intro a ha; cases ha)
      have hw : (b.slide (b.start + 20) (beAt s.buf.window 2 2 - 20)).window = (Wire.ipTrim s.buf.window).drop 20 := by
        rw [Buffer.slide_window, same.start, same.bytesFrom, Wire.ipTrim, Buffer.take_window _ hlen.2.2,
          Buffer.drop_bytesFrom]
      have hbef : (b.slide (b.start + 20) (beAt s.buf.window 2 2 - 20)).bytesFrom (b.start + 20 - 20) 20 =
          s.buf.window.take 20 := by
        rw [Buffer.slide_bytesFrom, Nat.add_sub_cancel, same.start, same.bytesFrom, Buffer.take_window _ hlen.1]
      rw [← hw, ← hbef]
      exact key
    · rw [if_neg h6, if_neg h6]
      exact ⟨b.slide b.start (beAt s.buf.window 2 2), s.latches, same.byteAt, rfl⟩

theorem netDispatch_gives (s : State) (src : Source) (hsrc : s.latches.src = srcLatch src)
    (hw : s.latches.srcw = src.width) (hs : 20 ≤ s.buf.start) :
    (netDispatch s).Gives s
      (s.netAnswer src s.latches.proto16 (s.buf.bytesFrom (s.buf.start - 20) 20) s.buf.window) :=
  dispatchTo_gives s src (s.ipAnswer s.buf.window) hsrc hw hs fun _ _ =>
    ipRx_gives (s.callWith .ipRx fun l => { l with mac := l.src })

theorem State.netAnswer_mac (s : State) (a : MacAddr) (key : Half) (before before' d : Bytes) :
    s.netAnswer (.mac a) key before d = s.netAnswer (.mac a) key before' d := by
  unfold State.netAnswer State.dispatchAnswer
  rfl

theorem ethRx_gives (s : State) (hs : 42 ≤ s.buf.start) : (ethRx s).Gives s (s.ethAnswer s.buf.window) := by
  rw [ethRx_spec]
  unfold State.ethAnswer
  rw [Buffer.length_window]
  by_cases h : s.buf.len < 14
  · rw [if_pos h, if_pos h]
    exact Run.gives_quiet (s := s) (b := s.buf) (l := s.latches) fun _ => rfl
  · rw [if_neg h, if_neg h]
    refine Run.gives_of_same ((s.setBuffer .buf (s.buf.slide (s.buf.start + 14) (s.buf.len - 14))).toNetwork
      s.buf.window) rfl (fun _ => rfl) ?_
    have key := netDispatch_gives
      ((s.setBuffer .buf (s.buf.slide (s.buf.start + 14) (s.buf.len - 14))).toNetwork s.buf.window)
      (.mac (BitVec.ofNat 48 (beAt s.buf.window 6 6))) rfl rfl (by
        show 20 ≤ s.buf.start + 14
        omega)
    have hw : (s.buf.slide (s.buf.start + 14) (s.buf.len - 14)).window = s.buf.window.drop 14 := by
      rw [Buffer.slide_window, Buffer.window, Buffer.drop_bytesFrom]
    rw [State.netAnswer_mac s _ _ [] ((s.buf.slide (s.buf.start + 14) (s.buf.len - 14)).bytesFrom
      (s.buf.start + 14 - 20) 20), ← hw]
    exact key

end Sys2Proof.Machine
end

