-- ==== Sys2Proof/Laws/Transmit.lean ====
section
/-!
SUPPORT. What the transmit units do, once each: `IP_FRAG_EMIT`, the loop of `IP_TX`, `UDP_TX`, `ETH_TX` as functions of the
bytes in the window (41_ethernet.md R145, 44_ipv4_tx.md R170, R175, 45_udp.md R193).
-/
namespace Sys2Proof.Machine

/-! ### A header written in front of the window -/

/-- The Buffer with a header stored in front of its window (R64, R98). -/
def Buffer.prepended (b : Buffer) (header : Bytes) : Buffer :=
  { data := b.data.setBytes (b.start - header.length) header, start := b.start - header.length,
    len := b.len + header.length, epoch := b.epoch }

@[simp] theorem Buffer.prepended_start (b : Buffer) (h : Bytes) : (b.prepended h).start = b.start - h.length := rfl
@[simp] theorem Buffer.prepended_len (b : Buffer) (h : Bytes) : (b.prepended h).len = b.len + h.length := rfl

theorem Buffer.prepended_byteAt (b : Buffer) (h : Bytes) (a : Nat) :
    (b.prepended h).byteAt a =
      ({ b with data := b.data.setBytes (b.start - h.length) h } : Buffer).byteAt a := rfl

theorem Buffer.window_prepended (b : Buffer) (h : Bytes) (hs : h.length ≤ b.start) :
    (b.prepended h).window = h ++ b.window := by
  have e : (b.prepended h).window =
      ({ b with data := b.data.setBytes (b.start - h.length) h } : Buffer).bytesFrom (b.start - h.length)
        (h.length + b.len) := by
    rw [Nat.add_comm]; rfl
  rw [e, Buffer.bytesFrom_add, Buffer.bytesFrom_setBytes_self,
    Buffer.bytesFrom_setBytes_disjoint _ _ _ _ _ (by right; omega), Nat.sub_add_cancel hs]
  rfl

/-- The Buffer with bytes stored behind its window (R65). -/
def Buffer.extended (b : Buffer) (tail : Bytes) : Buffer :=
  { data := b.data.setBytes (b.start + b.len) tail, start := b.start, len := b.len + tail.length, epoch := b.epoch }

theorem Buffer.window_extended (b : Buffer) (tail : Bytes) : (b.extended tail).window = b.window ++ tail := by
  have e : (b.extended tail).window =
      ({ b with data := b.data.setBytes (b.start + b.len) tail } : Buffer).bytesFrom b.start (b.len + tail.length) := rfl
  rw [e, Buffer.bytesFrom_add, Buffer.bytesFrom_setBytes_self,
    Buffer.bytesFrom_setBytes_disjoint _ _ _ _ _ (by left; omega)]
  rfl

/-- `buf_add_header` and then the header's fields: one store in front of the window (R98). -/
theorem State.putHeader {w : BufId} {s : State} {fields : List (Nat × Nat × Nat)} (hc : contiguous 0 fields = true)
    (n : Nat) (hn : (fieldBytes fields).length = n) (hs : n ≤ (s.buffer w).start) :
    ((s.onBuffer w (Buffer.addHeader n)).andThen fun s1 => s1.onBuffer w (Buffer.memWrites fields)) =
      .done (s.setBuffer w ((s.buffer w).prepended (fieldBytes fields))) := by
  subst hn
  rw [State.onBuffer_some (Buffer.addHeader_of_le hs), Run.done_andThen,
    State.onBuffer_some (Buffer.memWrites_contiguous hc (by simp only [State.buffer_setBuffer, Buffer.slide_len]; omega))]
  cases w <;> rfl

/-- Replacing a stored field: the checksum goes over the zeros (R173). -/
theorem Buffer.overwrite (b : Buffer) (pre old new post : Bytes) (hl : old.length = new.length)
    (hs : (pre ++ old ++ post).length ≤ b.start) :
    ∃ c : Buffer, (b.prepended (pre ++ old ++ post)).memWrite pre.length new.length (beNat new) = some c ∧
      c.start = b.start - (pre ++ old ++ post).length ∧ c.len = b.len + (pre ++ old ++ post).length ∧
      c.window = pre ++ new ++ post ++ b.window ∧ c.epoch = b.epoch ∧
      c.data = (b.data.setBytes (b.start - (pre ++ old ++ post).length) (pre ++ old ++ post)).setBytes
        (b.start - (pre ++ old ++ post).length + pre.length) new ∧
      (∀ a, ¬ (b.start - (pre ++ old ++ post).length ≤ a ∧ a < b.start) → c.byteAt a = b.byteAt a) := by
  have hle : pre.length + new.length ≤ (b.prepended (pre ++ old ++ post)).len := by
    simp only [Buffer.prepended_len, List.length_append]; omega
  refine ⟨_, Buffer.memWrite_of_le _ hle, rfl, rfl, ?_, rfl, ?_, ?_⟩
  · rw [bytesOf_beNat]
    have h1 := Buffer.window_prepended b (pre ++ old ++ post) hs
    generalize b.prepended (pre ++ old ++ post) = p at *
    have hlen : p.len = pre.length + (new.length + (post.length + b.len)) := by
      have := congrArg List.length h1
      simp only [Buffer.length_window, List.length_append] at this
      omega
    have hw : ∀ n, n = p.len → ({ p with data := p.data.setBytes (p.start + pre.length) new } : Buffer).window =
        ({ p with data := p.data.setBytes (p.start + pre.length) new } : Buffer).bytesFrom p.start n := by
      rintro n rfl; rfl
    rw [hw _ hlen.symm, Buffer.bytesFrom_add, Buffer.bytesFrom_add, Buffer.bytesFrom_setBytes_self,
      Buffer.bytesFrom_setBytes_disjoint _ _ _ _ _ (by left; omega),
      Buffer.bytesFrom_setBytes_disjoint _ _ _ _ _ (by right; omega)]
    have h2 : p.bytesFrom p.start p.len = pre ++ (old ++ (post ++ b.window)) := by
      rw [← List.append_assoc, ← List.append_assoc, ← h1]; rfl
    rw [hlen, ← hl, Buffer.bytesFrom_add, Buffer.bytesFrom_add] at h2
    have h3 := List.append_inj h2 (by simp)
    have h4 := List.append_inj h3.2 (by simp)
    rw [h3.1, ← hl, h4.2]
    simp only [List.append_assoc]
  · rw [bytesOf_beNat]; rfl
  · intro a ha
    rw [bytesOf_beNat, Buffer.byteAt_setBytes_of_not_mem _ (by
      simp only [Buffer.prepended_start, List.length_append] at *; omega)]
    rw [Buffer.prepended_byteAt, Buffer.byteAt_setBytes_of_not_mem _ (by omega)]

/-! ### IP_FRAG_EMIT -/

/-- The header the latches describe for a payload of `n` bytes (R172). -/
def State.fragHeader (s : State) (n : Nat) : Wire.Ipv4 where
  ttl := s.ipTtlDefault
  src := s.ifIp
  dst := s.latches.ip
  proto := s.latches.proto8
  ident := s.latches.ident
  off := s.latches.off
  mf := s.latches.mf
  len := n

/-- The header bytes before the checksum field (R92). -/
def fragBefore (h : Wire.Ipv4) : Bytes :=
  [0x45#8, 0x00#8] ++ bytesOf 2 (20 + h.len) ++ bytesOf 2 h.ident.toNat ++
    bytesOf 2 (h.mf.toNat * 0x2000 + h.off.toNat / 8) ++ [h.ttl, h.proto]

/-- The header bytes after the checksum field (R92). -/
def fragAfter (h : Wire.Ipv4) : Bytes := bytesOf 4 h.src.toNat ++ bytesOf 4 h.dst.toNat

@[simp] theorem length_fragBefore (h : Wire.Ipv4) : (fragBefore h).length = 10 := by simp [fragBefore]
@[simp] theorem length_fragAfter (h : Wire.Ipv4) : (fragAfter h).length = 8 := by simp [fragAfter]

theorem headerWith_split (h : Wire.Ipv4) (c : Nat) : h.headerWith c = fragBefore h ++ bytesOf 2 c ++ fragAfter h := by
  simp only [Wire.Ipv4.headerWith, fragBefore, fragAfter, List.append_assoc]

theorem bytesOf_one (b : Byte) : bytesOf 1 b.toNat = [b] := by
  simp [bytesOf]

/-- The fields `IP_FRAG_EMIT` writes are the header with a zero checksum field (R172). -/
theorem fieldBytes_ipv4Fields (h : Wire.Ipv4) :
    fieldBytes (ipv4Fields h.len h.ident h.mf h.off h.ttl h.proto h.src h.dst) = h.headerWith 0 := by
  have e1 : bytesOf 1 0x45 = [0x45#8] := rfl
  have e2 : bytesOf 1 0 = [0x00#8] := rfl
  simp only [fieldBytes, ipv4Fields, List.flatMap_cons, List.flatMap_nil, bytesOf_one, e1, e2, Wire.Ipv4.headerWith,
    List.append_assoc, List.append_nil, List.cons_append, List.nil_append]

theorem contiguous_ipv4Fields (n : Nat) (ident : Half) (mf : Bool) (off : Half) (ttl proto : Byte) (src dst : IpAddr) :
    contiguous 0 (ipv4Fields n ident mf off ttl proto src dst) = true := rfl

/-- Everything `IP_FRAG_EMIT` does once its operands are in their limits and the headroom is there (R170 to R174). -/
theorem ipFragEmit_spec (w : BufId) (s : State)
    (hop : fragOperandError s.latches.off (s.buffer w).len = none) (hs : 20 ≤ (s.buffer w).start) :
    ∃ c : Buffer, c.start = (s.buffer w).start - 20 ∧ c.len = (s.buffer w).len + 20 ∧ c.epoch = (s.buffer w).epoch ∧
      c.window = (s.fragHeader (s.buffer w).len).header ++ (s.buffer w).window ∧
      (∀ a, ¬ ((s.buffer w).start - 20 ≤ a ∧ a < (s.buffer w).start) → c.byteAt a = (s.buffer w).byteAt a) ∧
      ipFragEmit w s = .done ((s.setBuffer w c).emit
        (.arp ((s.fragHeader (s.buffer w).len).header ++ (s.buffer w).window) s.latches.ip)) := by
  have hf := fieldBytes_ipv4Fields (s.fragHeader (s.buffer w).len)
  revert hop hs hf
  generalize hb : s.buffer w = b
  generalize hh : s.fragHeader b.len = h
  intro hop hs hf
  have hlen : (fragBefore h ++ bytesOf 2 0 ++ fragAfter h).length = 20 := by simp
  obtain ⟨c, hc1, hc2, hc3, hc4, hc5, -, hc7⟩ := Buffer.overwrite b (fragBefore h) (bytesOf 2 0)
    (bytesOf 2 (csum16 (h.headerWith 0))) (fragAfter h) (by simp) (by rw [hlen]; exact hs)
  have hmod : csum16 (h.headerWith 0) % 256 ^ 2 = csum16 (h.headerWith 0) := by
    have := csum16_le (h.headerWith 0); omega
  rw [hlen] at hc2 hc3 hc7
  rw [← headerWith_split, length_fragBefore, length_bytesOf, beNat_bytesOf, hmod] at hc1
  rw [← headerWith_split] at hc4
  refine ⟨c, hc2, hc3, hc5, hc4, hc7, ?_⟩
  have hfields : fieldBytes (ipv4Fields b.len s.latches.ident s.latches.mf s.latches.off s.ipTtlDefault
      s.latches.proto8 s.ifIp s.latches.ip) = h.headerWith 0 := by
    rw [← hf, ← hh]; rfl
  unfold ipFragEmit
  rw [hb, hop]
  simp only
  rw [State.putHeader (w := w) (s := s) (contiguous_ipv4Fields _ _ _ _ _ _ _ _) 20 (by rw [hfields]; simp) (by rw [hb]; exact hs), hb, hfields,
    Run.done_andThen]
  have hwin : ((s.setBuffer w (b.prepended (h.headerWith 0))).buffer w).window.take 20 = h.headerWith 0 := by
    rw [State.buffer_setBuffer, Buffer.window_prepended _ _ (by simpa using hs)]
    exact List.take_left' (by simp)
  rw [hwin, State.onBuffer_some (b := c) (by rw [State.buffer_setBuffer]; exact hc1), Run.done_andThen,
    State.buffer_setBuffer, hc4]
  simp only [State.setBuffer_setBuffer, State.setBuffer_latches, Wire.Ipv4.header]

/-! ### IP_TX -/

/-- The operands of `IP_FRAG_EMIT` are in their limits (R171). -/
theorem fragOperandError_none {off : Half} {n : Nat} : fragOperandError off n = none ↔ off.toNat % 8 = 0 ∧ n ≤ 65515 := by
  unfold fragOperandError
  split
  · simp; omega
  · split <;> simp <;> omega

theorem fragHeader_callWith (s : State) (ip : IpAddr) (proto : Byte) (ident : Half) (off : Nat) (mf : Bool) (n : Nat) :
    (s.callWith .ipFragEmit fun l =>
      { l with ip := ip, proto8 := proto, ident := ident, off := BitVec.ofNat 16 off, mf := mf }).fragHeader n =
    { ttl := s.ipTtlDefault, src := s.ifIp, dst := ip, proto := proto, ident := ident, off := BitVec.ofNat 16 off,
      mf := mf, len := n } := rfl

/-- One turn of the loop of `IP_TX` (R175, R182). -/
theorem emitFragment_spec (ip : IpAddr) (proto : Byte) (ident : Half) (off : Nat) (mf : Bool) (chunk : Bytes) (s : State)
    (h8 : off % 8 = 0) (hlen : chunk.length ≤ 65515) (hfit : 42 + chunk.length ≤ s.caps.buf) :
    ∃ (c : Buffer) (lat : Latches),
      emitFragment ip proto ident off mf chunk s = .done { s with
        fbuf := c, latches := lat, draws := s.draws + 1,
        trace := s.trace ++ [.event (.arp (Wire.Ipv4.header
          { ttl := s.ipTtlDefault, src := s.ifIp, dst := ip, proto := proto, ident := ident,
            off := BitVec.ofNat 16 off, mf := mf, len := chunk.length } ++ chunk) ip)] } := by
  unfold emitFragment
  rw [State.loadBuffer_of_fits hfit, Run.done_andThen]
  obtain ⟨c, -, -, -, -, -, hc⟩ := ipFragEmit_spec .fbuf
    (({ s.setBuffer .fbuf (Buffer.loaded s.draws chunk) with draws := s.draws + 1 } : State).callWith .ipFragEmit fun l =>
      { l with ip := ip, proto8 := proto, ident := ident, off := BitVec.ofNat 16 off, mf := mf })
    (by
      rw [fragOperandError_none]
      refine ⟨?_, hlen⟩
      simp only [State.callWith_latches, BitVec.toNat_ofNat]
      omega)
    (by simp [State.buffer, State.setBuffer])
  rw [hc, fragHeader_callWith]
  have hw : (({ s.setBuffer .fbuf (Buffer.loaded s.draws chunk) with draws := s.draws + 1 } : State).callWith .ipFragEmit
      fun l => { l with ip := ip, proto8 := proto, ident := ident, off := BitVec.ofNat 16 off, mf := mf }).buffer .fbuf =
      Buffer.loaded s.draws chunk := rfl
  rw [hw, Buffer.window_loaded, Buffer.loaded_len]
  exact ⟨c, _, rfl⟩

/-- `ceil(n / maxp)` counts the chunks that begin inside the payload (R176). -/
theorem lt_fragmentCount {maxp n k : Nat} (hm : 0 < maxp) (hk : 1 ≤ k) : k < Wire.fragmentCount maxp n ↔ k * maxp < n := by
  unfold Wire.fragmentCount
  by_cases hn : n = 0
  · subst hn; simp; omega
  · rw [if_neg hn, Nat.lt_div_iff_mul_lt hm]
    have : (k * maxp) + maxp - 1 < n + maxp - 1 ↔ k * maxp < n := by omega
    omega

theorem fragmentCount_pos (maxp n : Nat) (hm : 0 < maxp) : 0 < Wire.fragmentCount maxp n := by
  unfold Wire.fragmentCount
  split
  · exact Nat.one_pos
  · exact Nat.div_pos (by omega) hm

/-- The loop of `IP_TX` from fragment `j` on (R175, R176). -/
theorem fragmentLoop_spec (maxp : Nat) (ip : IpAddr) (proto : Byte) (ident : Half) (p : Bytes)
    (hm : 0 < maxp) (h8 : maxp % 8 = 0) (hp : p.length ≤ 65515) (rounds : Nat) :
    ∀ (j : Nat) (s : State), j < Wire.fragmentCount maxp p.length → Wire.fragmentCount maxp p.length ≤ j + rounds →
      42 + min maxp p.length ≤ s.caps.buf →
      ∃ (c : Buffer) (lat : Latches),
        fragmentLoop maxp ip proto ident rounds (j * maxp) (p.drop (j * maxp)) s = .done { s with
          fbuf := c, latches := lat, draws := s.draws + (Wire.fragmentCount maxp p.length - j),
          trace := s.trace ++ (List.range' j (Wire.fragmentCount maxp p.length - j)).map fun i =>
            .event (.arp (Wire.fragment maxp s.ipTtlDefault s.ifIp ip proto ident p i) ip) } := by
  induction rounds with
  | zero => intro j s h1 h2; omega
  | succ rounds ih =>
    intro j s h1 h2 hfit
    have hj : j * maxp ≤ p.length := by
      rcases Nat.eq_zero_or_pos j with rfl | h
      · simp
      · exact Nat.le_of_lt ((lt_fragmentCount hm h).1 h1)
    have hoff8 : j * maxp % 8 = 0 := by rw [Nat.mul_mod, h8]; simp
    have hnext := lt_fragmentCount (n := p.length) hm (k := j + 1) (by omega)
    have hmul : (j + 1) * maxp = j * maxp + maxp := by ring
    have hchunk : (Wire.fragmentPayload maxp p j).length = min maxp (p.length - j * maxp) := by
      simp [Wire.fragmentPayload]
    unfold fragmentLoop
    rw [List.length_drop]
    by_cases hlast : maxp < p.length - j * maxp
    · rw [if_pos hlast]
      have hjn : j + 1 < Wire.fragmentCount maxp p.length := hnext.2 (by omega)
      obtain ⟨c, lat, hc⟩ := emitFragment_spec ip proto ident (j * maxp) true (Wire.fragmentPayload maxp p j) s hoff8
        (by omega) (by omega)
      rw [show List.take maxp (p.drop (j * maxp)) = Wire.fragmentPayload maxp p j from rfl, hc, Run.done_andThen,
        List.drop_drop, ← hmul]
      generalize hs1 : ({ s with
        fbuf := c
        latches := lat
        draws := s.draws + 1
        trace := s.trace ++ [.event (.arp (Wire.Ipv4.header
          { ttl := s.ipTtlDefault, src := s.ifIp, dst := ip, proto := proto, ident := ident,
            off := BitVec.ofNat 16 (j * maxp), mf := true, len := (Wire.fragmentPayload maxp p j).length } ++
          Wire.fragmentPayload maxp p j) ip)] } : State) = s1
      obtain ⟨c', lat', hc'⟩ := ih (j + 1) s1 hjn (by omega) (by rw [← hs1]; exact hfit)
      rw [hc', ← hs1]
      refine ⟨c', lat', ?_⟩
      have hr : List.range' j (Wire.fragmentCount maxp p.length - j) =
          j :: List.range' (j + 1) (Wire.fragmentCount maxp p.length - (j + 1)) := by
        have : Wire.fragmentCount maxp p.length - j = (Wire.fragmentCount maxp p.length - (j + 1)) + 1 := by omega
        rw [this, List.range'_succ]
      have hd : s.draws + 1 + (Wire.fragmentCount maxp p.length - (j + 1)) =
          s.draws + (Wire.fragmentCount maxp p.length - j) := by omega
      simp only [hr, hd, List.map_cons, List.append_assoc, List.singleton_append]
      have hmf : decide (j + 1 < Wire.fragmentCount maxp p.length) = true := by simpa using hjn
      simp only [Wire.fragment, Wire.datagram, hmf]
    · rw [if_neg hlast]
      have hcount : Wire.fragmentCount maxp p.length = j + 1 := by omega
      have hpay : p.drop (j * maxp) = Wire.fragmentPayload maxp p j := by
        rw [Wire.fragmentPayload, List.take_of_length_le]
        rw [List.length_drop]; omega
      obtain ⟨c, lat, hc⟩ := emitFragment_spec ip proto ident (j * maxp) false (Wire.fragmentPayload maxp p j) s hoff8
        (by omega) (by omega)
      rw [hpay, hc]
      refine ⟨c, lat, ?_⟩
      have hd : Wire.fragmentCount maxp p.length - j = 1 := by omega
      have hmf : decide (j + 1 < Wire.fragmentCount maxp p.length) = false := by
        rw [hcount]; simp
      rw [hd]
      simp only [List.range'_one, List.map_cons, List.map_nil, Wire.fragment, Wire.datagram, hmf]

/-- The events of one `IP_TX` (R175, R176). -/
def State.fragmentEvents (s : State) (dst : IpAddr) (proto : Byte) (p : Bytes) : List Output :=
  (Wire.fragments (s.mtu.toNat - 20) s.ipTtlDefault s.ifIp dst proto s.ipId p).map fun d => .event (.arp d dst)

/-- Everything `IP_TX` does with a payload within its limit (R175 to R182). -/
theorem ipTx_spec (s : State) (hm : 28 ≤ s.mtu.toNat) (h8 : (s.mtu.toNat - 20) % 8 = 0) (hp : s.buf.len ≤ 65515)
    (hfit : 42 + min (s.mtu.toNat - 20) s.buf.len ≤ s.caps.buf) :
    ∃ (c : Buffer) (lat : Latches),
      ipTx s = .done { s with
        fbuf := c
        latches := lat
        draws := s.draws + Wire.fragmentCount (s.mtu.toNat - 20) s.buf.len
        ipId := s.ipId + 1#16
        trace := s.trace ++ s.fragmentEvents s.latches.ip s.latches.proto8 s.buf.window } := by
  have hop : ipTxOperandError s.buf.len = none := if_neg (by omega)
  have hcount : Wire.fragmentCount (s.mtu.toNat - 20) s.buf.len ≤ 0 + (s.buf.len + 1) := by
    by_contra h
    have := (lt_fragmentCount (n := s.buf.len) (maxp := s.mtu.toNat - 20) (k := s.buf.len + 1) (by omega)
      (by omega)).1 (by omega)
    nlinarith [Nat.le_mul_of_pos_right (s.buf.len + 1) (show 0 < s.mtu.toNat - 20 by omega)]
  obtain ⟨c, lat, hc⟩ := fragmentLoop_spec (s.mtu.toNat - 20) s.latches.ip s.latches.proto8 s.ipId s.buf.window
    (by omega) h8 (by simpa using hp) (s.buf.len + 1) 0 s (fragmentCount_pos _ _ (by omega)) (by simpa using hcount)
    (by simpa using hfit)
  unfold ipTx
  rw [hop]
  simp only [Nat.zero_mul, List.drop_zero] at hc ⊢
  rw [hc, Run.done_andThen]
  refine ⟨c, lat, ?_⟩
  simp only [Nat.sub_zero, Buffer.length_window, State.fragmentEvents, Wire.fragments, List.map_map,
    List.range_eq_range', Function.comp_def]

/-- The first fragment does not fit FBUF (R182, R61). -/
theorem ipTx_noRoom (s : State) (hp : s.buf.len ≤ 65515) (h : s.caps.buf < 42 + min (s.mtu.toNat - 20) s.buf.len) :
    ipTx s = .fail .buf s := by
  unfold ipTx
  rw [show ipTxOperandError s.buf.len = none from if_neg (by omega)]
  simp only
  rw [fragmentLoop, Buffer.length_window]
  split
  · rw [emitFragment, State.loadBuffer_of_not_fits (by simp only [List.length_take, Buffer.length_window]; omega)]
    rfl
  · rw [emitFragment, State.loadBuffer_of_not_fits (by rw [Buffer.length_window]; omega)]
    rfl

/-- `IP_TX` with a longer payload (R177). -/
theorem ipTx_tooLong (s : State) (hp : 65515 < s.buf.len) : ipTx s = .fail .tooLong s := by
  have hop : ipTxOperandError s.buf.len = some .tooLong := if_pos hp
  rw [ipTx, hop]

/-! ### UDP_TX -/

/-- The fields `UDP_TX` writes are the header with a zero checksum field (R193). -/
theorem fieldBytes_udpFields (n : Nat) (sport dport : Half) :
    fieldBytes (udpFields n sport dport) = Wire.udpHeaderWith sport dport (8 + n) 0 := by
  simp only [fieldBytes, udpFields, List.flatMap_cons, List.flatMap_nil, Wire.udpHeaderWith, List.append_assoc,
    List.append_nil]

theorem contiguous_udpFields (n : Nat) (sport dport : Half) : contiguous 0 (udpFields n sport dport) = true := rfl

/-- What `UDP_TX` does before it calls `IP_TX`: the datagram is in the window (R193, R195). -/
theorem udpTx_spec (s : State) (hp : s.buf.len ≤ 65527) (hs : 8 ≤ s.buf.start) :
    ∃ c : Buffer, c.start = s.buf.start - 8 ∧ c.len = s.buf.len + 8 ∧ c.epoch = s.buf.epoch ∧
      c.window = Wire.udpDatagram s.ifIp s.latches.ip s.latches.sport s.latches.dport s.buf.window ∧
      (∀ a, ¬ (s.buf.start - 8 ≤ a ∧ a < s.buf.start) → c.byteAt a = s.buf.byteAt a) ∧
      udpTx s = ipTx ((s.setBuffer .buf c).callWith .ipTx fun l => { l with ip := s.latches.ip, proto8 := 17#8 }) := by
  have hop : udpTxOperandError s.buf.len = none := if_neg (by omega)
  have hf := fieldBytes_udpFields s.buf.len s.latches.sport s.latches.dport
  have hb : s.buffer .buf = s.buf := rfl
  have hlen : (bytesOf 2 s.latches.sport.toNat ++ bytesOf 2 s.latches.dport.toNat ++ bytesOf 2 (8 + s.buf.len) ++
      bytesOf 2 0 ++ ([] : Bytes)).length = 8 := by simp
  have hlen6 : (bytesOf 2 s.latches.sport.toNat ++ bytesOf 2 s.latches.dport.toNat ++
      bytesOf 2 (8 + s.buf.len)).length = 6 := by simp
  generalize hk : csum16 (pseudoHeader s.ifIp s.latches.ip (8 + s.buf.len) ++
      (Wire.udpHeaderWith s.latches.sport s.latches.dport (8 + s.buf.len) 0 ++ s.buf.window)) = k
  have hkl : k ≤ 65535 := hk ▸ csum16_le _
  obtain ⟨c, hc1, hc2, hc3, hc4, hc5, -, hc7⟩ := Buffer.overwrite s.buf (bytesOf 2 s.latches.sport.toNat ++
    bytesOf 2 s.latches.dport.toNat ++ bytesOf 2 (8 + s.buf.len)) (bytesOf 2 0) (bytesOf 2 k) [] (by simp)
    (by rw [hlen]; exact hs)
  have hmod : k % 256 ^ 2 = k := by omega
  have hz : bytesOf 2 s.latches.sport.toNat ++ bytesOf 2 s.latches.dport.toNat ++ bytesOf 2 (8 + s.buf.len) ++
      bytesOf 2 0 ++ ([] : Bytes) = Wire.udpHeaderWith s.latches.sport s.latches.dport (8 + s.buf.len) 0 := by
    simp only [Wire.udpHeaderWith, List.append_nil]
  rw [hlen] at hc2 hc3 hc7
  rw [hz, hlen6, length_bytesOf, beNat_bytesOf, hmod] at hc1
  refine ⟨c, hc2, hc3, hc5, ?_, hc7, ?_⟩
  · rw [hc4]
    simp only [Wire.udpDatagram, Wire.udpHeaderWith, Buffer.length_window, List.append_nil] at hk ⊢
    rw [hk]
  · unfold udpTx
    rw [hop]
    simp only
    rw [State.putHeader (w := .buf) (s := s) (contiguous_udpFields _ _ _) 8 (by rw [hf]; simp) (by rw [hb]; exact hs),
      hb, hf, Run.done_andThen]
    have hwin : ((s.setBuffer .buf (s.buf.prepended (Wire.udpHeaderWith s.latches.sport s.latches.dport
        (8 + s.buf.len) 0))).buf).window =
        Wire.udpHeaderWith s.latches.sport s.latches.dport (8 + s.buf.len) 0 ++ s.buf.window := by
      rw [State.setBuffer_buf_buf, Buffer.window_prepended _ _ (by simpa using hs)]
    rw [hwin, hk, State.onBuffer_some (b := c) (by rw [State.buffer_setBuffer]; exact hc1), Run.done_andThen,
      State.setBuffer_setBuffer]

/-! ### ETH_TX -/

theorem fieldBytes_ethFields (dst src : MacAddr) (proto : Half) :
    fieldBytes (ethFields dst src proto) = Wire.ethHeader dst src proto := by
  simp only [fieldBytes, ethFields, List.flatMap_cons, List.flatMap_nil, Wire.ethHeader, List.append_assoc,
    List.append_nil]

theorem contiguous_ethFields (dst src : MacAddr) (proto : Half) : contiguous 0 (ethFields dst src proto) = true := rfl

/-- Padding up to 46 bytes (R145, R147). -/
theorem padFrame_spec (s : State) (hfit : s.buf.len < 46 → s.buf.start + 46 ≤ s.caps.buf) :
    ∃ c : Buffer, c.start = s.buf.start ∧ c.len = max 46 s.buf.len ∧ c.epoch = s.buf.epoch ∧
      c.window = s.buf.window ++ zeros (46 - s.buf.len) ∧
      (∀ a, ¬ (s.buf.start + s.buf.len ≤ a ∧ a < s.buf.start + 46) → c.byteAt a = s.buf.byteAt a) ∧
      padFrame s = .done (s.setBuffer .buf c) := by
  unfold padFrame
  by_cases h : s.buf.len < 46
  · rw [if_pos h]
    have hadd : Buffer.addPadding s.caps.buf (46 - s.buf.len) (s.buffer .buf) =
        some (s.buf.extended (zeros (46 - s.buf.len))) := by
      rw [Buffer.extended, length_zeros]
      exact if_pos (by have := hfit h; simp only [State.buffer_buf]; omega)
    refine ⟨s.buf.extended (zeros (46 - s.buf.len)), rfl, ?_, rfl, ?_, ?_, State.onBuffer_some hadd⟩
    · simp only [Buffer.extended, length_zeros]; omega
    · exact Buffer.window_extended _ _
    · intro a ha
      exact Buffer.byteAt_setBytes_of_not_mem s.buf (by rw [length_zeros]; omega)
  · rw [if_neg h]
    refine ⟨s.buf, rfl, by omega, rfl, ?_, fun _ _ => rfl, rfl⟩
    have : 46 - s.buf.len = 0 := by omega
    simp [this, zeros]

/-- Everything `ETH_TX` does when the padding and the header have room (R145 to R147). -/
theorem ethTx_spec (s : State) (hs : 14 ≤ s.buf.start)
    (hfit : s.buf.len < 46 → s.buf.start + 46 ≤ s.caps.buf) :
    ∃ c : Buffer, c.start = s.buf.start - 14 ∧ c.len = max 46 s.buf.len + 14 ∧ c.epoch = s.buf.epoch ∧
      c.window = Wire.ethFrame s.latches.mac s.ifMac s.latches.proto16 s.buf.window ∧
      (∀ a, ¬ (s.buf.start - 14 ≤ a ∧ a < s.buf.start) → ¬ (s.buf.start + s.buf.len ≤ a ∧ a < s.buf.start + 46) →
        c.byteAt a = s.buf.byteAt a) ∧
      ethTx s = .ended (if s.linkAnswer then none else some (.fail .link))
        ((s.setBuffer .buf c).emit (.drvTx (Wire.ethFrame s.latches.mac s.ifMac s.latches.proto16
          s.buf.window))).linkAnswered := by
  obtain ⟨c, h1, h2, h3, h4, h5, h6⟩ := padFrame_spec s hfit
  have hf := fieldBytes_ethFields s.latches.mac s.ifMac s.latches.proto16
  have hput := State.putHeader (w := .buf) (s := s.setBuffer .buf c)
    (contiguous_ethFields s.latches.mac s.ifMac s.latches.proto16) 14 (by rw [hf]; simp)
    (by rw [State.buffer_setBuffer]; omega)
  have hw : (c.prepended (Wire.ethHeader s.latches.mac s.ifMac s.latches.proto16)).window =
      Wire.ethFrame s.latches.mac s.ifMac s.latches.proto16 s.buf.window := by
    rw [Buffer.window_prepended _ _ (by simp; omega), h4]
    simp only [Wire.ethFrame, Buffer.length_window, List.append_assoc]
  refine ⟨c.prepended (Wire.ethHeader s.latches.mac s.ifMac s.latches.proto16), by simp [h1], by simp [h2], h3, hw, ?_, ?_⟩
  · intro a ha hb
    rw [Buffer.prepended_byteAt, Buffer.byteAt_setBytes_of_not_mem _ (by rw [Wire.length_ethHeader, h1]; omega)]
    exact h5 a hb
  have hadd : (s.setBuffer .buf c).onBuffer .buf (Buffer.addHeader 14) =
      .done (s.setBuffer .buf (c.slide (c.start - 14) (c.len + 14))) := by
    rw [State.onBuffer_some (Buffer.addHeader_of_le (by rw [State.buffer_setBuffer]; omega))]
    rfl
  rw [hadd, Run.done_andThen, State.buffer_setBuffer, State.setBuffer_setBuffer, hf] at hput
  unfold ethTx
  rw [h6, Run.done_andThen, hadd, Run.done_andThen]
  simp only [State.setBuffer_latches, State.setBuffer_ifMac]
  rw [hput, Run.done_andThen]
  simp only [State.setBuffer_buf_buf, hw]
  rfl

end Sys2Proof.Machine
end

