-- ==== Sys2Proof/Laws/Exec.lean ====
section
/-!
SUPPORT. What each command does when its payload fits BUF: the exact next state, with the one Buffer it leaves as scratch
described by its bytes. One lemma for each command.
-/
namespace Sys2Proof.Machine

/-- The state in which a unit starts when a command with the payload `p` was accepted (R105). -/
def State.started (s : State) (i : Instr) (p : Bytes) : State :=
  { (s.accept i).setBuffer .buf (Buffer.loaded s.draws p) with draws := s.draws + 1 }

theorem State.started_load (s : State) (i : Instr) {p : Bytes} (hfit : 42 + p.length ≤ s.caps.buf) (k : State → Run) :
    ((s.accept i).loadBuffer .buf p).andThen k = k (s.started i p) := by
  rw [State.loadBuffer_of_fits (s := s.accept i) hfit, Run.done_andThen]
  rfl

theorem State.started_window (s : State) (i : Instr) (p : Bytes) : (s.started i p).buf.window = p :=
  Buffer.window_loaded s.draws p

/-- A command that reads its payload only ends as an answer says, and leaves every byte of BUF as `buf_load` put it. -/
def Answers (s : State) (p : Bytes) (o : Host.Outcome State Fault Refusal) : Except Refusal Answer → Prop
  | .ok (early, es) => ∃ b : Buffer, (∀ a, b.byteAt a = (Buffer.loaded s.draws p).byteAt a) ∧
      o = .next (s.after early 0#16 es b (s.draws + 1))
  | .error x => o = .refused x

theorem answers_of_gives {s : State} {i : Instr} {p : Bytes} {r : Run} {x : Except Refusal Answer}
    (h : r.Gives (s.started i p) x) : Answers s p (finish r) x := by
  cases x with
  | error x =>
    have hr : r = .refused x := h
    subst hr
    rfl
  | ok a =>
    obtain ⟨b, l, hb, hr⟩ := h
    subst hr
    refine ⟨b, hb, ?_⟩
    obtain ⟨early, es⟩ := a
    cases early <;> rfl

/-! ### Receive -/

theorem exec_udpRx (ip : IpAddr) (p : Bytes) (s : State) (hfit : 42 + p.length ≤ s.caps.buf) :
    Answers s p (exec (.udpRx ip p) s) (.ok (s.udpAnswer ip ((Buffer.loaded s.draws p).bytesFrom 22 20) p)) := by
  show Answers s p (execUdpRx ip p s) _
  unfold execUdpRx
  rw [State.started_load s _ hfit]
  have h := udpRx_gives (s.started (.udpRx ip p) p) (by show 20 ≤ 42; omega)
  rw [State.started_window] at h
  exact answers_of_gives h

theorem exec_ipRx (mac : MacAddr) (p : Bytes) (s : State) (hfit : 42 + p.length ≤ s.caps.buf) :
    Answers s p (exec (.ipRx mac p) s) (s.ipAnswer p) := by
  show Answers s p (execIpRx mac p s) _
  unfold execIpRx
  rw [State.started_load s _ hfit]
  have h := ipRx_gives (s.started (.ipRx mac p) p)
  rw [State.started_window] at h
  exact answers_of_gives h

theorem exec_netDispatch (src : Source) (proto : Half) (p : Bytes) (s : State) (hfit : 42 + p.length ≤ s.caps.buf) :
    Answers s p (exec (.netDispatch src proto p) s)
      (s.netAnswer src proto ((Buffer.loaded s.draws p).bytesFrom 22 20) p) := by
  show Answers s p (execNetDispatch src proto p s) _
  unfold execNetDispatch
  rw [State.started_load s _ hfit]
  have h := netDispatch_gives (s.started (.netDispatch src proto p) p) src rfl rfl (by show 20 ≤ 42; omega)
  rw [State.started_window] at h
  exact answers_of_gives h

theorem exec_ethRx (f : Bytes) (s : State) (hfit : 42 + f.length ≤ s.caps.buf) :
    Answers s f (exec (.ethRx f) s) (s.ethAnswer f) := by
  show Answers s f (execEthRx f s) _
  unfold execEthRx
  rw [State.started_load s _ hfit]
  have h := ethRx_gives (s.started (.ethRx f) f) (by show 42 ≤ 42; omega)
  rw [State.started_window] at h
  exact answers_of_gives h

/-- `ETH_POLL` when the driver has nothing (R148). -/
theorem exec_ethPoll_none (s : State) (h : s.pollAnswer = none) :
    exec .ethPoll s =
      .next { s.after none 0#16 [.drvPoll] s.buf s.draws with pollAnswers := s.pollAnswers.tail } := by
  have e : ((s.accept .ethPoll).emit .drvPoll).pollAnswer = none := h
  show finish (ethPoll (s.accept .ethPoll)) = _
  unfold ethPoll
  have e' : (s.accept .ethPoll).pollAnswer = none := h
  simp only [e']
  rfl

/-- The state in which `ETH_RX` starts when `ETH_POLL` took the frame `f` (R148). -/
def State.polled (s : State) (f : Bytes) : State :=
  ({ (((s.accept .ethPoll).emit .drvPoll).pollAnswered).setBuffer .buf (Buffer.loaded s.draws f) with
      draws := s.draws + 1 } : State).callWith .ethRx id

theorem ethPoll_frame (s : State) (f : Bytes) (h : s.pollAnswer = some f) (hfit : 42 + f.length ≤ s.caps.buf) :
    ethPoll (s.accept .ethPoll) = ethRx (s.polled f) := by
  have e' : (s.accept .ethPoll).pollAnswer = some f := h
  unfold ethPoll
  simp only [e']
  rw [State.loadBuffer_of_fits (s := ((s.accept .ethPoll).emit .drvPoll).pollAnswered) hfit, Run.done_andThen]
  rfl

/-- `ETH_POLL` when the driver has a frame that fits (R148). -/
theorem exec_ethPoll_frame (s : State) (f : Bytes) (h : s.pollAnswer = some f) (hfit : 42 + f.length ≤ s.caps.buf) :
    Answers { s with pollAnswers := s.pollAnswers.tail, trace := s.trace ++ [.event .drvPoll] } f
      (exec .ethPoll s) (s.ethAnswer f) := by
  have hg := ethRx_gives (s.polled f) (by show 42 ≤ 42; omega)
  have hw : (s.polled f).buf.window = f := Buffer.window_loaded s.draws f
  have ha : (s.polled f).ethAnswer f = s.ethAnswer f := rfl
  rw [hw, ha] at hg
  show Answers _ f (finish (ethPoll (s.accept .ethPoll))) _
  rw [ethPoll_frame s f h hfit]
  cases hx : s.ethAnswer f with
  | error x =>
    rw [hx] at hg
    have hr : ethRx (s.polled f) = .refused x := hg
    rw [hr]
    rfl
  | ok a =>
    rw [hx] at hg
    obtain ⟨b, l, hb, hr⟩ := hg
    refine ⟨b, hb, ?_⟩
    rw [hr]
    obtain ⟨early, es⟩ := a
    cases early <;> rfl

/-- `ETH_POLL` when the driver's frame does not fit (R148, R61). -/
theorem exec_ethPoll_noRoom (s : State) (f : Bytes) (h : s.pollAnswer = some f) (hfit : s.caps.buf < 42 + f.length) :
    exec .ethPoll s =
      .next { s.after (some (.fail .buf)) 0#16 [.drvPoll] s.buf s.draws with pollAnswers := s.pollAnswers.tail } := by
  have e' : (s.accept .ethPoll).pollAnswer = some f := h
  show finish (ethPoll (s.accept .ethPoll)) = _
  unfold ethPoll
  simp only [e']
  rw [State.loadBuffer_of_not_fits (s := ((s.accept .ethPoll).emit .drvPoll).pollAnswered) hfit]
  rfl

/-! ### Checksum and transmit -/

theorem exec_csum16 (p : Bytes) (s : State) (hfit : 42 + p.length ≤ s.caps.buf) :
    exec (.csum16 p) s =
      .next (s.after none (BitVec.ofNat 16 (csum16 p)) [] (Buffer.loaded s.draws p) (s.draws + 1)) := by
  show execCsum16 p s = _
  unfold execCsum16
  rw [State.loadBuffer_of_fits (s := s.accept (.csum16 p)) hfit]
  show Host.Outcome.next _ = _
  congr 1
  simp only [State.after, State.release, State.respond, State.accept, State.setBuffer, Buffer.window_loaded,
    List.map_nil, List.append_nil]

/-- The driver's answer to the one transmission of an ETH_TX: the next one it holds, else the draw after the payload's
(R146; log 6). -/
def State.txAnswer (s : State) : Bool :=
  match s.txAnswers with
  | [] => Config.linkAnswer (s.draws + 1)
  | ok :: _ => ok

theorem State.linkAnswer_started (s : State) (i : Instr) (p : Bytes) : (s.started i p).linkAnswer = s.txAnswer := rfl

theorem exec_ethTx (mac : MacAddr) (proto : Half) (p : Bytes) (s : State)
    (hfit : 42 + max 46 p.length ≤ s.caps.buf) :
    ∃ b : Buffer, b.window = Wire.ethFrame mac s.ifMac proto p ∧ b.start = 28 ∧
      exec (.ethTx mac proto p) s = .next
        { s.after (if s.txAnswer then none else some (.fail .link)) 0#16 [.drvTx (Wire.ethFrame mac s.ifMac proto p)] b
            (if s.txAnswers = [] then s.draws + 2 else s.draws + 1) with
          txAnswers := s.txAnswers.tail } := by
  show ∃ b : Buffer, _ ∧ _ ∧ execEthTx mac proto p s = _
  unfold execEthTx
  rw [State.started_load s _ (by omega)]
  obtain ⟨c, h1, -, -, h4, -, h5⟩ := ethTx_spec (s.started (.ethTx mac proto p) p) (by show 14 ≤ 42; omega)
    (fun _ => by show 42 + 46 ≤ s.caps.buf; omega)
  rw [State.started_window] at h4 h5
  refine ⟨c, h4, h1, ?_⟩
  rw [h5, State.linkAnswered_eq, State.linkAnswer_started]
  generalize s.txAnswer = ok
  show Host.Outcome.next _ = _
  congr 1

theorem exec_ipFragEmit (ip : IpAddr) (proto : Byte) (ident off : Half) (mf : Bool) (p : Bytes) (s : State)
    (hoff : off.toNat % 8 = 0) (hp : p.length ≤ 65515) (hfit : 42 + p.length ≤ s.caps.buf) :
    ∃ b : Buffer, b.start = 22 ∧ (∀ a, ¬ (22 ≤ a ∧ a < 42) → b.byteAt a = (Buffer.loaded s.draws p).byteAt a) ∧
      b.window = Wire.datagram s.ipTtlDefault s.ifIp ip proto ident off mf p ∧
      exec (.ipFragEmit ip proto ident off mf p) s =
        .next (s.after none 0#16 [.arp (Wire.datagram s.ipTtlDefault s.ifIp ip proto ident off mf p) ip] b
          (s.draws + 1)) := by
  have hop := fragOperandError_none.2 ⟨hoff, hp⟩
  show ∃ b : Buffer, _ ∧ _ ∧ _ ∧ execIpFragEmit ip proto ident off mf p s = _
  unfold execIpFragEmit
  simp only [hop]
  rw [State.started_load s _ hfit]
  obtain ⟨c, h1, -, -, h4, h5, h6⟩ := ipFragEmit_spec .buf (s.started (.ipFragEmit ip proto ident off mf p) p) hop
    (by show 20 ≤ 42; omega)
  have hw : ((s.started (.ipFragEmit ip proto ident off mf p) p).buffer .buf).window = p :=
    State.started_window s _ p
  rw [hw] at h4 h6
  refine ⟨c, h1, h5, h4, ?_⟩
  rw [h6, finish_done]
  simp only [State.after, State.release, State.respond, State.emit, State.setBuffer, List.map_cons, List.map_nil]
  rfl

theorem exec_ipFragEmit_refused (ip : IpAddr) (proto : Byte) (ident off : Half) (mf : Bool) (p : Bytes) (s : State)
    {f : Failure} (h : fragOperandError off p.length = some f) :
    exec (.ipFragEmit ip proto ident off mf p) s = .next (s.after (some (.fail f)) 0#16 [] s.buf s.draws) := by
  show execIpFragEmit ip proto ident off mf p s = _
  unfold execIpFragEmit
  simp only [h]
  show Host.Outcome.next _ = _
  congr 1
  simp only [State.after, State.release, State.respond, State.accept, List.map_nil, List.append_nil]

theorem exec_ipTx (ip : IpAddr) (proto : Byte) (p : Bytes) (s : State) (hm : 28 ≤ s.mtu.toNat)
    (h8 : (s.mtu.toNat - 20) % 8 = 0) (hp : p.length ≤ 65515) (hfit : 42 + p.length ≤ s.caps.buf) :
    ∃ c : Buffer,
      exec (.ipTx ip proto p) s = .next
        { s.after none 0#16 ((Wire.fragments (s.mtu.toNat - 20) s.ipTtlDefault s.ifIp ip proto s.ipId p).map
            fun d => .arp d ip) (Buffer.loaded s.draws p)
            (s.draws + 1 + Wire.fragmentCount (s.mtu.toNat - 20) p.length) with
          fbuf := c
          ipId := s.ipId + 1#16 } := by
  have hop : ipTxOperandError p.length = none := if_neg (by omega)
  show ∃ c : Buffer, execIpTx ip proto p s = _
  unfold execIpTx
  simp only [hop]
  rw [State.started_load s _ hfit]
  obtain ⟨c, lat, h⟩ := ipTx_spec (s.started (.ipTx ip proto p) p) hm h8 hp
    (by show 42 + min (s.mtu.toNat - 20) p.length ≤ s.caps.buf; omega)
  rw [State.started_window] at h
  rw [h]
  refine ⟨c, ?_⟩
  show Host.Outcome.next _ = _
  congr 1
  simp only [State.after, State.release, State.respond, State.fragmentEvents, List.map_map, Function.comp_def]
  rfl

theorem exec_ipTx_tooLong (ip : IpAddr) (proto : Byte) (p : Bytes) (s : State) (h : 65515 < p.length) :
    exec (.ipTx ip proto p) s = .next (s.after (some (.fail .tooLong)) 0#16 [] s.buf s.draws) := by
  have hop : ipTxOperandError p.length = some .tooLong := if_pos h
  show execIpTx ip proto p s = _
  unfold execIpTx
  simp only [hop]
  show Host.Outcome.next _ = _
  congr 1
  simp only [State.after, State.release, State.respond, State.accept, List.map_nil, List.append_nil]

theorem exec_udpTx (ip : IpAddr) (sport dport : Half) (p : Bytes) (s : State) (hm : 28 ≤ s.mtu.toNat)
    (h8 : (s.mtu.toNat - 20) % 8 = 0) (hp : p.length ≤ 65507) (hfit : 42 + p.length ≤ s.caps.buf)
    (hfrag : 42 + min (s.mtu.toNat - 20) (8 + p.length) ≤ s.caps.buf) :
    ∃ b c : Buffer, b.start = 34 ∧
      (∀ a, ¬ (34 ≤ a ∧ a < 42) → b.byteAt a = (Buffer.loaded s.draws p).byteAt a) ∧
      b.window = Wire.udpDatagram s.ifIp ip sport dport p ∧
      exec (.udpTx ip sport dport p) s = .next
        { s.after none 0#16 ((Wire.fragments (s.mtu.toNat - 20) s.ipTtlDefault s.ifIp ip 17#8 s.ipId
            (Wire.udpDatagram s.ifIp ip sport dport p)).map fun d => .arp d ip) b
            (s.draws + 1 + Wire.fragmentCount (s.mtu.toNat - 20) (p.length + 8)) with
          fbuf := c
          ipId := s.ipId + 1#16 } := by
  have hop : udpTxOperandError p.length = none := if_neg (by omega)
  show ∃ b c : Buffer, _ ∧ _ ∧ _ ∧ execUdpTx ip sport dport p s = _
  unfold execUdpTx
  simp only [hop]
  rw [State.started_load s _ hfit]
  obtain ⟨b, h1, h2, -, h4, h5, h6⟩ := udpTx_spec (s.started (.udpTx ip sport dport p) p)
    (by show p.length ≤ 65527; omega) (by show 8 ≤ 42; omega)
  rw [State.started_window] at h4
  have h2' : b.len = p.length + 8 := h2
  obtain ⟨c, lat, h⟩ := ipTx_spec (((s.started (.udpTx ip sport dport p) p).setBuffer .buf b).callWith .ipTx fun l =>
      { l with ip := (s.started (.udpTx ip sport dport p) p).latches.ip, proto8 := 17#8 }) hm h8
    (by show b.len ≤ 65515; omega)
    (by show 42 + min (s.mtu.toNat - 20) b.len ≤ s.caps.buf; omega)
  rw [h6, h]
  have hw : (((s.started (.udpTx ip sport dport p) p).setBuffer .buf b).callWith .ipTx fun l =>
      { l with ip := (s.started (.udpTx ip sport dport p) p).latches.ip, proto8 := 17#8 }).buf.window =
      Wire.udpDatagram s.ifIp ip sport dport p := h4
  rw [hw]
  refine ⟨b, c, h1, h5, h4, ?_⟩
  rw [← h2']
  show Host.Outcome.next _ = _
  congr 1
  simp only [State.after, State.release, State.respond, State.fragmentEvents, List.map_map, Function.comp_def]
  rfl

/-- A datagram whose first fragment does not fit FBUF (R182, R61): nothing is emitted and CR.IP_ID stays. -/
theorem exec_udpTx_noRoom (ip : IpAddr) (sport dport : Half) (p : Bytes) (s : State) (hp : p.length ≤ 65507)
    (hfit : 42 + p.length ≤ s.caps.buf) (hfrag : s.caps.buf < 42 + min (s.mtu.toNat - 20) (8 + p.length)) :
    ∃ b : Buffer, exec (.udpTx ip sport dport p) s =
      .next (s.after (some (.fail .buf)) 0#16 [] b (s.draws + 1)) := by
  have hop : udpTxOperandError p.length = none := if_neg (by omega)
  show ∃ b : Buffer, execUdpTx ip sport dport p s = _
  unfold execUdpTx
  simp only [hop]
  rw [State.started_load s _ hfit]
  obtain ⟨b, -, hl, -, -, -, h6⟩ := udpTx_spec (s.started (.udpTx ip sport dport p) p)
    (by show p.length ≤ 65527; omega) (by show 8 ≤ 42; omega)
  have hl' : b.len = p.length + 8 := hl
  rw [h6, ipTx_noRoom _ (by show b.len ≤ 65515; omega)
    (by show s.caps.buf < 42 + min (s.mtu.toNat - 20) b.len; omega)]
  refine ⟨b, ?_⟩
  rw [finish_fail]
  simp only [State.after, State.release, State.respond, List.map_nil, List.append_nil]
  rfl

/-- A payload too long for the datagram's own length field (R194). -/
theorem exec_udpTx_tooLong (ip : IpAddr) (sport dport : Half) (p : Bytes) (s : State) (h : 65527 < p.length) :
    exec (.udpTx ip sport dport p) s = .next (s.after (some (.fail .tooLong)) 0#16 [] s.buf s.draws) := by
  have hop : udpTxOperandError p.length = some .tooLong := if_pos (by omega)
  show execUdpTx ip sport dport p s = _
  unfold execUdpTx
  simp only [hop]
  show Host.Outcome.next _ = _
  congr 1
  simp only [State.after, State.release, State.respond, State.accept, List.map_nil, List.append_nil]

/-- A payload whose datagram is too long for `IP_TX` (R194, R177). -/
theorem exec_udpTx_ipTooLong (ip : IpAddr) (sport dport : Half) (p : Bytes) (s : State) (h1 : 65507 < p.length)
    (h2 : p.length ≤ 65527) (hfit : 42 + p.length ≤ s.caps.buf) :
    ∃ b : Buffer, exec (.udpTx ip sport dport p) s =
      .next (s.after (some (.fail .tooLong)) 0#16 [] b (s.draws + 1)) := by
  have hop : udpTxOperandError p.length = none := if_neg (by omega)
  show ∃ b : Buffer, execUdpTx ip sport dport p s = _
  unfold execUdpTx
  simp only [hop]
  rw [State.started_load s _ hfit]
  obtain ⟨b, -, hl, -, -, -, h6⟩ := udpTx_spec (s.started (.udpTx ip sport dport p) p)
    (by show p.length ≤ 65527; omega) (by show 8 ≤ 42; omega)
  have hl' : b.len = p.length + 8 := hl
  rw [h6, ipTx_tooLong _ (by show 65515 < b.len; omega)]
  refine ⟨b, ?_⟩
  rw [finish_fail]
  simp only [State.after, State.release, State.respond, List.map_nil, List.append_nil]
  rfl

/-! ### Tables -/

theorem exec_netRegister (key hnd : Half) (s : State)
    (h : ¬ (s.dispatch.lookup key = none ∧ s.dispatch.length = s.caps.dispatch)) :
    exec (.netRegister key hnd) s =
      .next { s.after none 0#16 [] s.buf s.draws with dispatch := s.dispatch.insert key hnd } := by
  have hr : s.dispatch.register s.caps.dispatch key hnd = some (s.dispatch.insert key hnd) := if_neg h
  show execNetRegister key hnd s = _
  unfold execNetRegister
  have e : Table.register (s.accept (.netRegister key hnd)).caps.dispatch (s.accept (.netRegister key hnd)).dispatch
    (s.accept (.netRegister key hnd)).latches.key (s.accept (.netRegister key hnd)).latches.hnd =
      some (s.dispatch.insert key hnd) := hr
  simp only [e]
  show Host.Outcome.next _ = _
  congr 1
  simp only [State.after, State.release, State.respond, State.accept, List.map_nil, List.append_nil]

theorem exec_netRegister_full (key hnd : Half) (s : State)
    (h : s.dispatch.lookup key = none ∧ s.dispatch.length = s.caps.dispatch) :
    exec (.netRegister key hnd) s = .next (s.after (some (.fail .tableFull)) 0#16 [] s.buf s.draws) := by
  have hr : s.dispatch.register s.caps.dispatch key hnd = none := if_pos h
  show execNetRegister key hnd s = _
  unfold execNetRegister
  have e : Table.register (s.accept (.netRegister key hnd)).caps.dispatch (s.accept (.netRegister key hnd)).dispatch
    (s.accept (.netRegister key hnd)).latches.key (s.accept (.netRegister key hnd)).latches.hnd = none := hr
  simp only [e]
  show Host.Outcome.next _ = _
  congr 1
  simp only [State.after, State.release, State.respond, State.accept, List.map_nil, List.append_nil]

theorem exec_udpOpen (key hnd : Half) (s : State)
    (h : ¬ (s.ports.lookup key = none ∧ s.ports.length = s.caps.ports)) :
    exec (.udpOpen key hnd) s =
      .next { s.after none 0#16 [] s.buf s.draws with ports := s.ports.insert key hnd } := by
  have hr : s.ports.register s.caps.ports key hnd = some (s.ports.insert key hnd) := if_neg h
  show execUdpOpen key hnd s = _
  unfold execUdpOpen
  have e : Table.register (s.accept (.udpOpen key hnd)).caps.ports (s.accept (.udpOpen key hnd)).ports
    (s.accept (.udpOpen key hnd)).latches.key (s.accept (.udpOpen key hnd)).latches.hnd =
      some (s.ports.insert key hnd) := hr
  simp only [e]
  show Host.Outcome.next _ = _
  congr 1
  simp only [State.after, State.release, State.respond, State.accept, List.map_nil, List.append_nil]

theorem exec_udpOpen_full (key hnd : Half) (s : State)
    (h : s.ports.lookup key = none ∧ s.ports.length = s.caps.ports) :
    exec (.udpOpen key hnd) s = .next (s.after (some (.fail .tableFull)) 0#16 [] s.buf s.draws) := by
  have hr : s.ports.register s.caps.ports key hnd = none := if_pos h
  show execUdpOpen key hnd s = _
  unfold execUdpOpen
  have e : Table.register (s.accept (.udpOpen key hnd)).caps.ports (s.accept (.udpOpen key hnd)).ports
    (s.accept (.udpOpen key hnd)).latches.key (s.accept (.udpOpen key hnd)).latches.hnd = none := hr
  simp only [e]
  show Host.Outcome.next _ = _
  congr 1
  simp only [State.after, State.release, State.respond, State.accept, List.map_nil, List.append_nil]

theorem exec_udpClose (key : Half) (s : State) :
    exec (.udpClose key) s = .next { s.after none 0#16 [] s.buf s.draws with ports := s.ports.erase key } := by
  show execUdpClose key s = _
  unfold execUdpClose
  show Host.Outcome.next _ = _
  congr 1
  simp only [State.after, State.release, State.respond, State.accept, List.map_nil, List.append_nil]
  rfl

/-! ### A payload that does not fit BUF -/

/-- The commands whose payload goes to BUF (R62, R105, R106). -/
def loadsPayload : Instr → Bool
  | .csum16 _ | .ethRx _ | .ethTx _ _ _ | .netDispatch _ _ _ | .ipRx _ _ | .ipFragEmit _ _ _ _ _ _ | .ipTx _ _ _
  | .udpRx _ _ | .udpTx _ _ _ _ => true
  | .ethPoll | .netRegister _ _ | .udpOpen _ _ | .udpClose _ => false

/-- The operand check a command makes before its payload is placed (R171, R177, R194, R217). -/
def operandErrorOf : Instr → Option Failure
  | .ipFragEmit _ _ _ off _ p => fragOperandError off p.length
  | .ipTx _ _ p => ipTxOperandError p.length
  | .udpTx _ _ _ p => udpTxOperandError p.length
  | .csum16 _ | .ethRx _ | .ethTx _ _ _ | .ethPoll | .netRegister _ _ | .netDispatch _ _ _ | .ipRx _ _ | .udpRx _ _
  | .udpOpen _ _ | .udpClose _ => none

theorem exec_noRoom (i : Instr) (s : State) (hi : loadsPayload i = true) (hop : operandErrorOf i = none)
    (h : s.caps.buf < 42 + i.payload.length) :
    exec i s = .next (s.after (some (.fail .buf)) 0#16 [] s.buf s.draws) := by
  have key : ∀ (k : State → Run), finish (((s.accept i).loadBuffer .buf i.payload).andThen k) =
      .next (s.after (some (.fail .buf)) 0#16 [] s.buf s.draws) := by
    intro k
    rw [State.loadBuffer_of_not_fits (s := s.accept i) h]
    show Host.Outcome.next _ = _
    congr 1
    simp only [State.after, State.release, State.respond, State.accept, List.map_nil, List.append_nil]
  cases i with
  | csum16 p =>
    show execCsum16 p s = _
    unfold execCsum16
    rw [State.loadBuffer_of_not_fits (s := s.accept (.csum16 p)) (p := p) h]
    show Host.Outcome.next _ = _
    congr 1
    simp only [State.after, State.release, State.respond, State.accept, List.map_nil, List.append_nil]
    rfl
  | ethRx p => exact key ethRx
  | ethTx mac proto p => exact key ethTx
  | ethPoll => cases hi
  | netRegister k hnd => cases hi
  | netDispatch src proto p => exact key netDispatch
  | ipRx mac p => exact key ipRx
  | ipFragEmit ip proto ident off mf p =>
    have hop' : fragOperandError off p.length = none := hop
    show execIpFragEmit ip proto ident off mf p s = _
    unfold execIpFragEmit
    simp only [hop']
    exact key (ipFragEmit .buf)
  | ipTx ip proto p =>
    have hop' : ipTxOperandError p.length = none := hop
    show execIpTx ip proto p s = _
    unfold execIpTx
    simp only [hop']
    exact key ipTx
  | udpRx ip p => exact key udpRx
  | udpTx ip sport dport p =>
    have hop' : udpTxOperandError p.length = none := hop
    show execUdpTx ip sport dport p s = _
    unfold execUdpTx
    simp only [hop']
    exact key udpTx
  | udpOpen k hnd => cases hi
  | udpClose k => cases hi

end Sys2Proof.Machine
end

