-- ==== Sys2Proof/Laws/Frame.lean ====
section
/-!
SUPPORT. What any chain of calls is made of, said once: a relation between states that holds across the elementary moves
(a Buffer primitive, a load, an event, an internal call) holds across every unit, and across every command if it also
allows the few writes some commands make. Frames and invariants follow from it.
-/
namespace Sys2Proof.Machine

/-! ### The primitives keep a Buffer in bounds -/

theorem Buffer.Ok.setBytes {cap : Nat} {b : Buffer} (h : b.Ok cap) {x : Nat} {vs : Bytes} (hx : x + vs.length ≤ cap)
    {start len : Nat} (hw : start + len ≤ cap) (e : Nat) :
    Buffer.Ok cap { data := b.data.setBytes x vs, start := start, len := len, epoch := e } := by
  refine ⟨Memory.setBytes_wf h.canonical x vs, ?_, hw⟩
  intro c hc
  rcases Memory.mem_setBytes hc with hc | hc
  · exact h.inside c hc
  · omega

theorem Buffer.Ok.slide {cap : Nat} {b : Buffer} (h : b.Ok cap) {start len : Nat} (hw : start + len ≤ cap) :
    (b.slide start len).Ok cap := ⟨h.canonical, h.inside, hw⟩

theorem Buffer.load_ok {cap epoch : Nat} {p : Bytes} {b : Buffer} (h : Buffer.load cap epoch p = some b) : b.Ok cap := by
  rcases Buffer.load_cases cap epoch p with ⟨_, h'⟩ | ⟨hle, h'⟩
  · rw [h'] at h; cases h
  · rw [h'] at h; cases h
    exact ⟨Memory.ofBytes_wf _ _, fun c hc => by have := Memory.mem_ofBytes hc; omega, hle⟩

theorem Buffer.removeHeader_ok {cap n : Nat} {b c : Buffer} (h : b.removeHeader n = some c) (hb : b.Ok cap) :
    c.Ok cap := by
  have := hb.window
  unfold Buffer.removeHeader at h
  split at h
  · cases h; exact hb.slide (by omega)
  · cases h

theorem Buffer.addHeader_ok {cap n : Nat} {b c : Buffer} (h : b.addHeader n = some c) (hb : b.Ok cap) : c.Ok cap := by
  have := hb.window
  unfold Buffer.addHeader at h
  split at h
  · cases h; exact hb.slide (by omega)
  · cases h

theorem Buffer.removePadding_ok {cap n : Nat} {b c : Buffer} (h : b.removePadding n = some c) (hb : b.Ok cap) :
    c.Ok cap := by
  have := hb.window
  unfold Buffer.removePadding at h
  split at h
  · cases h; exact hb.slide (by omega)
  · cases h

theorem Buffer.addPadding_ok {cap n : Nat} {b c : Buffer} (h : b.addPadding cap n = some c) (hb : b.Ok cap) :
    c.Ok cap := by
  unfold Buffer.addPadding at h
  split at h
  · cases h; exact hb.setBytes (by simpa using ‹_›) (by omega) _
  · cases h

theorem Buffer.memWrite_ok {cap off n v : Nat} {b c : Buffer} (h : b.memWrite off n v = some c) (hb : b.Ok cap) :
    c.Ok cap := by
  have := hb.window
  unfold Buffer.memWrite at h
  split at h
  · cases h; exact hb.setBytes (by simp; omega) hb.window _
  · cases h

theorem Buffer.memWrites_ok {cap : Nat} {fields : List (Nat × Nat × Nat)} {b c : Buffer}
    (h : Buffer.memWrites fields b = some c) (hb : b.Ok cap) : c.Ok cap := by
  induction fields generalizing b with
  | nil => cases h; exact hb
  | cons f fields ih =>
    obtain ⟨off, n, v⟩ := f
    rw [Buffer.memWrites] at h
    obtain ⟨d, hd, h⟩ := Option.bind_eq_some_iff.1 h
    exact ih h (Buffer.memWrite_ok hd hb)

/-! ### Moves -/

/-- A relation that holds across the elementary moves of a chain of calls that works on the Buffers in `W`. -/
structure Move (W : BufId → Prop) (P : State → State → Prop) : Prop where
  refl : ∀ s, P s s
  trans : ∀ {s t u}, P s t → P t u → P s u
  buffer : ∀ (s : State) (w : BufId) (b : Buffer), W w → ((s.buffer w).Ok s.caps.buf → b.Ok s.caps.buf) →
    P s (s.setBuffer w b)
  draw : ∀ s : State, P s { s with draws := s.draws + 1 }
  emit : ∀ (s : State) (e : Event), P s (s.emit e)
  call : ∀ (s : State) (op : Opcode) (f : Latches → Latches), P s (s.callWith op f)

/-- Wherever the chain ends, the relation holds; and the one refusal it can meet is that of R157. -/
structure Run.Keeps (P : State → State → Prop) (s : State) (r : Run) : Prop where
  ended : ∀ e t, r = .ended e t → P s t
  refused : ∀ x, r = .refused x → x = .wrongSource

variable {W : BufId → Prop} {P : State → State → Prop}

theorem Run.keeps_ended {s t : State} (e : Option EarlyEnd) (h : P s t) : (Run.ended e t).Keeps P s := by
  refine ⟨?_, by rintro x ⟨⟩⟩
  rintro e' t' ⟨⟩; exact h

theorem Run.keeps_done {s t : State} (h : P s t) : (Run.done t).Keeps P s := Run.keeps_ended none h
theorem Run.keeps_drop {s t : State} (r : DropReason) (h : P s t) : (Run.drop r t).Keeps P s := Run.keeps_ended _ h
theorem Run.keeps_notify {s t : State} (c : NotifyCode) (h : P s t) : (Run.notify c t).Keeps P s := Run.keeps_ended _ h
theorem Run.keeps_fail {s t : State} (f : Failure) (h : P s t) : (Run.fail f t).Keeps P s := Run.keeps_ended _ h
theorem Run.keeps_fault {s : State} (f : Fault) : (Run.fault f).Keeps P s := ⟨by rintro e t ⟨⟩, by rintro x ⟨⟩⟩
theorem Run.keeps_refused {s : State} : (Run.refused .wrongSource).Keeps P s :=
  ⟨by rintro e t ⟨⟩, by rintro x ⟨⟩; rfl⟩

theorem Run.keeps_andThen (hP : Move W P) {s : State} {r : Run} {k : State → Run} (hr : r.Keeps P s)
    (hk : ∀ t, P s t → (k t).Keeps P t) : (r.andThen k).Keeps P s := by
  rcases r with ⟨_ | e, t⟩ | f | x
  · have hst := hr.ended none t rfl
    exact ⟨fun e u hu => hP.trans hst ((hk t hst).ended e u hu), (hk t hst).refused⟩
  · exact Run.keeps_ended _ (hr.ended _ _ rfl)
  · exact Run.keeps_fault f
  · obtain rfl := hr.refused x rfl
    exact Run.keeps_refused

theorem Run.Keeps.from (hP : Move W P) {s t : State} {r : Run} (h : P s t) (hr : r.Keeps P t) : r.Keeps P s :=
  ⟨fun e u hu => hP.trans h (hr.ended e u hu), hr.refused⟩

theorem State.keeps_onBuffer (hP : Move W P) {w : BufId} (hw : W w) {f : Buffer → Option Buffer} (s : State)
    (hf : ∀ b c, f b = some c → b.Ok s.caps.buf → c.Ok s.caps.buf) : (s.onBuffer w f).Keeps P s := by
  unfold State.onBuffer
  split
  · exact Run.keeps_done (hP.buffer s w _ hw (hf _ _ ‹_›))
  · exact Run.keeps_fail _ (hP.refl s)

theorem State.keeps_readBuffer (hP : Move W P) (w : BufId) (off n : Nat) (s : State) {k : Nat → Run}
    (hk : ∀ v, (k v).Keeps P s) : (s.readBuffer w off n k).Keeps P s := by
  unfold State.readBuffer
  split
  · exact hk _
  · exact Run.keeps_fail _ (hP.refl s)

theorem State.keeps_loadBuffer (hP : Move W P) {w : BufId} (hw : W w) (p : Bytes) (s : State) : (s.loadBuffer w p).Keeps P s := by
  unfold State.loadBuffer
  split
  · rename_i b hb
    refine Run.keeps_done (hP.trans (hP.buffer s w b hw fun _ => Buffer.load_ok hb) ?_)
    have := hP.draw (s.setBuffer w b)
    rwa [State.setBuffer_draws] at this
  · exact Run.keeps_fail _ (hP.refl s)

/-! ### The units -/

theorem keeps_udpRx (hP : Move W P) (hb : W .buf) (s : State) : (udpRx s).Keeps P s := by
  unfold udpRx
  split
  · exact Run.keeps_drop _ (hP.refl s)
  refine State.keeps_readBuffer hP _ _ _ s fun len => ?_
  split
  · exact Run.keeps_drop _ (hP.refl s)
  refine State.keeps_readBuffer hP _ _ _ s fun stored => ?_
  refine Run.keeps_andThen hP (State.keeps_onBuffer hP hb s fun _ _ h => Buffer.memWrite_ok h) fun s1 _ => ?_
  refine Run.keeps_andThen hP (State.keeps_onBuffer hP hb s1 fun _ _ h => Buffer.memWrite_ok h) fun s2 _ => ?_
  split
  · exact Run.keeps_drop _ (hP.refl s2)
  refine State.keeps_readBuffer hP _ _ _ s2 fun sport => ?_
  refine State.keeps_readBuffer hP _ _ _ s2 fun dport => ?_
  split
  · refine Run.keeps_andThen hP (State.keeps_onBuffer hP hb s2 fun _ _ h => Buffer.addHeader_ok h) fun s3 _ => ?_
    exact Run.keeps_notify _ (hP.emit s3 _)
  · refine Run.keeps_andThen hP (State.keeps_onBuffer hP hb s2 fun _ _ h => Buffer.removeHeader_ok h) fun s3 _ => ?_
    exact Run.keeps_done (hP.emit s3 _)

theorem keeps_dispatchTo (hP : Move W P) (hb : W .buf) {f : State → Run} (hf : ∀ t, (f t).Keeps P t) (s : State) :
    (dispatchTo f s).Keeps P s := by
  unfold dispatchTo
  split
  · exact Run.keeps_drop _ (hP.refl s)
  split
  · split
    · exact (hf _).from hP (hP.call s _ _)
    · exact Run.keeps_refused
  split
  · split
    · exact (keeps_udpRx hP hb _).from hP (hP.call s _ _)
    · exact Run.keeps_refused
  · exact Run.keeps_done (hP.emit s _)

theorem keeps_transportDispatch (hP : Move W P) (hb : W .buf) (s : State) : (transportDispatch s).Keeps P s :=
  keeps_dispatchTo hP hb (fun _ => Run.keeps_refused) s

theorem keeps_ipRx (hP : Move W P) (hb : W .buf) (s : State) : (ipRx s).Keeps P s := by
  unfold ipRx
  split
  · exact Run.keeps_drop _ (hP.refl s)
  refine State.keeps_readBuffer hP _ _ _ s fun verIhl => ?_
  split
  · exact Run.keeps_drop _ (hP.refl s)
  refine State.keeps_readBuffer hP _ _ _ s fun tl => ?_
  split
  · exact Run.keeps_drop _ (hP.refl s)
  refine State.keeps_readBuffer hP _ _ _ s fun stored => ?_
  refine Run.keeps_andThen hP (State.keeps_onBuffer hP hb s fun _ _ h => Buffer.memWrite_ok h) fun s1 _ => ?_
  refine Run.keeps_andThen hP (State.keeps_onBuffer hP hb s1 fun _ _ h => Buffer.memWrite_ok h) fun s2 _ => ?_
  split
  · exact Run.keeps_drop _ (hP.refl s2)
  refine State.keeps_readBuffer hP _ _ _ s2 fun dst => ?_
  split
  · exact Run.keeps_drop _ (hP.refl s2)
  refine Run.keeps_andThen hP (State.keeps_onBuffer hP hb s2 fun _ _ h => Buffer.removePadding_ok h) fun s3 _ => ?_
  refine State.keeps_readBuffer hP _ _ _ s3 fun proto => ?_
  refine State.keeps_readBuffer hP _ _ _ s3 fun src => ?_
  refine Run.keeps_andThen hP (State.keeps_onBuffer hP hb s3 fun _ _ h => Buffer.removeHeader_ok h) fun s4 _ => ?_
  split
  · refine Run.keeps_andThen hP (State.keeps_onBuffer hP hb s4 fun _ _ h => Buffer.addHeader_ok h) fun s5 _ => ?_
    exact Run.keeps_notify _ (hP.emit s5 _)
  · exact (keeps_transportDispatch hP hb _).from hP (hP.call s4 _ _)

theorem keeps_netDispatch (hP : Move W P) (hb : W .buf) (s : State) : (netDispatch s).Keeps P s :=
  keeps_dispatchTo hP hb (keeps_ipRx hP hb) s

theorem keeps_ethRx (hP : Move W P) (hb : W .buf) (s : State) : (ethRx s).Keeps P s := by
  unfold ethRx
  split
  · exact Run.keeps_drop _ (hP.refl s)
  refine State.keeps_readBuffer hP _ _ _ s fun src => ?_
  refine State.keeps_readBuffer hP _ _ _ s fun etype => ?_
  refine Run.keeps_andThen hP (State.keeps_onBuffer hP hb s fun _ _ h => Buffer.removeHeader_ok h) fun s1 _ => ?_
  exact (keeps_netDispatch hP hb _).from hP (hP.call s1 _ _)

theorem keeps_ipFragEmit (hP : Move W P) {w : BufId} (hw : W w) (s : State) : (ipFragEmit w s).Keeps P s := by
  unfold ipFragEmit
  split
  · exact Run.keeps_fail _ (hP.refl s)
  refine Run.keeps_andThen hP ?_ fun s2 _ => ?_
  · refine Run.keeps_andThen hP (State.keeps_onBuffer hP hw s fun _ _ h => Buffer.addHeader_ok h) fun s1 _ => ?_
    exact State.keeps_onBuffer hP hw s1 fun _ _ h => Buffer.memWrites_ok h
  refine Run.keeps_andThen hP (State.keeps_onBuffer hP hw s2 fun _ _ h => Buffer.memWrite_ok h) fun s3 _ => ?_
  exact Run.keeps_done (hP.emit s3 _)

theorem keeps_emitFragment (hP : Move W P) (hw : W .fbuf) (ip : IpAddr) (proto : Byte) (ident : Half) (off : Nat) (mf : Bool)
    (chunk : Bytes) (s : State) : (emitFragment ip proto ident off mf chunk s).Keeps P s := by
  unfold emitFragment
  refine Run.keeps_andThen hP (State.keeps_loadBuffer hP hw _ s) fun s1 _ => ?_
  exact (keeps_ipFragEmit hP hw _).from hP (hP.call s1 _ _)

theorem keeps_fragmentLoop (hP : Move W P) (hw : W .fbuf) (maxp : Nat) (ip : IpAddr) (proto : Byte) (ident : Half) (rounds off : Nat)
    (rest : Bytes) (s : State) : (fragmentLoop maxp ip proto ident rounds off rest s).Keeps P s := by
  induction rounds generalizing off rest s with
  | zero => exact Run.keeps_fault _
  | succ rounds ih =>
    unfold fragmentLoop
    split
    · exact Run.keeps_andThen hP (keeps_emitFragment hP hw _ _ _ _ _ _ s) fun t _ => ih _ _ t
    · exact keeps_emitFragment hP hw _ _ _ _ _ _ s

/-- The one write `IP_TX` makes beside the moves: CR.IP_ID (R30, R175). -/
def WritesIpId (P : State → State → Prop) : Prop := ∀ (s : State) (x : Half), P s { s with ipId := x }

theorem keeps_ipTx (hP : Move W P) (hw : W .fbuf) (hId : WritesIpId P) (s : State) : (ipTx s).Keeps P s := by
  unfold ipTx
  split
  · exact Run.keeps_fail _ (hP.refl s)
  exact Run.keeps_andThen hP (keeps_fragmentLoop hP hw _ _ _ _ _ _ _ s) fun t _ => Run.keeps_done (hId t _)

theorem keeps_udpTx (hP : Move W P) (hb : W .buf) (hw : W .fbuf) (hId : WritesIpId P) (s : State) : (udpTx s).Keeps P s := by
  unfold udpTx
  split
  · exact Run.keeps_fail _ (hP.refl s)
  refine Run.keeps_andThen hP ?_ fun s2 _ => ?_
  · refine Run.keeps_andThen hP (State.keeps_onBuffer hP hb s fun _ _ h => Buffer.addHeader_ok h) fun s1 _ => ?_
    exact State.keeps_onBuffer hP hb s1 fun _ _ h => Buffer.memWrites_ok h
  refine Run.keeps_andThen hP (State.keeps_onBuffer hP hb s2 fun _ _ h => Buffer.memWrite_ok h) fun s3 _ => ?_
  exact (keeps_ipTx hP hw hId _).from hP (hP.call s3 _ _)

/-- The driver's answer to a transmission is consumed (R146). -/
def TakesLinkAnswer (P : State → State → Prop) : Prop := ∀ s : State, P s s.linkAnswered

theorem keeps_padFrame (hP : Move W P) (hb : W .buf) (s : State) : (padFrame s).Keeps P s := by
  unfold padFrame
  split
  · exact State.keeps_onBuffer hP hb s fun _ _ h => Buffer.addPadding_ok h
  · exact Run.keeps_done (hP.refl s)

theorem keeps_ethTx (hP : Move W P) (hb : W .buf) (hLink : TakesLinkAnswer P) (s : State) : (ethTx s).Keeps P s := by
  unfold ethTx
  refine Run.keeps_andThen hP (keeps_padFrame hP hb s) fun s1 _ => ?_
  refine Run.keeps_andThen hP (State.keeps_onBuffer hP hb s1 fun _ _ h => Buffer.addHeader_ok h) fun s2 _ => ?_
  refine Run.keeps_andThen hP (State.keeps_onBuffer hP hb s2 fun _ _ h => Buffer.memWrites_ok h) fun s3 _ => ?_
  exact Run.keeps_ended _ (hP.trans (hP.emit s3 _) (hLink _))

/-- The driver's answer to a poll is consumed (R148). -/
def TakesPollAnswer (P : State → State → Prop) : Prop := ∀ s : State, P s s.pollAnswered

theorem keeps_ethPoll (hP : Move W P) (hb : W .buf) (hPoll : TakesPollAnswer P) (s : State) : (ethPoll s).Keeps P s := by
  unfold ethPoll
  have h := hP.trans (hP.emit s .drvPoll) (hPoll _)
  simp only
  split
  · exact Run.keeps_done h
  · refine Run.Keeps.from hP h ?_
    refine Run.keeps_andThen hP (State.keeps_loadBuffer hP hb _ _) fun s2 _ => ?_
    exact (keeps_ethRx hP hb _).from hP (hP.call s2 _ _)

/-! ### Commands -/

/-- What `exec` answers when a command ends: the chain's last state, answered and released. -/
def Ends (P : State → State → Prop) (i : Instr) (s t : State) : Prop :=
  ∃ (early : Option EarlyEnd) (value : Half) (u : State), P (s.accept i) u ∧ t = (u.respond early value).release ∧
    (i.opcode ≠ .csum16 → value = 0#16)

/-- Which writes beside the moves a command may make: IP_TX and UDP_TX write CR.IP_ID, ETH_TX and ETH_POLL consume an
answer of the driver, NET_REGISTER writes DISPATCH, UDP_OPEN and UDP_CLOSE write PORTS (R30, R31, R32). -/
def Allows (P : State → State → Prop) : Instr → Prop
  | .ipTx _ _ _ => WritesIpId P
  | .udpTx _ _ _ _ => WritesIpId P
  | .ethTx _ _ _ => TakesLinkAnswer P
  | .ethPoll => TakesPollAnswer P
  | .netRegister _ _ => ∀ (s : State) (k h : Half) (t : Table), s.dispatch.register s.caps.dispatch k h = some t →
      P s { s with dispatch := t }
  | .udpOpen _ _ => ∀ (s : State) (k h : Half) (t : Table), s.ports.register s.caps.ports k h = some t →
      P s { s with ports := t }
  | .udpClose _ => ∀ (s : State) (k : Half), P s { s with ports := s.ports.erase k }
  | .csum16 _ => True
  | .ethRx _ => True
  | .netDispatch _ _ _ => True
  | .ipRx _ _ => True
  | .ipFragEmit _ _ _ _ _ _ => True
  | .udpRx _ _ => True

/-- Every command is a chain of moves and of the writes it is allowed, and then the shared end. -/
theorem exec_run (hP : Move (fun _ => True) P) {i : Instr} (hi : Allows P i) (s : State) :
    ∃ (v : State → Half) (r : Run), exec i s = finishWith v r ∧ r.Keeps P (s.accept i) ∧
      (i.opcode ≠ .csum16 → ∀ u, v u = 0#16) := by
  have key : ∀ (p : Bytes) (k : State → Run), (∀ t, (k t).Keeps P t) →
      (((s.accept i).loadBuffer .buf p).andThen k).Keeps P (s.accept i) :=
    fun p k hk => Run.keeps_andThen hP (State.keeps_loadBuffer hP trivial _ _) fun t _ => hk t
  cases i with
  | csum16 p => exact ⟨_, _, rfl, State.keeps_loadBuffer hP trivial _ _, fun hi => absurd rfl hi⟩
  | ethRx p => exact ⟨_, _, rfl, key p _ (keeps_ethRx hP trivial), fun _ _ => rfl⟩
  | ethTx mac proto p => exact ⟨_, _, rfl, key p _ (keeps_ethTx hP trivial hi), fun _ _ => rfl⟩
  | ethPoll => exact ⟨_, _, rfl, keeps_ethPoll hP trivial hi _, fun _ _ => rfl⟩
  | netRegister k h =>
    simp only [exec, execNetRegister]
    split
    · exact ⟨_, _, rfl, Run.keeps_fail _ (hP.refl _), fun _ _ => rfl⟩
    · exact ⟨_, _, rfl, Run.keeps_done (hi _ _ _ _ ‹_›), fun _ _ => rfl⟩
  | netDispatch src proto p => exact ⟨_, _, rfl, key p _ (keeps_netDispatch hP trivial), fun _ _ => rfl⟩
  | ipRx mac p => exact ⟨_, _, rfl, key p _ (keeps_ipRx hP trivial), fun _ _ => rfl⟩
  | ipFragEmit ip proto ident off mf p =>
    simp only [exec, execIpFragEmit]
    split
    · exact ⟨_, _, rfl, Run.keeps_fail _ (hP.refl _), fun _ _ => rfl⟩
    · exact ⟨_, _, rfl, key p _ (keeps_ipFragEmit hP (w := .buf) trivial), fun _ _ => rfl⟩
  | ipTx ip proto p =>
    simp only [exec, execIpTx]
    split
    · exact ⟨_, _, rfl, Run.keeps_fail _ (hP.refl _), fun _ _ => rfl⟩
    · exact ⟨_, _, rfl, key p _ (keeps_ipTx hP trivial hi), fun _ _ => rfl⟩
  | udpRx ip p => exact ⟨_, _, rfl, key p _ (keeps_udpRx hP trivial), fun _ _ => rfl⟩
  | udpTx ip sport dport p =>
    simp only [exec, execUdpTx]
    split
    · exact ⟨_, _, rfl, Run.keeps_fail _ (hP.refl _), fun _ _ => rfl⟩
    · exact ⟨_, _, rfl, key p _ (keeps_udpTx hP trivial trivial hi), fun _ _ => rfl⟩
  | udpOpen k h =>
    simp only [exec, execUdpOpen]
    split
    · exact ⟨_, _, rfl, Run.keeps_fail _ (hP.refl _), fun _ _ => rfl⟩
    · exact ⟨_, _, rfl, Run.keeps_done (hi _ _ _ _ ‹_›), fun _ _ => rfl⟩
  | udpClose k => exact ⟨_, _, rfl, Run.keeps_done (hi _ _), fun _ _ => rfl⟩

/-- Every command that ends has made moves, the writes it is allowed, and one response. -/
theorem exec_ends (hP : Move (fun _ => True) P) {i : Instr} (hi : Allows P i) {s t : State} (h : exec i s = .next t) :
    Ends P i s t := by
  obtain ⟨v, r, he, hr, hv⟩ := exec_run hP hi s
  rw [he] at h
  rcases finishWith_cases v r with ⟨e, u, rfl, h'⟩ | ⟨f, rfl, h'⟩ | ⟨x, rfl, h'⟩
  · rw [h'] at h; cases h
    exact ⟨e, v u, u, hr.ended e u rfl, rfl, fun hi => hv hi u⟩
  · rw [h'] at h; cases h
  · rw [h'] at h; cases h

/-- A relation that allows every write a command can make. -/
theorem allows_all (hId : WritesIpId P) (hLink : TakesLinkAnswer P) (hPoll : TakesPollAnswer P)
    (hReg : ∀ (s : State) (k h : Half) (t : Table), s.dispatch.register s.caps.dispatch k h = some t →
      P s { s with dispatch := t })
    (hOpen : ∀ (s : State) (k h : Half) (t : Table), s.ports.register s.caps.ports k h = some t →
      P s { s with ports := t })
    (hClose : ∀ (s : State) (k : Half), P s { s with ports := s.ports.erase k }) (i : Instr) : Allows P i := by
  cases i with
  | csum16 _ => trivial
  | ethRx _ => trivial
  | ethTx _ _ _ => exact hLink
  | ethPoll => exact hPoll
  | netRegister _ _ => exact hReg
  | netDispatch _ _ _ => trivial
  | ipRx _ _ => trivial
  | ipFragEmit _ _ _ _ _ _ => trivial
  | ipTx _ _ _ => exact hId
  | udpRx _ _ => trivial
  | udpTx _ _ _ _ => exact hId
  | udpOpen _ _ => exact hOpen
  | udpClose _ => exact hClose

/-! ### What every command leaves alone, and the invariant's parts -/

/-- The registers no command writes, and that the trace only grows, by events (R9, R26 to R29, R77, R78). -/
structure State.Fixed (s t : State) : Prop where
  caps : t.caps = s.caps
  ifMac : t.ifMac = s.ifMac
  ifIp : t.ifIp = s.ifIp
  mtu : t.mtu = s.mtu
  ipTtlDefault : t.ipTtlDefault = s.ipTtlDefault
  port : t.port = s.port
  trace : ∃ es : List Event, t.trace = s.trace ++ es.map .event

theorem State.Fixed.refl (s : State) : State.Fixed s s := ⟨rfl, rfl, rfl, rfl, rfl, rfl, [], by simp⟩

theorem State.Fixed.trans {s t u : State} (h : State.Fixed s t) (k : State.Fixed t u) : State.Fixed s u := by
  obtain ⟨a1, a2, a3, a4, a5, a6, es, a7⟩ := h
  obtain ⟨b1, b2, b3, b4, b5, b6, fs, b7⟩ := k
  exact ⟨b1.trans a1, b2.trans a2, b3.trans a3, b4.trans a4, b5.trans a5, b6.trans a6, es ++ fs, by
    rw [b7, a7, List.map_append, List.append_assoc]⟩

theorem move_fixed : Move W State.Fixed where
  refl := State.Fixed.refl
  trans := State.Fixed.trans
  buffer s w b _ _ := by cases w <;> exact ⟨rfl, rfl, rfl, rfl, rfl, rfl, [], by simp⟩
  draw s := ⟨rfl, rfl, rfl, rfl, rfl, rfl, [], by simp⟩
  emit s e := ⟨rfl, rfl, rfl, rfl, rfl, rfl, [e], rfl⟩
  call s _ _ := ⟨rfl, rfl, rfl, rfl, rfl, rfl, [], by simp⟩

theorem allows_fixed (i : Instr) : Allows State.Fixed i := by
  have e : ∀ s : State, s.trace = s.trace ++ ([] : List Event).map .event := fun s => by simp
  refine allows_all ?_ ?_ ?_ ?_ ?_ ?_ i
  · exact fun s _ => ⟨rfl, rfl, rfl, rfl, rfl, rfl, [], e s⟩
  · exact fun s => ⟨by simp, by simp, by simp, by simp, by simp, by simp, [], by simp⟩
  · exact fun s => ⟨rfl, rfl, rfl, rfl, rfl, rfl, [], e s⟩
  · exact fun s _ _ _ _ => ⟨rfl, rfl, rfl, rfl, rfl, rfl, [], e s⟩
  · exact fun s _ _ _ _ => ⟨rfl, rfl, rfl, rfl, rfl, rfl, [], e s⟩
  · exact fun s _ => ⟨rfl, rfl, rfl, rfl, rfl, rfl, [], e s⟩

/-- A registration keeps a table in bounds (R31, R32). -/
theorem Table.register_ok {cap : Nat} {t u : Table} {k h : Half} (hr : t.register cap k h = some u) (ht : t.Ok cap) :
    u.Ok cap := by
  rcases Table.register_cases cap t k h with ⟨_, _, h'⟩ | ⟨hn, h'⟩
  · rw [h'] at hr; cases hr
  · rw [h'] at hr; cases hr
    refine ⟨Table.insert_wf ht.canonical k h, ?_⟩
    have := ht.room
    rw [Table.length_insert ht.canonical]
    split
    · rename_i hl
      have : t.length ≠ cap := fun he => hn ⟨hl, he⟩
      omega
    · exact this

theorem Table.erase_ok {cap : Nat} {t : Table} (k : Half) (ht : t.Ok cap) : (t.erase k).Ok cap :=
  ⟨Table.erase_wf ht.canonical k, le_trans (Table.length_erase_le t k) ht.room⟩

/-- The parts of the invariant that a chain of calls carries. -/
structure State.Bounds (s t : State) : Prop where
  caps : t.caps = s.caps
  buf : s.buf.Ok s.caps.buf → t.buf.Ok t.caps.buf
  fbuf : s.fbuf.Ok s.caps.buf → t.fbuf.Ok t.caps.buf
  dispatch : s.dispatch.Ok s.caps.dispatch → t.dispatch.Ok t.caps.dispatch
  ports : s.ports.Ok s.caps.ports → t.ports.Ok t.caps.ports

theorem move_bounds : Move W State.Bounds where
  refl _ := ⟨rfl, id, id, id, id⟩
  trans h k := ⟨k.caps.trans h.caps, k.buf ∘ h.buf, k.fbuf ∘ h.fbuf, k.dispatch ∘ h.dispatch, k.ports ∘ h.ports⟩
  buffer s w b _ hb := by
    cases w
    · exact ⟨rfl, hb, id, id, id⟩
    · exact ⟨rfl, id, hb, id, id⟩
  draw _ := ⟨rfl, id, id, id, id⟩
  emit _ _ := ⟨rfl, id, id, id, id⟩
  call _ _ _ := ⟨rfl, id, id, id, id⟩

theorem allows_bounds (i : Instr) : Allows State.Bounds i := by
  refine allows_all ?_ ?_ ?_ ?_ ?_ ?_ i
  · exact fun s _ => ⟨rfl, id, id, id, id⟩
  · exact fun s => ⟨by simp, by simp, by simp, by simp, by simp⟩
  · exact fun s => ⟨rfl, id, id, id, id⟩
  · exact fun s _ _ _ hr => ⟨rfl, id, id, Table.register_ok hr, id⟩
  · exact fun s _ _ _ hr => ⟨rfl, id, id, id, Table.register_ok hr⟩
  · exact fun s k => ⟨rfl, id, id, id, Table.erase_ok k⟩

/-- The one refusal a command can meet is that of R157. -/
theorem exec_refused {i : Instr} {s : State} {x : Refusal} (h : exec i s = .refused x) : x = .wrongSource := by
  obtain ⟨v, r, he, hr, -⟩ := exec_run (move_fixed) (allows_fixed i) s
  rw [he] at h
  rcases finishWith_cases v r with ⟨e, u, rfl, h'⟩ | ⟨f, rfl, h'⟩ | ⟨y, rfl, h'⟩
  · rw [h'] at h; cases h
  · rw [h'] at h; cases h
  · rw [h'] at h; cases h
    exact hr.refused x rfl

/-! ### One step -/

theorem State.configLegal_iff (s : State) : s.configLegal = true ↔
    28 ≤ s.mtu.toNat ∧ (s.mtu.toNat - 20) % 8 = 0 ∧ 2 ≤ s.caps.dispatch ∧ 1 ≤ s.caps.ports ∧ 88 ≤ s.caps.buf := by
  have e : Config.bufHeadroom + 46 = 88 := rfl
  unfold State.configLegal
  simp only [Bool.and_eq_true, decide_eq_true_eq, e]
  tauto

theorem State.Fixed.configLegal {s t : State} (h : State.Fixed s t) : t.configLegal = s.configLegal := by
  unfold State.configLegal
  rw [h.mtu, h.caps]

/-- A step of an IDLE engine in a legal configuration. -/
theorem step_of_legal {s : State} (h : s.configLegal = true) (hi : s.engine = .idle) :
    step s =
      match decode s.port with
      | .incomplete => .next s
      | .illegal _ rest => .next ({ s with port := rest } : State).rejectCommand
      | .command i rest => exec i { s with port := rest } := by
  unfold step
  rw [if_neg (by simp [h])]
  split
  · rename_i hb; rw [hi] at hb; cases hb
  · cases decode s.port <;> rfl

theorem step_of_illegal {s : State} (h : s.configLegal = false) : step s = .refused .illegalConfiguration := if_pos h

end Sys2Proof.Machine
end

