-- ==== Sys2Proof/Laws/Report.lean ====
section
/-!
SUPPORT. What every command does in a legal configuration, as one function of the command and of what is not scratch: how
it ends, which events leave, and what it writes to the tables, to CR.IP_ID and to the driver's answers. One lemma says that
`exec` does exactly that, whatever the Buffers hold.
-/
namespace Sys2Proof.Machine

/-- Everything a command that ends does outside scratch. -/
structure Report where
  early       : Option EarlyEnd
  value       : Half
  events      : List Event
  ipId        : Half
  dispatch    : Table
  ports       : Table
  txAnswers   : List Bool
  pollAnswers : List (Option Bytes)
  draws       : Nat

/-- A command that loads one Buffer and then only answers and emits. -/
def State.reads (s : State) (a : Answer) : Report where
  early := a.1
  value := 0#16
  events := a.2
  ipId := s.ipId
  dispatch := s.dispatch
  ports := s.ports
  txAnswers := s.txAnswers
  pollAnswers := s.pollAnswers
  draws := s.draws + 1

/-- A command that loads no Buffer and then only answers. -/
def State.answers (s : State) (early : Option EarlyEnd) : Report := { s.reads (early, []) with draws := s.draws }

/-- A command that fails before it loads a Buffer (R212). -/
def State.fails (s : State) (f : Failure) : Report := s.answers (some (.fail f))

/-- A command that reads a payload in BUF, if it fits there (R61, R62). -/
def State.reading (s : State) (p : Bytes) (x : Except Refusal Answer) : Except Refusal Report :=
  if 42 + p.length ≤ s.caps.buf then x.map s.reads else .ok (s.fails .buf)

/-- The events of an IP_TX of `p` (R175, R176). -/
def State.sendEvents (s : State) (ip : IpAddr) (proto : Byte) (p : Bytes) : List Event :=
  (Wire.fragments (s.mtu.toNat - 20) s.ipTtlDefault s.ifIp ip proto s.ipId p).map fun d => .arp d ip

/-- What a command does. -/
def State.report (s : State) : Instr → Except Refusal Report
  | .csum16 p =>
    if 42 + p.length ≤ s.caps.buf then .ok { s.reads (none, []) with value := BitVec.ofNat 16 (csum16 p) }
    else .ok (s.fails .buf)
  | .ethRx f => s.reading f (s.ethAnswer f)
  | .ethTx mac proto p =>
    if 42 + p.length ≤ s.caps.buf then
      .ok { s.reads (if s.txAnswer then none else some (.fail .link), [.drvTx (Wire.ethFrame mac s.ifMac proto p)]) with
        txAnswers := s.txAnswers.tail
        draws := if s.txAnswers = [] then s.draws + 2 else s.draws + 1 }
    else .ok (s.fails .buf)
  | .ethPoll =>
    match s.pollAnswer with
    | none => .ok { s.answers none with events := [.drvPoll], pollAnswers := s.pollAnswers.tail }
    | some f =>
      if 42 + f.length ≤ s.caps.buf then
        (s.ethAnswer f).map fun a => { s.reads (a.1, .drvPoll :: a.2) with pollAnswers := s.pollAnswers.tail }
      else .ok { s.fails .buf with events := [.drvPoll], pollAnswers := s.pollAnswers.tail }
  | .netRegister key hnd =>
    if s.dispatch.lookup key = none ∧ s.dispatch.length = s.caps.dispatch then .ok (s.fails .tableFull)
    else .ok { s.answers none with dispatch := s.dispatch.insert key hnd }
  | .netDispatch src proto p =>
    s.reading p (s.netAnswer src proto ((Buffer.loaded s.draws p).bytesFrom 22 20) p)
  | .ipRx _ p => s.reading p (s.ipAnswer p)
  | .ipFragEmit ip proto ident off mf p =>
    match fragOperandError off p.length with
    | some f => .ok (s.fails f)
    | none => s.reading p (.ok (none, [.arp (Wire.datagram s.ipTtlDefault s.ifIp ip proto ident off mf p) ip]))
  | .ipTx ip proto p =>
    if 65515 < p.length then .ok (s.fails .tooLong)
    else if 42 + p.length ≤ s.caps.buf then
      .ok { s.reads (none, s.sendEvents ip proto p) with
        ipId := s.ipId + 1#16
        draws := s.draws + 1 + Wire.fragmentCount (s.mtu.toNat - 20) p.length }
    else .ok (s.fails .buf)
  | .udpRx ip p => s.reading p (.ok (s.udpAnswer ip ((Buffer.loaded s.draws p).bytesFrom 22 20) p))
  | .udpTx ip sport dport p =>
    if 65527 < p.length then .ok (s.fails .tooLong)
    else if s.caps.buf < 42 + p.length then .ok (s.fails .buf)
    else if 65507 < p.length then .ok (s.reads (some (.fail .tooLong), []))
    else if 42 + min (s.mtu.toNat - 20) (8 + p.length) ≤ s.caps.buf then
      .ok { s.reads (none, s.sendEvents ip 17#8 (Wire.udpDatagram s.ifIp ip sport dport p)) with
        ipId := s.ipId + 1#16
        draws := s.draws + 1 + Wire.fragmentCount (s.mtu.toNat - 20) (p.length + 8) }
    else .ok (s.reads (some (.fail .buf), []))
  | .udpOpen key hnd =>
    if s.ports.lookup key = none ∧ s.ports.length = s.caps.ports then .ok (s.fails .tableFull)
    else .ok { s.answers none with ports := s.ports.insert key hnd }
  | .udpClose key => .ok { s.answers none with ports := s.ports.erase key }

/-- The state after a command that did what `r` says; the Buffers `b` and `c` are scratch. -/
def State.reported (s : State) (r : Report) (b c : Buffer) : State :=
  { s.after r.early r.value r.events b r.draws with
    fbuf := c
    ipId := r.ipId
    dispatch := r.dispatch
    ports := r.ports
    txAnswers := r.txAnswers
    pollAnswers := r.pollAnswers }

/-- A command did what its report says. -/
def Reports (s : State) (o : Host.Outcome State Fault Refusal) : Except Refusal Report → Prop
  | .ok r => ∃ b c : Buffer, o = .next (s.reported r b c)
  | .error x => o = .refused x

theorem reports_of_answers {s : State} {p : Bytes} {o : Host.Outcome State Fault Refusal} {x : Except Refusal Answer}
    (h : Answers s p o x) : Reports s o (x.map s.reads) := by
  cases x with
  | error x => exact h
  | ok a =>
    obtain ⟨b, -, h⟩ := h
    exact ⟨b, s.fbuf, h⟩

theorem reports_noRoom {i : Instr} {s : State} (hi : loadsPayload i = true) (hop : operandErrorOf i = none)
    (h : ¬ 42 + i.payload.length ≤ s.caps.buf) : Reports s (exec i s) (.ok (s.fails .buf)) :=
  ⟨s.buf, s.fbuf, exec_noRoom i s hi hop (by omega)⟩

theorem reports_reading {i : Instr} {s : State} {x : Except Refusal Answer} (hi : loadsPayload i = true)
    (hop : operandErrorOf i = none) (h : 42 + i.payload.length ≤ s.caps.buf → Reports s (exec i s) (x.map s.reads)) :
    Reports s (exec i s) (s.reading i.payload x) := by
  unfold State.reading
  by_cases hfit : 42 + i.payload.length ≤ s.caps.buf
  · rw [if_pos hfit]; exact h hfit
  · rw [if_neg hfit]; exact reports_noRoom hi hop hfit

/-- Every command does what its report says. -/
theorem exec_reports (i : Instr) (s : State) (hl : s.configLegal = true) : Reports s (exec i s) (s.report i) := by
  obtain ⟨hm, h8, -, -, hcap⟩ := (State.configLegal_iff s).1 hl
  cases i with
  | csum16 p =>
    simp only [State.report]
    by_cases h : 42 + p.length ≤ s.caps.buf
    · rw [if_pos h]; exact ⟨_, s.fbuf, exec_csum16 p s h⟩
    · rw [if_neg h]; exact reports_noRoom rfl rfl h
  | ethRx f => exact reports_reading (i := .ethRx f) rfl rfl fun h => reports_of_answers (exec_ethRx f s h)
  | ethTx mac proto p =>
    simp only [State.report]
    by_cases h : 42 + p.length ≤ s.caps.buf
    · rw [if_pos h]
      obtain ⟨b, -, -, he⟩ := exec_ethTx mac proto p s (by omega)
      exact ⟨b, s.fbuf, he⟩
    · rw [if_neg h]; exact reports_noRoom rfl rfl h
  | ethPoll =>
    simp only [State.report]
    cases hp : s.pollAnswer with
    | none => exact ⟨_, s.fbuf, exec_ethPoll_none s hp⟩
    | some f =>
      simp only
      by_cases h : 42 + f.length ≤ s.caps.buf
      · rw [if_pos h]
        have := exec_ethPoll_frame s f hp h
        revert this
        cases s.ethAnswer f with
        | error x => exact id
        | ok a =>
          rintro ⟨b, -, he⟩
          refine ⟨b, s.fbuf, he.trans ?_⟩
          congr 1
          simp only [State.reported, State.after, State.reads, List.map_cons, List.append_assoc, List.cons_append,
            List.nil_append]
      · rw [if_neg h]; exact ⟨_, s.fbuf, exec_ethPoll_noRoom s f hp (by omega)⟩
  | netRegister key hnd =>
    simp only [State.report]
    by_cases h : s.dispatch.lookup key = none ∧ s.dispatch.length = s.caps.dispatch
    · rw [if_pos h]; exact ⟨_, s.fbuf, exec_netRegister_full key hnd s h⟩
    · rw [if_neg h]; exact ⟨_, s.fbuf, exec_netRegister key hnd s h⟩
  | netDispatch src proto p =>
    exact reports_reading (i := .netDispatch src proto p) rfl rfl fun h =>
      reports_of_answers (exec_netDispatch src proto p s h)
  | ipRx mac p => exact reports_reading (i := .ipRx mac p) rfl rfl fun h => reports_of_answers (exec_ipRx mac p s h)
  | ipFragEmit ip proto ident off mf p =>
    simp only [State.report]
    cases hop : fragOperandError off p.length with
    | some f => exact ⟨_, s.fbuf, exec_ipFragEmit_refused ip proto ident off mf p s hop⟩
    | none =>
      obtain ⟨h1, h2⟩ := fragOperandError_none.1 hop
      refine reports_reading (i := .ipFragEmit ip proto ident off mf p) rfl hop fun h => ?_
      obtain ⟨b, -, -, -, he⟩ := exec_ipFragEmit ip proto ident off mf p s h1 h2 h
      exact ⟨b, s.fbuf, he⟩
  | ipTx ip proto p =>
    simp only [State.report]
    by_cases hp : 65515 < p.length
    · rw [if_pos hp]; exact ⟨_, s.fbuf, exec_ipTx_tooLong ip proto p s hp⟩
    rw [if_neg hp]
    by_cases h : 42 + p.length ≤ s.caps.buf
    · rw [if_pos h]
      obtain ⟨c, he⟩ := exec_ipTx ip proto p s hm h8 (by omega) h
      exact ⟨_, c, he⟩
    · rw [if_neg h]; exact reports_noRoom rfl (if_neg (by omega)) h
  | udpRx ip p => exact reports_reading (i := .udpRx ip p) rfl rfl fun h => reports_of_answers (exec_udpRx ip p s h)
  | udpTx ip sport dport p =>
    simp only [State.report]
    by_cases h1 : 65527 < p.length
    · rw [if_pos h1]; exact ⟨_, s.fbuf, exec_udpTx_tooLong ip sport dport p s h1⟩
    rw [if_neg h1]
    by_cases h2 : s.caps.buf < 42 + p.length
    · rw [if_pos h2]
      exact reports_noRoom (i := .udpTx ip sport dport p) rfl (if_neg (by omega)) (by show ¬ 42 + p.length ≤ _; omega)
    rw [if_neg h2]
    by_cases h3 : 65507 < p.length
    · rw [if_pos h3]
      obtain ⟨b, he⟩ := exec_udpTx_ipTooLong ip sport dport p s h3 (by omega) (by omega)
      exact ⟨b, s.fbuf, he⟩
    rw [if_neg h3]
    by_cases h4 : 42 + min (s.mtu.toNat - 20) (8 + p.length) ≤ s.caps.buf
    · rw [if_pos h4]
      obtain ⟨b, c, -, -, -, he⟩ := exec_udpTx ip sport dport p s hm h8 (by omega) (by omega) h4
      exact ⟨b, c, he⟩
    · rw [if_neg h4]
      obtain ⟨b, he⟩ := exec_udpTx_noRoom ip sport dport p s (by omega) (by omega) (by omega)
      exact ⟨b, s.fbuf, he⟩
  | udpOpen key hnd =>
    simp only [State.report]
    by_cases h : s.ports.lookup key = none ∧ s.ports.length = s.caps.ports
    · rw [if_pos h]; exact ⟨_, s.fbuf, exec_udpOpen_full key hnd s h⟩
    · rw [if_neg h]; exact ⟨_, s.fbuf, exec_udpOpen key hnd s h⟩
  | udpClose key => exact ⟨_, s.fbuf, exec_udpClose key s⟩

/-! ### What reports say -/

/-- How a packet ends: quietly if dropped, with one notification if notified, and never as a failure (R210, R211). -/
def Answer.Mild (a : Answer) : Prop :=
  (∀ f, a.1 ≠ some (.fail f)) ∧ (∀ r, a.1 = some (.drop r) → a.2 = []) ∧
    ∀ c, a.1 = some (.notify c) → ∃ orig ip reason, a.2 = [.icmpUnreach orig ip reason]

theorem State.udpAnswer_mild (s : State) (src : IpAddr) (before d : Bytes) : (s.udpAnswer src before d).Mild := by
  unfold State.udpAnswer
  split
  · exact ⟨by rintro f ⟨⟩, fun _ _ => rfl, by rintro c ⟨⟩⟩
  split
  · exact ⟨by rintro f ⟨⟩, by rintro r ⟨⟩, fun _ _ => ⟨_, _, _, rfl⟩⟩
  · exact ⟨by rintro f ⟨⟩, by rintro r ⟨⟩, by rintro c ⟨⟩⟩

theorem State.dispatchAnswer_mild {s : State} {ip : Except Refusal Answer} (hip : ∀ a, ip = .ok a → a.Mild) {src : Source}
    {key : Half} {before d : Bytes} {a : Answer} (h : s.dispatchAnswer ip src key before d = .ok a) : a.Mild := by
  unfold State.dispatchAnswer at h
  split at h
  · cases h; exact ⟨by rintro f ⟨⟩, fun _ _ => rfl, by rintro c ⟨⟩⟩
  split at h
  · split at h
    · exact hip a h
    · cases h
  split at h
  · split at h
    · cases h
    · cases h; exact s.udpAnswer_mild _ _ _
  · cases h; exact ⟨by rintro f ⟨⟩, by rintro r ⟨⟩, by rintro c ⟨⟩⟩

theorem State.ipAnswer_mild {s : State} {d : Bytes} {a : Answer} (h : s.ipAnswer d = .ok a) : a.Mild := by
  unfold State.ipAnswer at h
  split at h
  · cases h; exact ⟨by rintro f ⟨⟩, fun _ _ => rfl, by rintro c ⟨⟩⟩
  split at h
  · exact State.dispatchAnswer_mild (by rintro a ⟨⟩) h
  · cases h; exact ⟨by rintro f ⟨⟩, by rintro r ⟨⟩, fun _ _ => ⟨_, _, _, rfl⟩⟩

theorem State.netAnswer_mild {s : State} {src : Source} {key : Half} {before d : Bytes} {a : Answer}
    (h : s.netAnswer src key before d = .ok a) : a.Mild :=
  State.dispatchAnswer_mild (fun _ => State.ipAnswer_mild) h

theorem State.ethAnswer_mild {s : State} {f : Bytes} {a : Answer} (h : s.ethAnswer f = .ok a) : a.Mild := by
  unfold State.ethAnswer at h
  split at h
  · cases h; exact ⟨by rintro f ⟨⟩, fun _ _ => rfl, by rintro c ⟨⟩⟩
  · exact State.netAnswer_mild h

end Sys2Proof.Machine
end

