-- ==== Sys2Proof/Laws/Wire.lean ====
section
/-!
SUPPORT. What a receiver reads from the datagrams the block builds: each field of the IPv4 and UDP headers, that both
validators' checks pass, and what is left once padding and headers are gone (30_encoding.md R92, R95, R98, 43_ipv4_rx.md
R160 to R165, 45_udp.md R185 to R188).
-/
namespace Sys2Proof.Wire

open Sys2Proof.Machine

/-- A field between two others, set to zero (R136). -/
theorem zeroField_mid (a b c : Bytes) (h : b.length = 2) : zeroField (a ++ b ++ c) a.length = a ++ bytesOf 2 0 ++ c := by
  have hz : bytesOf 2 0 = [0#8, 0#8] := rfl
  rw [zeroField, List.drop_left' (by rw [List.length_append, h]), List.append_assoc a b c, List.take_left' rfl, hz]

/-! ### IPv4 -/

theorem zeroField_headerWith (h : Ipv4) (c : Nat) : zeroField (h.headerWith c) 10 = h.headerWith 0 := by
  rw [headerWith_split, headerWith_split]
  have := zeroField_mid (fragBefore h) (bytesOf 2 c) (fragAfter h) (by simp)
  rwa [length_fragBefore] at this

/-- The fields of a header, read from the bytes that begin with it (R92). -/
structure HeaderReads (h : Ipv4) (c : Nat) (p : Bytes) : Prop where
  ver   : beAt (h.headerWith c ++ p) 0 1 = 0x45
  len   : beAt (h.headerWith c ++ p) 2 2 = (20 + h.len) % 65536
  ident : beAt (h.headerWith c ++ p) 4 2 = h.ident.toNat
  flags : beAt (h.headerWith c ++ p) 6 2 = (h.mf.toNat * 0x2000 + h.off.toNat / 8) % 65536
  ttl   : beAt (h.headerWith c ++ p) 8 1 = h.ttl.toNat
  proto : beAt (h.headerWith c ++ p) 9 1 = h.proto.toNat
  csum  : beAt (h.headerWith c ++ p) 10 2 = c % 65536
  src   : beAt (h.headerWith c ++ p) 12 4 = h.src.toNat
  dst   : beAt (h.headerWith c ++ p) 16 4 = h.dst.toNat

theorem headerReads (h : Ipv4) (c : Nat) (p : Bytes) : HeaderReads h c p := by
  have e : ∀ off n, off + n ≤ 20 → beAt (h.headerWith c ++ p) off n = beAt (h.headerWith c) off n :=
    fun off n hn => beAt_append_left _ _ _ _ (by simpa using hn)
  have hs := h.src.isLt
  have hd := h.dst.isLt
  have hi := h.ident.isLt
  constructor
  · rw [e _ _ (by omega)]; rfl
  · rw [e _ _ (by omega)]; exact beNat_bytesOf 2 (20 + h.len)
  · rw [e _ _ (by omega)]; exact (beNat_bytesOf 2 h.ident.toNat).trans (Nat.mod_eq_of_lt (by omega))
  · rw [e _ _ (by omega)]; exact beNat_bytesOf 2 _
  · rw [e _ _ (by omega)]; exact beNat_singleton h.ttl
  · rw [e _ _ (by omega)]; exact beNat_singleton h.proto
  · rw [e _ _ (by omega)]; exact beNat_bytesOf 2 c
  · rw [e _ _ (by omega)]; exact (beNat_bytesOf 4 h.src.toNat).trans (Nat.mod_eq_of_lt (by omega))
  · rw [e _ _ (by omega)]; exact (beNat_bytesOf 4 h.dst.toNat).trans (Nat.mod_eq_of_lt (by omega))

/-- A datagram the block built passes the five checks of the interface it is addressed to, whatever padding follows it
(R160 to R164); the trim leaves the datagram, and its protocol and source are those it was built with (R165, R167). -/
structure Passes (src dst : IpAddr) (proto : Byte) (d pad : Bytes) : Prop where
  gate  : ipGate dst (d ++ pad) = none
  trim  : ipTrim (d ++ pad) = d
  proto : beAt (d ++ pad) 9 1 = proto.toNat
  src   : beAt (d ++ pad) 12 4 = src.toNat

theorem passes_datagram (ttl : Byte) (src dst : IpAddr) (proto : Byte) (ident off : Half) (mf : Bool) (p pad : Bytes)
    (hp : p.length ≤ 65515) : Passes src dst proto (datagram ttl src dst proto ident off mf p) pad := by
  unfold datagram Ipv4.header
  generalize hh : Ipv4.mk ttl src dst proto ident off mf p.length = h
  have hl : h.len = p.length := by rw [← hh]
  generalize hc : csum16 (h.headerWith 0) = c
  have hcl : c ≤ 65535 := hc ▸ csum16_le _
  have R := headerReads h c (p ++ pad)
  have htl : beAt (h.headerWith c ++ (p ++ pad)) 2 2 = 20 + p.length := by rw [R.len, hl]; omega
  constructor
  · rw [List.append_assoc, ipGate, htl, R.ver, R.csum, R.dst, List.take_left' (by simp), zeroField_headerWith, hc,
      show (h.headerWith c ++ (p ++ pad)).length = 20 + (p.length + pad.length) by simp,
      if_neg (by omega), if_neg (by omega), if_neg (by omega), if_neg (by omega), if_neg (by rw [← hh]; simp)]
  · rw [List.append_assoc, ipTrim, htl, ← List.append_assoc]
    exact List.take_left' (by simp)
  · rw [List.append_assoc, R.proto, ← hh]
  · rw [List.append_assoc, R.src, ← hh]

theorem drop_datagram (ttl : Byte) (src dst : IpAddr) (proto : Byte) (ident off : Half) (mf : Bool) (p : Bytes) :
    (datagram ttl src dst proto ident off mf p).drop 20 = p := List.drop_left' (by simp)

/-! ### Fragments -/

/-- The first `k` chunks of a payload, put together (R176). -/
theorem flatten_fragmentPayload (maxp : Nat) (p : Bytes) (k : Nat) :
    ((List.range k).map fun j => fragmentPayload maxp p j).flatten = p.take (k * maxp) := by
  induction k with
  | zero => simp
  | succ k ih =>
    rw [List.range_succ, List.map_append, List.flatten_append, ih]
    simp only [List.map_cons, List.map_nil, List.flatten_cons, List.flatten_nil, List.append_nil, fragmentPayload]
    rw [Nat.add_mul, Nat.one_mul, List.take_add]

/-- The payloads of the datagrams of one IP_TX, put together, are the payload sent (R180). -/
theorem flatten_fragments (maxp : Nat) (ttl : Byte) (src dst : IpAddr) (proto : Byte) (ident : Half) (p : Bytes)
    (hm : 0 < maxp) : ((fragments maxp ttl src dst proto ident p).map fun d => d.drop 20).flatten = p := by
  have hlast := lt_fragmentCount (n := p.length) (k := fragmentCount maxp p.length) hm (fragmentCount_pos _ _ hm)
  simp only [fragments, List.map_map, Function.comp_def, fragment, drop_datagram]
  rw [flatten_fragmentPayload]
  exact List.take_of_length_le (by omega)

theorem length_fragments (maxp : Nat) (ttl : Byte) (src dst : IpAddr) (proto : Byte) (ident : Half) (p : Bytes) :
    (fragments maxp ttl src dst proto ident p).length = fragmentCount maxp p.length := by simp [fragments]

/-- A payload that fits one fragment is sent in one (R176, R179). -/
theorem fragmentCount_eq_one {maxp n : Nat} (hm : 0 < maxp) (h : n ≤ maxp) : fragmentCount maxp n = 1 := by
  have := lt_fragmentCount (n := n) hm (le_refl 1)
  have := fragmentCount_pos maxp n hm
  omega

/-! ### UDP -/

theorem zeroField_udpDatagram (src dst : IpAddr) (sport dport : Half) (p : Bytes) :
    zeroField (udpDatagram src dst sport dport p) 6 = udpHeaderWith sport dport (8 + p.length) 0 ++ p := by
  have := zeroField_mid (bytesOf 2 sport.toNat ++ bytesOf 2 dport.toNat ++ bytesOf 2 (8 + p.length))
    (bytesOf 2 (csum16 (pseudoHeader src dst (8 + p.length) ++ (udpHeaderWith sport dport (8 + p.length) 0 ++ p)))) p
    (by simp)
  rwa [show (bytesOf 2 sport.toNat ++ bytesOf 2 dport.toNat ++ bytesOf 2 (8 + p.length)).length = 6 by simp] at this

/-- The fields of a UDP datagram the block built (R95), that it passes the checks of the interface it is addressed to
(R186, R188), and its payload (R187). -/
structure UdpReads (src dst : IpAddr) (sport dport : Half) (p d : Bytes) : Prop where
  sport   : beAt d 0 2 = sport.toNat
  dport   : beAt d 2 2 = dport.toNat
  len     : beAt d 4 2 = 8 + p.length
  gate    : udpGate src dst d = none
  payload : udpPayload d = p

theorem udpReads (src dst : IpAddr) (sport dport : Half) (p : Bytes) (hp : p.length ≤ 65507) :
    UdpReads src dst sport dport p (udpDatagram src dst sport dport p) := by
  have h1 := sport.isLt
  have h2 := dport.isLt
  have hc := csum16_le (pseudoHeader src dst (8 + p.length) ++ (udpHeaderWith sport dport (8 + p.length) 0 ++ p))
  have hlen : beAt (udpDatagram src dst sport dport p) 4 2 = 8 + p.length :=
    (beNat_bytesOf 2 (8 + p.length)).trans (Nat.mod_eq_of_lt (by omega))
  have hcsum : beAt (udpDatagram src dst sport dport p) 6 2 =
      csum16 (pseudoHeader src dst (8 + p.length) ++ (udpHeaderWith sport dport (8 + p.length) 0 ++ p)) :=
    (beNat_bytesOf 2 _).trans (Nat.mod_eq_of_lt (by omega))
  refine ⟨(beNat_bytesOf 2 sport.toNat).trans (Nat.mod_eq_of_lt (by omega)),
    (beNat_bytesOf 2 dport.toNat).trans (Nat.mod_eq_of_lt (by omega)), hlen, ?_, ?_⟩
  · rw [udpGate, hlen, zeroField_udpDatagram, List.take_of_length_le (by simp), hcsum, length_udpDatagram,
      if_neg (by omega), if_neg (by omega), if_neg (by simp)]
  · rw [udpPayload, hlen, udpDatagram, List.drop_left' (by simp), List.take_of_length_le (by omega)]

end Sys2Proof.Wire
end

