-- ==== Sys2Proof/Laws/Writes.lean ====
section
/-!
SUPPORT. Which commands write what: relations between the states around a chain of calls for the tables, for CR.IP_ID
and for the bytes of the Buffers (10_state.md R30 to R32, 43_ipv4_rx.md R163, 45_udp.md R191).
-/
namespace Sys2Proof.Machine

/-! ### Tables and CR.IP_ID -/

/-- A relation that the moves, the acceptance and the end of a command keep holds across the command. -/
theorem exec_keeps {P : State → State → Prop} (hP : Move (fun _ => True) P)
    (hAcc : ∀ i s, P s (s.accept i)) (hEnd : ∀ s e v, P s (s.respond e v).release) {i : Instr} (hi : Allows P i)
    {s t : State} (h : exec i s = .next t) : P s t := by
  obtain ⟨e, v, u, hu, rfl, -⟩ := exec_ends hP hi h
  exact hP.trans (hAcc i s) (hP.trans hu (hEnd u e v))

theorem move_dispatch {W} : Move W (fun s t : State => t.dispatch = s.dispatch) where
  refl _ := rfl
  trans h k := k.trans h
  buffer s w b _ _ := by cases w <;> rfl
  draw _ := rfl
  emit _ _ := rfl
  call _ _ _ := rfl

theorem move_ports {W} : Move W (fun s t : State => t.ports = s.ports) where
  refl _ := rfl
  trans h k := k.trans h
  buffer s w b _ _ := by cases w <;> rfl
  draw _ := rfl
  emit _ _ := rfl
  call _ _ _ := rfl

theorem move_ipId {W} : Move W (fun s t : State => t.ipId = s.ipId) where
  refl _ := rfl
  trans h k := k.trans h
  buffer s w b _ _ := by cases w <;> rfl
  draw _ := rfl
  emit _ _ := rfl
  call _ _ _ := rfl

theorem allows_dispatch (i : Instr) (hi : ∀ k h, i ≠ .netRegister k h) :
    Allows (fun s t : State => t.dispatch = s.dispatch) i := by
  cases i with
  | csum16 _ => trivial
  | ethRx _ => trivial
  | ethTx _ _ _ => exact fun s => by simp
  | ethPoll => exact fun _ => rfl
  | netRegister k h => exact absurd rfl (hi k h)
  | netDispatch _ _ _ => trivial
  | ipRx _ _ => trivial
  | ipFragEmit _ _ _ _ _ _ => trivial
  | ipTx _ _ _ => exact fun _ _ => rfl
  | udpRx _ _ => trivial
  | udpTx _ _ _ _ => exact fun _ _ => rfl
  | udpOpen _ _ => exact fun _ _ _ _ _ => rfl
  | udpClose _ => exact fun _ _ => rfl

theorem allows_ports (i : Instr) (hi : ∀ k h, i ≠ .udpOpen k h) (hi' : ∀ k, i ≠ .udpClose k) :
    Allows (fun s t : State => t.ports = s.ports) i := by
  cases i with
  | csum16 _ => trivial
  | ethRx _ => trivial
  | ethTx _ _ _ => exact fun s => by simp
  | ethPoll => exact fun _ => rfl
  | netRegister _ _ => exact fun _ _ _ _ _ => rfl
  | netDispatch _ _ _ => trivial
  | ipRx _ _ => trivial
  | ipFragEmit _ _ _ _ _ _ => trivial
  | ipTx _ _ _ => exact fun _ _ => rfl
  | udpRx _ _ => trivial
  | udpTx _ _ _ _ => exact fun _ _ => rfl
  | udpOpen k h => exact absurd rfl (hi k h)
  | udpClose k => exact absurd rfl (hi' k)

theorem allows_ipId (i : Instr) (hi : ∀ a b c, i ≠ .ipTx a b c) (hi' : ∀ a b c d, i ≠ .udpTx a b c d) :
    Allows (fun s t : State => t.ipId = s.ipId) i := by
  cases i with
  | csum16 _ => trivial
  | ethRx _ => trivial
  | ethTx _ _ _ => exact fun s => by simp
  | ethPoll => exact fun _ => rfl
  | netRegister _ _ => exact fun _ _ _ _ _ => rfl
  | netDispatch _ _ _ => trivial
  | ipRx _ _ => trivial
  | ipFragEmit _ _ _ _ _ _ => trivial
  | ipTx a b c => exact absurd rfl (hi a b c)
  | udpRx _ _ => trivial
  | udpTx a b c d => exact absurd rfl (hi' a b c d)
  | udpOpen _ _ => exact fun _ _ _ _ _ => rfl
  | udpClose _ => exact fun _ _ => rfl

/-- CR.IP_ID either stays, or IP_TX completed. -/
def IdStep (s : State) (r : Run) : Prop :=
  ∀ e t, r = .ended e t → t.ipId = s.ipId ∨ (t.ipId = s.ipId + 1#16 ∧ e = none)

theorem IdStep.andThen {s : State} {r : Run} {k : State → Run} (hr : r.Keeps (fun s t : State => t.ipId = s.ipId) s)
    (hk : ∀ t, t.ipId = s.ipId → IdStep t (k t)) : IdStep s (r.andThen k) := by
  intro e t h
  rcases r with ⟨_ | x, u⟩ | f | x
  · have := hr.ended _ _ rfl
    have := hk u this e t h
    simp_all
  · obtain ⟨-, rfl⟩ : some x = e ∧ u = t := by simpa [Run.andThen] using h
    exact .inl (hr.ended _ _ rfl)
  · cases h
  · cases h

theorem ipTx_idStep (s : State) : IdStep s (ipTx s) := by
  unfold ipTx
  split
  · intro e t h; cases h; exact .inl rfl
  intro e t h
  rcases hr : (fragmentLoop (s.mtu.toNat - 20) s.latches.ip s.latches.proto8 s.ipId (s.buf.len + 1) 0 s.buf.window
    s) with
    ⟨_ | x, u⟩ | f | x
  · rw [hr] at h; cases h; exact .inr ⟨rfl, rfl⟩
  · rw [hr] at h; cases h
    exact .inl ((keeps_fragmentLoop move_ipId (W := fun _ => True) trivial _ _ _ _ _ _ _ _).ended _ _ hr)
  · rw [hr] at h; cases h
  · rw [hr] at h; cases h

theorem udpTx_idStep (s : State) : IdStep s (udpTx s) := by
  unfold udpTx
  split
  · intro e t h; cases h; exact .inl rfl
  refine IdStep.andThen ?_ fun s2 _ => ?_
  · refine Run.keeps_andThen move_ipId (W := fun _ => True)
      (State.keeps_onBuffer move_ipId (W := fun _ => True) trivial s fun _ _ h => Buffer.addHeader_ok h) fun s1 _ => ?_
    exact State.keeps_onBuffer move_ipId (W := fun _ => True) trivial s1 fun _ _ h => Buffer.memWrites_ok h
  refine IdStep.andThen
    (State.keeps_onBuffer move_ipId (W := fun _ => True) trivial s2 fun _ _ h => Buffer.memWrite_ok h) fun s3 _ => ?_
  exact ipTx_idStep (s3.callWith .ipTx fun l => { l with ip := s.latches.ip, proto8 := 17#8 })

/-- CR.IP_ID either stays, or the command is an IP_TX or a UDP_TX that completed (R30, R178). -/
theorem exec_ipId {i : Instr} {s t : State} (h : exec i s = .next t) : t.ipId = s.ipId ∨
    (((∃ ip proto p, i = .ipTx ip proto p) ∨ ∃ ip sport dport p, i = .udpTx ip sport dport p) ∧
    t.ipId = s.ipId + 1#16 ∧ t.lastEnd = none ∧ t.status = 0#8) := by
  have fin : ∀ (r : Run), exec i s = finish r → IdStep (s.accept i) r → t.ipId = s.ipId ∨
      (t.ipId = s.ipId + 1#16 ∧ t.lastEnd = none ∧ t.status = 0#8) := by
    intro r he hr
    have hf : finish r = .next t := he ▸ h
    rcases r with ⟨e, u⟩ | f | x
    · cases hf
      rcases hr _ _ rfl with h' | ⟨h', rfl⟩
      · exact .inl h'
      · exact .inr ⟨h', rfl, rfl⟩
    · cases hf
    · cases hf
  by_cases h1 : ∃ ip proto p, i = .ipTx ip proto p
  · obtain ⟨ip, proto, p, rfl⟩ := h1
    refine (fin (match ipTxOperandError p.length with
        | some f => .fail f (s.accept (.ipTx ip proto p))
        | none => ((s.accept (.ipTx ip proto p)).loadBuffer .buf p).andThen ipTx) ?_ ?_).imp_right
      fun h' => ⟨.inl ⟨_, _, _, rfl⟩, h'⟩
    · show execIpTx ip proto p s = _
      unfold execIpTx
      cases ipTxOperandError p.length <;> rfl
    split
    · intro e t h; cases h; exact .inl rfl
    · exact IdStep.andThen (State.keeps_loadBuffer move_ipId (W := fun _ => True) trivial _ _) fun t _ => ipTx_idStep t
  by_cases h2 : ∃ ip sport dport p, i = .udpTx ip sport dport p
  · obtain ⟨ip, sport, dport, p, rfl⟩ := h2
    refine (fin (match udpTxOperandError p.length with
        | some f => .fail f (s.accept (.udpTx ip sport dport p))
        | none => ((s.accept (.udpTx ip sport dport p)).loadBuffer .buf p).andThen udpTx) ?_ ?_).imp_right
      fun h' => ⟨.inr ⟨_, _, _, _, rfl⟩, h'⟩
    · show execUdpTx ip sport dport p s = _
      unfold execUdpTx
      cases udpTxOperandError p.length <;> rfl
    split
    · intro e t h; cases h; exact .inl rfl
    · exact IdStep.andThen (State.keeps_loadBuffer move_ipId (W := fun _ => True) trivial _ _) fun t _ =>
        udpTx_idStep t
  push Not at h1 h2
  exact .inl (exec_keeps move_ipId (fun _ _ => rfl) (fun _ _ _ => rfl) (allows_ipId i h1 h2) h)

/-! ### Bytes -/

/-- However the chain ends, every byte of BUF and all of FBUF is as it was (R163, R191, R262). -/
def KeepsBytes (s : State) (r : Run) : Prop :=
  ∀ e t, r = .ended e t → (∀ a, t.buf.byteAt a = s.buf.byteAt a) ∧ t.fbuf = s.fbuf

theorem KeepsBytes.of {s u : State} {r : Run} (hb : ∀ a, u.buf.byteAt a = s.buf.byteAt a) (hf : u.fbuf = s.fbuf)
    (h : KeepsBytes u r) : KeepsBytes s r := fun e t ht => ⟨fun a => ((h e t ht).1 a).trans (hb a), (h e t ht).2.trans hf⟩

theorem KeepsBytes.ended {s u : State} {e : Option EarlyEnd} (hb : ∀ a, u.buf.byteAt a = s.buf.byteAt a)
    (hf : u.fbuf = s.fbuf) : KeepsBytes s (.ended e u) := by rintro e' t ⟨⟩; exact ⟨hb, hf⟩

theorem udpRx_bytes (s : State) : KeepsBytes s (udpRx s) := by
  obtain ⟨b, same, h⟩ := udpRx_spec s
  rw [h]
  split
  · exact .ended same.byteAt rfl
  · split
    · split
      · exact .ended same.byteAt rfl
      · exact .ended same.byteAt rfl
    · exact .ended same.byteAt rfl

theorem dispatchTo_bytes {f : State → Run} (hf : ∀ s, KeepsBytes s (f s)) (s : State) :
    KeepsBytes s (dispatchTo f s) := by
  unfold dispatchTo
  split
  · exact .ended (fun _ => rfl) rfl
  split
  · split
    · exact .of (u := s.callWith _ _) (fun _ => rfl) rfl (hf _)
    · rintro e t ⟨⟩
  split
  · split
    · exact .of (u := s.callWith _ _) (fun _ => rfl) rfl (udpRx_bytes _)
    · rintro e t ⟨⟩
  · exact .ended (fun _ => rfl) rfl

theorem ipRx_bytes (s : State) : KeepsBytes s (ipRx s) := by
  obtain ⟨b, same, h⟩ := ipRx_spec s
  rw [h]
  split
  · exact .ended same.byteAt rfl
  split
  · refine .of (u := (s.setBuffer .buf (b.slide (b.start + 20) (beAt s.buf.window 2 2 - 20))).toTransport
            (BitVec.ofNat 32 (beAt s.buf.window 12 4))) same.byteAt rfl ?_
    exact dispatchTo_bytes (fun _ => by rintro e t ⟨⟩) _
  · exact .ended same.byteAt rfl

theorem ethRx_bytes (s : State) : KeepsBytes s (ethRx s) := by
  rw [ethRx_spec]
  split
  · exact .ended (fun _ => rfl) rfl
  · exact .of (u := (s.setBuffer .buf (s.buf.slide (s.buf.start + 14) (s.buf.len - 14))).toNetwork s.buf.window)
      (fun _ => rfl) rfl (dispatchTo_bytes ipRx_bytes _)

/-- What a chain that works on one Buffer leaves of the other. -/
theorem move_other (w : BufId) : Move (fun v => v = w) (fun s t : State => ∀ v, v ≠ w → t.buffer v = s.buffer v) where
  refl _ _ _ := rfl
  trans h k v hv := (k v hv).trans (h v hv)
  buffer s v b hv _ u hu := by subst hv; cases v <;> cases u <;> first | rfl | exact absurd rfl hu
  draw _ v _ := by cases v <;> rfl
  emit _ _ v _ := by cases v <;> rfl
  call _ _ _ v _ := by cases v <;> rfl

theorem ipTx_buf {s t : State} {e : Option EarlyEnd} (h : ipTx s = .ended e t) : t.buf = s.buf :=
  (keeps_ipTx (move_other .fbuf) rfl (fun _ _ v _ => by cases v <;> rfl) s).ended e t h .buf (by decide)

end Sys2Proof.Machine
end

