-- ==== Sys2Proof/Machine/Text.lean ====
section
/-!
DEFINITION. The textual form of a command (30_encoding.md R110): the mnemonic, `name=value` operands separated by commas,
then `; payload=` and the payload bytes in hexadecimal. `LEN` is never written. The machine does not use it.
-/
namespace Sys2Proof

/-- One hexadecimal digit. -/
def hexDigit (upper : Bool) (d : Nat) : Char :=
  if d < 10 then Char.ofNat (48 + d) else if upper then Char.ofNat (55 + d) else Char.ofNat (87 + d)

/-- A byte as two hexadecimal digits. -/
def hexByte (upper : Bool) (b : Byte) : String :=
  String.ofList [hexDigit upper (b.toNat / 16), hexDigit upper (b.toNat % 16)]

/-- Dotted form (`1.2.3.4`). -/
def dotted (a : IpAddr) : String := ".".intercalate ((bytesOf 4 a.toNat).map fun b => Nat.repr b.toNat)

/-- Colon-separated form (`02:00:00:00:00:aa`). -/
def colons (a : MacAddr) : String := ":".intercalate ((bytesOf 6 a.toNat).map (hexByte false))

/-- A number in decimal. -/
def operand (name : String) (v : Nat) : String := name ++ "=" ++ Nat.repr v

/-- The mnemonic of R107. -/
def Opcode.mnemonic : Opcode → String
  | csum16 => "CSUM16"
  | ethRx => "ETH_RX"
  | ethTx => "ETH_TX"
  | ethPoll => "ETH_POLL"
  | netRegister => "NET_REGISTER"
  | netDispatch => "NET_DISPATCH"
  | ipRx => "IP_RX"
  | ipFragEmit => "IP_FRAG_EMIT"
  | ipTx => "IP_TX"
  | udpRx => "UDP_RX"
  | udpTx => "UDP_TX"
  | udpOpen => "UDP_OPEN"
  | udpClose => "UDP_CLOSE"

/-- A source operand, MAC or IPv4. -/
def Source.text : Source → String
  | .mac a => colons a
  | .ip a => dotted a

/-- The operands under the names R110 gives them. -/
def Instr.operandText : Instr → List String
  | .csum16 _ => []
  | .ethRx _ => []
  | .ethTx mac proto _ => ["mac=" ++ colons mac, operand "proto" proto.toNat]
  | .ethPoll => []
  | .netRegister key hnd => [operand "key" key.toNat, operand "hnd" hnd.toNat]
  | .netDispatch src proto _ => ["src=" ++ src.text, operand "proto" proto.toNat]
  | .ipRx mac _ => ["mac=" ++ colons mac]
  | .ipFragEmit ip proto ident off mf _ =>
    ["dst=" ++ dotted ip, operand "proto" proto.toNat, operand "id" ident.toNat, operand "off" off.toNat,
      operand "mf" mf.toNat]
  | .ipTx ip proto _ => ["dst=" ++ dotted ip, operand "proto" proto.toNat]
  | .udpRx ip _ => ["src=" ++ dotted ip]
  | .udpTx ip sport dport _ => ["dst=" ++ dotted ip, operand "sport" sport.toNat, operand "dport" dport.toNat]
  | .udpOpen key hnd => [operand "port" key.toNat, operand "hnd" hnd.toNat]
  | .udpClose key => [operand "port" key.toNat]

/-- The textual form of a command: numbers in decimal, the payload in hexadecimal; a command without payload operand is
written without one (R110). -/
def Instr.text (i : Instr) : String :=
  " ".intercalate (i.opcode.mnemonic :: (if i.operandText = [] then [] else [", ".intercalate i.operandText])) ++
    (if i.opcode.noPayload then "" else "; payload=" ++ " ".intercalate (i.payload.map (hexByte true)))

end Sys2Proof
end

