-- ==== Sys2Proof/Tests/Slice0.lean ====
section
/-!
SUPPORT. Tests. The expected results are the spec's: the vectors of 95_test_vectors.md (named V-…), the worked examples of the
rules, and words written out from the format tables of 30_encoding.md. The witnesses at the end show for each statement with
hypotheses a concrete state and operands that meet them, at the boundary values of their ranges.
-/
namespace Sys2Proof.Tests

open Sys2Proof Sys2Proof.Machine

-- One kernel evaluation at a time: many at once need more threads than the memory limit allows.
set_option Elab.async false

/-! ### Helpers -/

/-- A byte string written as numbers. -/
def hx (ns : List Nat) : Bytes := ns.map (BitVec.ofNat 8)

/-- The common state of 95_test_vectors.md. -/
def common : State := State.resetWith
  { ifMac := 0x020000000002#48, ifIp := 0x0A000002#32, mtu := 1500#16, ipTtlDefault := 64#8, dispatchCap := 8,
    portCap := 8, bufCap := 65623 }

/-- The smallest legal configuration (R9). -/
def small : State := State.resetWith
  { ifMac := 0x020000000002#48, ifIp := 0x0A000002#32, mtu := 28#16, ipTtlDefault := 64#8, dispatchCap := 2,
    portCap := 1, bufCap := 88 }

/-- The common state after the boot registrations, with port 53 open. -/
def boot : State := { common with dispatch := [(17#16, 2#16), (0x0800#16, 1#16)], ports := [(53#16, 0x0100#16)] }

/-- `HELLO_UDP`, `HELLO_IP` and `HELLO_FRAME` of 95_test_vectors.md. -/
def helloUdp : Bytes := hx [0x27, 0x0F, 0x00, 0x35, 0x00, 0x0D, 0x86, 0xB6, 0x68, 0x65, 0x6C, 0x6C, 0x6F]
def helloIp : Bytes :=
  hx [0x45, 0, 0, 0x21, 0x12, 0x34, 0, 0, 0x40, 0x11, 0x5A, 0x91, 1, 2, 3, 4, 0x0A, 0, 0, 2] ++ helloUdp
def helloFrame : Bytes := hx [2, 0, 0, 0, 0, 2, 2, 0, 0, 0, 0, 0xAA, 8, 0] ++ helloIp ++ zeros 13

/-- The delivery of "hello" to the handler 0x0100. -/
def hello : Event := .handler 0x0100#16 (hx [0x68, 0x65, 0x6C, 0x6C, 0x6F]) 5#16 0x01020304#32 9999#16

/-- What leaves the block, and how the command ended. -/
def out : Host.Outcome State Fault Refusal → Option (List Output × Option EarlyEnd)
  | .next t => some (t.trace, t.lastEnd)
  | .fault _ => none
  | .refused _ => none

/-- A field of the next state. -/
def after {α : Type} (f : State → α) : Host.Outcome State Fault Refusal → Option α
  | .next t => some (f t)
  | .fault _ => none
  | .refused _ => none

/-- The refusal, if the command is refused. -/
def refusal : Host.Outcome State Fault Refusal → Option Refusal
  | .next _ => none
  | .fault _ => none
  | .refused x => some x

def ok : Output := .response 0x00#8 0#16

/-! ### Well-formedness -/

/-- `LEN` has 16 bits (R105): a payload of 65536 bytes has no encoding, one of 65535 has. -/
theorem test_wellFormed_refuses_long_payload : WellFormed (.csum16 (zeros 65536)) = false := by
  show decide ((zeros 65536).length ≤ 65535) = false
  rw [length_zeros]
  decide

theorem test_wellFormed_accepts_longest_payload : WellFormed (.udpTx 0#32 0#16 0#16 (zeros 65535)) = true := by
  show decide ((zeros 65535).length ≤ 65535) = true
  rw [length_zeros]
  decide

/-! ### Decoding: descriptors written out from R105 to R107 -/

theorem test_decode_csum16 :
    decode (hx [0x01, 0, 0, 2, 0, 0, 0, 0, 0, 0, 0, 0, 0, 0, 0, 0, 0xAB, 0xCD]) =
      .command (.csum16 (hx [0xAB, 0xCD])) [] := by decide +kernel

theorem test_decode_ethRx :
    decode (hx [0x10, 0, 0, 1, 0, 0, 0, 0, 0, 0, 0, 0, 0, 0, 0, 0, 7, 9]) = .command (.ethRx (hx [7])) (hx [9]) := by
  decide +kernel

theorem test_decode_ethTx :
    decode (hx [0x11, 0, 0, 0, 2, 0, 0, 0, 0, 0xAA, 0x08, 0x06, 0, 0, 0, 0]) =
      .command (.ethTx 0x0200000000AA#48 0x0806#16 []) [] := by decide +kernel

theorem test_decode_ethPoll :
    decode (hx [0x12, 0, 0, 0, 0, 0, 0, 0, 0, 0, 0, 0, 0, 0, 0, 0]) = .command .ethPoll [] := by decide +kernel

theorem test_decode_netRegister :
    decode (hx [0x20, 0, 0, 0, 0x08, 0x00, 0x00, 0x01, 0, 0, 0, 0, 0, 0, 0, 0]) =
      .command (.netRegister 0x0800#16 1#16) [] := by decide +kernel

theorem test_decode_netDispatch_mac :
    decode (hx [0x21, 0, 0, 0, 2, 0, 0, 0, 0, 0xAA, 0x08, 0x06, 6, 0, 0, 0]) =
      .command (.netDispatch (.mac 0x0200000000AA#48) 0x0806#16 []) [] := by decide +kernel

theorem test_decode_netDispatch_ip :
    decode (hx [0x21, 0, 0, 0, 1, 2, 3, 4, 0, 0, 0, 17, 4, 0, 0, 0]) =
      .command (.netDispatch (.ip 0x01020304#32) 17#16 []) [] := by decide +kernel

theorem test_decode_ipRx :
    decode (hx [0x30, 0, 0, 0, 2, 0, 0, 0, 0, 0xAA, 0, 0, 0, 0, 0, 0]) = .command (.ipRx 0x0200000000AA#48 []) [] := by
  decide +kernel

theorem test_decode_ipFragEmit :
    decode (hx [0x31, 1, 0, 0, 1, 2, 3, 4, 0x11, 0, 0xBE, 0xEF, 0x05, 0xC8, 0, 0]) =
      .command (.ipFragEmit 0x01020304#32 17#8 0xBEEF#16 1480#16 true []) [] := by decide +kernel

theorem test_decode_ipTx :
    decode (hx [0x32, 0, 0, 0, 1, 2, 3, 4, 17, 0, 0, 0, 0, 0, 0, 0]) = .command (.ipTx 0x01020304#32 17#8 []) [] := by
  decide +kernel

theorem test_decode_udpRx :
    decode (hx [0x40, 0, 0, 0, 1, 2, 3, 4, 0, 0, 0, 0, 0, 0, 0, 0]) = .command (.udpRx 0x01020304#32 []) [] := by
  decide +kernel

theorem test_decode_udpTx :
    decode (hx [0x41, 0, 0, 0, 1, 2, 3, 4, 0, 53, 0x27, 0x0F, 0, 0, 0, 0]) =
      .command (.udpTx 0x01020304#32 53#16 9999#16 []) [] := by decide +kernel

theorem test_decode_udpOpen :
    decode (hx [0x42, 0, 0, 0, 0, 53, 1, 0, 0, 0, 0, 0, 0, 0, 0, 0]) = .command (.udpOpen 53#16 0x0100#16) [] := by
  decide +kernel

theorem test_decode_udpClose :
    decode (hx [0x43, 0, 0, 0, 0, 53, 0, 0, 0, 0, 0, 0, 0, 0, 0, 0]) = .command (.udpClose 53#16) [] := by decide +kernel

/-- R108: reserved `OPC`; `LEN` where it must be 0; `SRCW` 5; a must-be-zero bit; `MF` elsewhere; `HND` of UDP_CLOSE; a
non-zero byte 8 behind a 4-byte source. -/
theorem test_decode_illegal :
    [[0x00, 0, 0, 0, 0, 0, 0, 0, 0, 0, 0, 0, 0, 0, 0, 0], [0x12, 0, 0, 1, 0, 0, 0, 0, 0, 0, 0, 0, 0, 0, 0, 0, 1],
      [0x21, 0, 0, 0, 2, 0, 0, 0, 0, 0xAA, 8, 6, 5, 0, 0, 0], [0x10, 2, 0, 0, 0, 0, 0, 0, 0, 0, 0, 0, 0, 0, 0, 0],
      [0x10, 1, 0, 0, 0, 0, 0, 0, 0, 0, 0, 0, 0, 0, 0, 0], [0x43, 0, 0, 0, 0, 53, 1, 0, 0, 0, 0, 0, 0, 0, 0, 0],
      [0x21, 0, 0, 0, 1, 2, 3, 4, 1, 0, 0, 17, 4, 0, 0, 0]].map (fun w => decode (hx w)) =
    [.illegal .reservedOpcode [], .illegal .payloadNotAllowed [], .illegal .badSourceWidth [], .illegal .nonZeroReserved [],
      .illegal .nonZeroReserved [], .illegal .nonZeroReserved [], .illegal .nonZeroReserved []] := by decide +kernel

/-- Every row's word (NET_DISPATCH with its `SRCW` set to 6) decodes, and the step runs it first after reset. -/
def tableWords : List Nat :=
  opcodeTable.map fun row => if row.1 = .netDispatch then row.2.1 + 6 * 2 ^ 24 else row.2.1

theorem test_every_row_decodes : tableWords.map (fun w => (decodeTableWord 128 w).map Instr.opcode) =
    opcodeTable.map fun row => some row.1 := by decide +kernel

theorem test_every_row_steps :
    tableWords.all (fun w => (out (step (State.reset.withFetchWord 128 w))).isSome) = true := by decide +kernel

/-! ### Memory and reset -/

theorem reset_memory_canonical : State.reset.buf.data.wf ∧ State.reset.fbuf.data.wf :=
  ⟨List.Pairwise.nil, List.Pairwise.nil⟩

/-! ### Commands -/

/-- V-CS1 to V-CS7 and R137. -/
theorem test_csum16_vectors :
    [[], [0, 1], [1], [0xFF, 0xFF, 0xFF, 0xFF], [0xFF, 0xFF, 0xFF, 0xFF, 0, 1], [0, 0], [0x12, 0x34, 0x56]].map
      (fun l => csum16 (hx l)) = [0xFFFF, 0xFFFE, 0xFEFF, 0, 0xFFFE, 0xFFFF, 0x97CB] := by decide +kernel

/-- The worked example of R130 (V-CS8). -/
theorem test_csum16_answers : out (exec (.csum16 (hx [1, 2, 3, 4, 0x0A, 0, 0, 2, 0, 0x11, 0, 0x0D, 0x27, 0x0F, 0, 0x35, 0, 0x0D,
    0, 0, 0x68, 0x65, 0x6C, 0x6C, 0x6F])) common) = some ([.response 0x00#8 0x86B6#16], none) := by decide +kernel

/-- V-ETH1 and V-ETH2. -/
theorem test_ethRx_header_boundary :
    [13, 14].map (fun n => out (exec (.ethRx (helloFrame.take n)) common)) =
      [some ([ok], some (.drop .ethShort)), some ([ok], some (.drop .noHandler))] := by decide +kernel

/-- V-P1: a whole frame reaches the port's handler; with the port closed the sender is notified with the datagram. -/
theorem test_ethRx_delivers_or_notifies :
    [boot, { boot with ports := [] }].map (fun s => out (exec (.ethRx helloFrame) s)) =
      [some ([.event hello, ok], none), some ([.event (.icmpUnreach helloIp 0x01020304#32 .portUnreachable), ok],
        some (.notify .portUnreach))] := by decide +kernel

/-- V-ETH6, V-ETH9. -/
theorem test_ethTx_pads_and_reports :
    [true, false].map (fun a => out (exec (.ethTx 0x0200000000AA#48 0x0800#16 helloIp) { common with txAnswers := [a] })) =
      [some ([.event (.drvTx (hx [2, 0, 0, 0, 0, 0xAA, 2, 0, 0, 0, 0, 2, 8, 0] ++ helloIp ++ zeros 13)), ok], none),
        some ([.event (.drvTx (hx [2, 0, 0, 0, 0, 0xAA, 2, 0, 0, 0, 0, 2, 8, 0] ++ helloIp ++ zeros 13)),
          .response 0x04#8 0#16], some (.fail .link))] := by decide +kernel

/-- V-ETH10 and V-ETH11. -/
theorem test_ethPoll :
    [some helloFrame, none].map (fun a => out (exec .ethPoll { boot with pollAnswers := [a] })) =
      [some ([.event .drvPoll, .event hello, ok], none), some ([.event .drvPoll, ok], none)] := by decide +kernel

/-- V-ND1; then, as V-ND4 and V-ND5, a new key and a present one in a full table of 2. -/
theorem test_netRegister :
    after State.dispatch (exec (.netRegister 0x0800#16 1#16) common) = some [(0x0800#16, 1#16)] ∧
    out (exec (.netRegister 3#16 9#16) { small with dispatch := [(1#16, 7#16), (2#16, 8#16)] }) =
      some ([.response 0x01#8 0#16], some (.fail .tableFull)) ∧
    after State.dispatch (exec (.netRegister 2#16 9#16) { small with dispatch := [(1#16, 7#16), (2#16, 8#16)] }) =
      some [(1#16, 7#16), (2#16, 9#16)] := by decide +kernel

/-- V-ND2 and V-ND6. -/
theorem test_netDispatch :
    out (exec (.netDispatch (.mac 0x0200000000AA#48) 0x0806#16 (hx [1, 2, 3]))
      { common with dispatch := [(0x0806#16, 0x0200#16)] }) =
      some ([.event (.upward 0x0200#16 (hx [1, 2, 3]) 0x0806#16 (hx [2, 0, 0, 0, 0, 0xAA])), ok], none) ∧
    out (exec (.netDispatch (.ip 0x01020304#32) 17#16 helloUdp) boot) = some ([.event hello, ok], none) := by decide +kernel

/-- R157: the wrong kind of source. -/
theorem test_netDispatch_refuses :
    refusal (exec (.netDispatch (.mac 0x0200000000AA#48) 17#16 helloUdp) boot) = some .wrongSource ∧
    refusal (exec (.netDispatch (.ip 0x01020304#32) 0x0800#16 helloIp) boot) = some .wrongSource := by decide +kernel

/-- V-IP10, then V-IP2 to V-IP6: one defect for each check. -/
theorem test_ipRx_gate :
    [helloIp ++ zeros 13, helloIp.take 19, helloIp.set 0 0x65#8, helloIp.set 3 0x22#8, helloIp.set 11 0x90#8,
      (helloIp.set 11 0x90#8).set 19 3#8].map (fun d => out (exec (.ipRx 0#48 d) boot)) =
      some ([.event hello, ok], none) ::
        [DropReason.ipShort, .ipVersion, .ipTotlen, .ipCsum, .ipDst].map (fun r => some ([ok], some (.drop r))) := by
  decide +kernel

/-- V-IP7 and V-IP14. -/
theorem test_ipRx_protocol :
    [(helloIp.set 9 6#8).set 11 0x9C#8, (helloIp.set 6 0x20#8).set 10 0x3A#8].map
      (fun d => out (exec (.ipRx 0#48 d) boot)) =
      [some ([.event (.icmpUnreach ((helloIp.set 9 6#8).set 11 0x9C#8) 0x01020304#32 .protocolUnreachable), ok],
        some (.notify .protoUnreach)), some ([.event hello, ok], none)] := by decide +kernel

/-- V-FE1. -/
theorem test_ipFragEmit :
    out (exec (.ipFragEmit 0x01020304#32 17#8 0xBEEF#16 1480#16 true (hx [1, 2, 3, 4, 5, 6, 7, 8])) common) =
      some ([.event (.arp (hx [0x45, 0, 0, 0x1C, 0xBE, 0xEF, 0x20, 0xB9, 0x40, 0x11, 0x8D, 0x21, 0x0A, 0, 0, 2, 1, 2, 3, 4,
        1, 2, 3, 4, 5, 6, 7, 8]) 0x01020304#32), ok], none) := by decide +kernel

/-- R171, as V-FE2. -/
theorem test_ipFragEmit_bad_offset :
    out (exec (.ipFragEmit 0x01020304#32 17#8 0xBEEF#16 4#16 false (hx [1])) common) =
      some ([.response 0x03#8 0#16], some (.fail .badOperand)) := by decide +kernel

/-- V-TX1: the identification wraps. -/
theorem test_ipTx_wraps :
    after (fun t => (t.trace, t.ipId)) (exec (.ipTx 0x01020304#32 17#8 (hx [0xAA])) { common with ipId := 0xFFFF#16 }) =
      some ([.event (.arp (hx [0x45, 0, 0, 0x15, 0xFF, 0xFF, 0, 0, 0x40, 0x11, 0x6C, 0xD1, 0x0A, 0, 0, 2, 1, 2, 3, 4, 0xAA])
        0x01020304#32), ok], 0#16) := by decide +kernel

/-- Payload length and flags_offset of each datagram emitted. -/
def pieces : List Output → List (Nat × Nat)
  | .event (.arp d _) :: r => (d.length - 20, beAt d 6 2) :: pieces r
  | .event (.drvTx _) :: r => pieces r
  | .event .drvPoll :: r => pieces r
  | .event (.icmpUnreach _ _ _) :: r => pieces r
  | .event (.handler _ _ _ _ _) :: r => pieces r
  | .event (.upward _ _ _ _) :: r => pieces r
  | .response _ _ :: r => pieces r
  | [] => []

/-- V-TX2 to V-TX6 (MTU 36, so at most 16 payload bytes): the boundaries of R179. -/
theorem test_ipTx_splits :
    [0, 16, 17, 32, 33].map (fun n => after (fun t => pieces t.trace)
      (exec (.ipTx 0x01020304#32 17#8 (zeros n)) { common with mtu := 36#16 })) =
      [some [(0, 0)], some [(16, 0)], some [(16, 0x2000), (1, 2)], some [(16, 0x2000), (16, 2)],
        some [(16, 0x2000), (16, 0x2002), (1, 4)]] := by decide +kernel

/-- V-UR1, V-UR11. -/
theorem test_udpRx_delivers :
    [helloUdp, helloUdp ++ zeros 13].map (fun d => out (exec (.udpRx 0x01020304#32 d) boot)) =
      [some ([.event hello, ok], none), some ([.event hello, ok], none)] := by decide +kernel

/-- V-UR2 to V-UR6. -/
theorem test_udpRx_drops :
    [helloUdp.take 7, helloUdp.take 12, helloUdp.set 5 7#8, helloUdp.set 12 0x6E#8, (helloUdp.set 6 0#8).set 7 0#8].map
      (fun d => out (exec (.udpRx 0x01020304#32 d) boot)) =
      [DropReason.udpShort, .udpLen, .udpLen, .udpCsum, .udpCsum].map fun r => some ([ok], some (.drop r)) := by
  decide +kernel

/-- V-UT1, the worked example of R193. -/
theorem test_udpTx :
    after (fun t => (t.trace, t.ipId)) (exec (.udpTx 0x01020304#32 53#16 9999#16 (hx [0x68, 0x65, 0x6C, 0x6C, 0x6F])) common) =
      some ([.event (.arp (hx [0x45, 0, 0, 0x21, 0, 0, 0, 0, 0x40, 0x11, 0x6C, 0xC5, 0x0A, 0, 0, 2, 1, 2, 3, 4, 0, 0x35, 0x27,
        0x0F, 0, 0x0D, 0x86, 0xB6, 0x68, 0x65, 0x6C, 0x6C, 0x6F]) 0x01020304#32), ok], 1#16) := by decide +kernel

/-- V-P3: a 48-byte datagram in three fragments. -/
theorem test_udpTx_fragments :
    out (exec (.udpTx 0x01020304#32 4000#16 5000#16 (hx (List.range 40))) { common with mtu := 36#16 }) = some ([
      .event (.arp (hx ([0x45, 0, 0, 0x24, 0, 0, 0x20, 0, 0x40, 0x11, 0x4C, 0xC2, 0x0A, 0, 0, 2, 1, 2, 3, 4, 0x0F, 0xA0, 0x13,
        0x88, 0, 0x30, 0x50, 0xCD] ++ List.range 8)) 0x01020304#32),
      .event (.arp (hx ([0x45, 0, 0, 0x24, 0, 0, 0x20, 2, 0x40, 0x11, 0x4C, 0xC0, 0x0A, 0, 0, 2, 1, 2, 3, 4] ++
        List.range' 8 16)) 0x01020304#32),
      .event (.arp (hx ([0x45, 0, 0, 0x24, 0, 0, 0, 4, 0x40, 0x11, 0x6C, 0xBE, 0x0A, 0, 0, 2, 1, 2, 3, 4] ++
        List.range' 24 16)) 0x01020304#32), ok], none) := by decide +kernel

/-- V-PT1 and V-PT3. -/
theorem test_udpOpen :
    after State.ports (exec (.udpOpen 53#16 0x0100#16) common) = some [(53#16, 0x0100#16)] ∧
    out (exec (.udpOpen 54#16 0x0100#16) { small with ports := [(53#16, 0x0100#16)] }) =
      some ([.response 0x01#8 0#16], some (.fail .tableFull)) := by decide +kernel

/-- V-PT4. -/
theorem test_udpClose :
    after State.ports (exec (.udpClose 53#16) boot) = some [] ∧
    after State.ports (exec (.udpClose 53#16) { boot with ports := [] }) = some [] := by decide +kernel

/-- R110: the operand names and forms of the textual form. -/
theorem test_text :
    (Instr.ethTx 0x0200000000AA#48 0x0800#16 (hx [0xAB, 0x0C])).text =
      "ETH_TX mac=02:00:00:00:00:aa, proto=2048; payload=AB 0C" ∧
    (Instr.udpTx 0x01020304#32 53#16 9999#16 []).text = "UDP_TX dst=1.2.3.4, sport=53, dport=9999; payload=" ∧
    Instr.ethPoll.text = "ETH_POLL" := by decide +kernel

/-! ### Witnesses: the hypotheses of the statements can be met -/

/-- A table state for which a full `DISPATCH` of two and a full `PORTS` of one are held. -/
def full : State := { small with dispatch := [(1#16, 7#16), (2#16, 8#16)], ports := [(53#16, 0x0100#16)] }

theorem witness_ResetMeetsInvariant : ∃ c : Config,
    28 ≤ c.mtu.toNat ∧ (c.mtu.toNat - 20) % 8 = 0 ∧ 2 ≤ c.dispatchCap ∧ 1 ≤ c.portCap ∧ 88 ≤ c.bufCap :=
  ⟨{ ifMac := 0#48, ifIp := 0#32, mtu := 28#16, ipTtlDefault := 0#8, dispatchCap := 2, portCap := 1, bufCap := 88 },
    by decide⟩

theorem witness_BootRegistersTheReceivePath : small.dispatch = [] ∧ 2 ≤ small.caps.dispatch := by decide

theorem full_inv : full.Inv where
  legal := by decide
  idle := rfl
  buf := ⟨List.Pairwise.nil, by decide, by decide⟩
  fbuf := ⟨List.Pairwise.nil, by decide, by decide⟩
  dispatch := ⟨by decide, by decide⟩
  ports := ⟨by decide, by decide⟩

/-- A command at the port of a state in which the invariant holds. -/
theorem witness_StepKeepsInvariant : ({ full with port := encode (.udpClose 53#16) } : State).Inv ∧
    (out (step { full with port := encode (.udpClose 53#16) })).isSome = true :=
  ⟨⟨full_inv.legal, full_inv.idle, full_inv.buf, full_inv.fbuf, full_inv.dispatch, full_inv.ports⟩, by decide +kernel⟩

theorem witness_StepRunsTheDecodedCommand : ({ small with port := encode (.csum16 [1#8]) ++ [2#8] } : State).configLegal = true ∧
    small.engine = .idle ∧ WellFormed (.csum16 [1#8]) = true := by decide +kernel

/-- Both ways to be illegal: no row, and NET_DISPATCH with `SRCW` 5. -/
theorem witness_IllegalCommandOnlyAnswers : [hx [0x00, 0, 0, 1, 0, 0, 0, 0, 0, 0, 0, 0, 0, 0, 0, 0],
    hx [0x21, 0, 0, 1, 2, 0, 0, 0, 0, 0xAA, 8, 6, 5, 0, 0, 0]].all (fun d => decide (d.length = 16 ∧
      [7#8].length = beAt d 2 2 ∧ ({ small with port := d ++ [7#8] ++ [] } : State).configLegal = true ∧
      ∀ row ∈ opcodeTable, beNat d &&& row.2.2 = row.2.1 → row.1 = .netDispatch ∧ beAt d 12 1 ≠ 4 ∧ beAt d 12 1 ≠ 6)) = true := by
  decide +kernel

theorem witness_IncompleteCommandWaits : small.configLegal = true ∧ small.engine = .idle ∧ (zeros 15).length < 16 ∧
    (hx [1, 0, 0, 1, 0, 0, 0, 0, 0, 0, 0, 0, 0, 0, 0, 0]).length <
      16 + beAt (hx [1, 0, 0, 1, 0, 0, 0, 0, 0, 0, 0, 0, 0, 0, 0, 0]) 2 2 := by decide +kernel

/-- One step below each bound of R9. -/
theorem witness_IllegalConfigurationIsRefused : [{ small with mtu := 27#16 }, { small with mtu := 29#16 },
    { small with caps := ⟨1, 1, 88⟩ }, { small with caps := ⟨2, 0, 88⟩ }, { small with caps := ⟨2, 1, 87⟩ }].all
      (fun s => decide (refusal (step s) = some .illegalConfiguration)) = true := by decide +kernel

theorem witness_BusyEngineAcceptsNothing : ({ small with engine := .busy } : State).configLegal = true := by decide

/-- Every operand at its largest value. -/
theorem witness_EncodedCommandDecodes :
    WellFormed (.ipFragEmit 0xFFFFFFFF#32 255#8 0xFFFF#16 0xFFFF#16 true [0xFF#8]) = true ∧
    WellFormed (.netDispatch (.mac 0xFFFFFFFFFFFF#48) 0xFFFF#16 [0xFF#8]) = true := by decide

theorem witness_DecodedCommandEncodes :
    decode (hx [0x43, 0, 0, 0, 0xFF, 0xFF, 0, 0, 0, 0, 0, 0, 0, 0, 0, 0, 5]) = .command (.udpClose 0xFFFF#16) [5#8] := by
  decide +kernel

theorem witness_DecoderAcceptsTheOpcodeTable :
    (hx [0x10, 0, 0, 1, 0, 0, 0, 0, 0, 0, 0, 0, 0, 0, 0, 0]).length = 16 ∧
    [9#8].length = beAt (hx [0x10, 0, 0, 1, 0, 0, 0, 0, 0, 0, 0, 0, 0, 0, 0, 0]) 2 2 := by decide +kernel

theorem witness_ChecksumClosedForm : ((List.range (([1#8, 2#8, 3#8] : Bytes).length + 1) |>.take 2).map fun k =>
    (([1#8, 2#8, 3#8] : Bytes).getD (2 * k) 0#8).toNat * 256 +
      (([1#8, 2#8, 3#8] : Bytes).getD (2 * k + 1) 0#8).toNat).sum = 1026 := by decide

/-- A payload that fills BUF to the last byte. -/
theorem witness_Csum16Answers : 42 + (zeros 46).length ≤ small.caps.buf := by decide

/-- A valid IPv4 header, a byte outside its checksum field and one inside. -/
theorem witness_ChecksumDetectsOneChangedByte : (helloIp.take 20).getD 19 0#8 ≠ 3#8 ∧
    (helloIp.take 20).getD 11 0#8 ≠ 0x90#8 ∧ 10 + 2 ≤ (helloIp.take 20).length ∧
    csum16 (Wire.zeroField (helloIp.take 20) 10) = beAt (helloIp.take 20) 10 2 := by decide +kernel

theorem witness_ChecksumCorners : ([] : Bytes).length % 2 = 0 ∧ [1#8].length % 2 = 1 := by decide

/-- A Buffer of three bytes at the headroom. -/
def three : Buffer := { data := Memory.ofBytes 42 [1#8, 2#8, 3#8], start := 42, len := 3, epoch := 9 }

theorem three_ok : three.Ok 88 := ⟨Memory.ofBytes_wf _ _, by decide, by decide⟩

/-- The last two bytes of the window, with the largest value; and one byte too far. -/
theorem witness_MemWriteThenMemRead : 1 + 2 ≤ three.len ∧ 0xFFFF < 256 ^ 2 ∧ three.len < 2 + 2 := by decide

/-- Each primitive at its bound, and beyond it. -/
theorem witness_PrimitivesKeepBufferInvariant : three.Ok 88 ∧ (three.removeHeader 3).isSome = true ∧
    (three.addHeader 42).isSome = true ∧ (three.addPadding 88 43).isSome = true ∧ (three.removePadding 3).isSome = true ∧
    (three.memWrite 1 2 0xFFFF).isSome = true ∧ (Buffer.load 88 0 (zeros 46)).isSome = true ∧
    three.removeHeader 4 = none ∧ three.addHeader 43 = none ∧ three.addPadding 88 44 = none ∧ three.removePadding 4 = none ∧
    three.memWrite 2 2 0 = none ∧ three.memRead 2 2 = none ∧ small.caps.buf < 42 + (zeros 47).length :=
  ⟨three_ok, by decide +kernel⟩

theorem witness_BufferPrimitivesDoAsStated : 42 + (zeros 46).length ≤ 88 ∧ 3 ≤ three.len ∧ 42 ≤ three.start ∧
    three.start + three.len + 43 ≤ 88 := by decide

/-- How a chain ends, if it ends. -/
def ended : Run → Option (Option EarlyEnd)
  | .ended e _ => some e
  | .fault _ => none
  | .refused _ => none

/-- Each unit ends from some state. -/
theorem witness_UnitsKeepBytes :
    [udpRx small, ipRx small, ethRx small, netDispatch small].map ended =
      [some (some (.drop .udpShort)), some (some (.drop .ipShort)), some (some (.drop .ethShort)),
        some (some (.drop .noHandler))] ∧
    [ipFragEmit .buf { small with buf := three }, ipFragEmit .fbuf { small with fbuf := three },
      ipTx { small with buf := three }, udpTx { small with buf := three },
      ethTx { small with buf := three, txAnswers := [true] }].map ended = List.replicate 5 (some none) := by decide +kernel

/-- 47 bytes do not fit the smallest BUF. -/
theorem witness_NoRoomForThePayloadFails : small.caps.buf < 42 + (zeros 47).length ∧ (1480#16).toNat % 8 = 0 ∧
    (zeros 47).length ≤ 65515 := by decide

theorem witness_NetRegisterWritesTheTable :
    (full.dispatch.lookup 3#16 = none ∧ full.dispatch.length = full.caps.dispatch) ∧
    ¬ (full.dispatch.lookup 2#16 = none ∧ full.dispatch.length = full.caps.dispatch) ∧
    ¬ (small.dispatch.lookup 3#16 = none ∧ small.dispatch.length = small.caps.dispatch) := by decide

theorem witness_UdpOpenWritesTheTable :
    (full.ports.lookup 54#16 = none ∧ full.ports.length = full.caps.ports) ∧
    ¬ (full.ports.lookup 53#16 = none ∧ full.ports.length = full.caps.ports) ∧
    ¬ (small.ports.lookup 54#16 = none ∧ small.ports.length = small.caps.ports) := by decide

theorem witness_UdpCloseRemovesThePort : full.ports.lookup 54#16 = none := by decide

/-- Closing the one open port of a full table; HELLO_UDP is then to a closed port. -/
theorem witness_CloseIsIdempotentAndFreesAPlace : full.Inv ∧ full.ports.lookup 53#16 ≠ none ∧
    full.ports.lookup 54#16 = none ∧ 42 + helloUdp.length ≤ full.caps.buf ∧
    Wire.udpGate 0x01020304#32 full.ifIp helloUdp = none ∧ beAt helloUdp 2 2 = (53#16).toNat ∧
    (out (exec (.udpClose 53#16) full)).isSome = true := ⟨full_inv, by decide +kernel⟩

theorem witness_OnlyTableCommandsWriteTables :
    after (fun t => decide (t.dispatch ≠ small.dispatch)) (exec (.netRegister 1#16 7#16) small) = some true ∧
    after (fun t => decide (t.ports ≠ small.ports)) (exec (.udpOpen 53#16 7#16) small) = some true ∧
    after (fun t => decide (t.ports ≠ full.ports)) (exec (.udpClose 53#16) full) = some true := by decide +kernel

theorem witness_OnlyCompletedSendsAdvanceIpId :
    after (fun t => decide (t.ipId ≠ small.ipId)) (exec (.ipTx 1#32 17#8 []) small) = some true ∧
    after (fun t => decide (t.ipId ≠ small.ipId)) (exec (.udpTx 1#32 1#16 2#16 []) small) = some true := by decide +kernel

theorem witness_ConfigurationIsConstant : (out (step { small with port := encode .ethPoll })).isSome = true := by
  decide +kernel

theorem witness_OneResponseAfterTheEvents :
    after (fun t => decide (t.result ≠ 0#16)) (exec (.csum16 []) small) = some true := by decide +kernel

/-- A drop, a notification and each failure a command can end with. -/
theorem witness_EarlyEndsLeaveRegistersAndTables :
    [(Instr.ethRx [], full), (.ipRx 0#48 ((helloIp.set 9 6#8).set 11 0x9C#8), full), (.udpOpen 54#16 1#16, full),
      (.ipFragEmit 0#32 0#8 0#16 4#16 false [], full), (.ethTx 0#48 0#16 [], { full with txAnswers := [false] }),
      (.csum16 (zeros 47), full)].map (fun c => after State.lastEnd (exec c.1 c.2)) =
    [some (some (.drop .ethShort)), some (some (.notify .protoUnreach)), some (some (.fail .tableFull)),
      some (some (.fail .badOperand)), some (some (.fail .link)), some (some (.fail .buf))] := by decide +kernel

/-- A drop and a notification, from ETH_RX and from ETH_POLL. -/
theorem witness_DropsAreSilentAndNotifiesSendOneEvent : boot.configLegal = true ∧
    [(Instr.ethRx [], boot), (.ethPoll, { boot with pollAnswers := [some []] }),
      (.ethRx helloFrame, { boot with ports := [] }),
      (.ethPoll, { boot with ports := [], pollAnswers := [some helloFrame] })].map
        (fun c => after State.lastEnd (exec c.1 c.2)) =
    [some (some (.drop .ethShort)), some (some (.drop .ethShort)), some (some (.notify .portUnreach)),
      some (some (.notify .portUnreach))] := by decide +kernel

theorem witness_OutcomeIgnoresScratch : small.configLegal = true := by decide

theorem boot_safe : boot.BootSafe := by
  refine ⟨by decide, fun k h => ?_⟩
  by_contra hk
  by_cases h8 : k = 0x0800#16
  · subst h8; revert h; decide
  · simp [boot, Table.lookup, hk, h8] at h

/-- The tables of V-P1, a frame with EtherType 0x0800, and both kinds of source. -/
theorem witness_SafeTablesNeverStop : boot.configLegal = true ∧ boot.BootSafe ∧ boot.CommandSafe (.ethRx helloFrame) ∧
    ({ boot with pollAnswers := [some helloFrame] } : State).CommandSafe .ethPoll ∧
    boot.CommandSafe (.netDispatch (.mac 1#48) 0x0800#16 []) ∧ boot.CommandSafe (.netDispatch (.ip 1#32) 17#16 []) := by
  refine ⟨by decide, boot_safe, ?_, ?_, ?_, ?_⟩
  · show beAt helloFrame 12 2 ≠ 17
    decide +kernel
  · intro f hf
    obtain rfl : helloFrame = f := Option.some.inj hf
    show beAt helloFrame 12 2 ≠ 17
    decide +kernel
  · show boot.dispatch.lookup 0x0800#16 ≠ some Config.hUdpRx
    decide
  · show boot.dispatch.lookup 17#16 ≠ some Config.hIpRx
    decide

theorem witness_DefaultCapacityNeverFailsBuf : common.configLegal = true ∧ 65623 ≤ common.caps.buf ∧
    WellFormed (.csum16 []) = true ∧ common.pollAnswer = none ∧
    (out (exec (.csum16 []) common)).isSome = true := by decide +kernel

/-- A key without an entry, and one with a handler outside the block. -/
theorem witness_NetDispatchDropsOrHandsUpward : 42 + (zeros 46).length ≤ full.caps.buf ∧
    full.dispatch.lookup 3#16 = none ∧ full.dispatch.lookup 2#16 = some 8#16 ∧ (8#16 : Half) ≠ 1#16 ∧ (8#16 : Half) ≠ 2#16 := by
  decide

theorem witness_NetDispatchRunsTheUnitOrRefuses : 42 + (zeros 46).length ≤ boot.caps.buf ∧
    boot.dispatch.lookup 0x0800#16 = some 0x0001#16 ∧ boot.dispatch.lookup 17#16 = some 0x0002#16 := by decide

/-- 13 bytes, 14 bytes, and a registered consumer outside the block. -/
theorem witness_EthRxStripsAndDispatches : 42 + helloFrame.length ≤ common.caps.buf ∧ (helloFrame.take 13).length < 14 ∧
    14 ≤ (helloFrame.take 14).length ∧
    Table.lookup [(0x0800#16, 0x0200#16)] (BitVec.ofNat 16 (beAt helloFrame 12 2)) = some 0x0200#16 := by decide +kernel

/-- Nothing, a frame that fills BUF, and one that is a byte too long. -/
theorem witness_EthPollTakesAtMostOneFrame : small.pollAnswer = none ∧
    ({ small with pollAnswers := [some (zeros 46)] } : State).pollAnswer = some (zeros 46) ∧
    42 + (zeros 46).length ≤ small.caps.buf ∧ small.caps.buf < 42 + (zeros 47).length := by decide

/-- The smallest BUF has room for the shortest frame and for 46 bytes. -/
theorem witness_EthTxSendsOneFrame : 42 + max 46 ([] : Bytes).length ≤ small.caps.buf ∧
    42 + max 46 (zeros 46).length ≤ small.caps.buf := by decide

/-- Each check fails for some datagram. -/
theorem witness_IpRxDropsAtTheFirstFailedCheck : [helloIp.take 19, helloIp.set 0 0x65#8, helloIp.set 3 0x22#8,
    helloIp.set 3 19#8, helloIp.set 11 0x90#8, (helloIp.set 11 0x90#8).set 19 3#8].map (Wire.ipGate small.ifIp) =
    [some .ipShort, some .ipVersion, some .ipTotlen, some .ipTotlen, some .ipCsum, some .ipDst] ∧
    42 + helloIp.length ≤ small.caps.buf := by decide +kernel

/-- A datagram of protocol 6, and the shortest valid one. -/
theorem witness_IpRxNotifiesOtherProtocols :
    Wire.ipGate small.ifIp ((helloIp.set 9 6#8).set 11 0x9C#8) = none ∧
    beAt ((helloIp.set 9 6#8).set 11 0x9C#8) 9 1 ≠ 17 ∧
    Wire.ipGate small.ifIp (hx [0x45, 0, 0, 0x14, 0, 0, 0, 0, 0x40, 6, 0x6C, 0xDD, 1, 2, 3, 4, 0x0A, 0, 0, 2]) = none ∧
    42 + helloIp.length ≤ small.caps.buf := by decide +kernel

/-- HELLO_IP, with and without padding. -/
theorem witness_IpRxDeliversUdp : Wire.ipGate boot.ifIp helloIp = none ∧ Wire.ipGate boot.ifIp (helloIp ++ zeros 13) = none ∧
    beAt helloIp 9 1 = 17 ∧ boot.dispatch.lookup 17#16 = some 0x0002#16 ∧
    (helloIp.take (beAt helloIp 2 2)).drop 20 = helloUdp ∧
    Wire.udpGate (BitVec.ofNat 32 (beAt helloIp 12 4)) boot.ifIp helloUdp = none ∧
    boot.ports.lookup (BitVec.ofNat 16 (beAt helloUdp 2 2)) = some 0x0100#16 ∧ 42 + 46 ≤ boot.caps.buf := by decide +kernel

/-- No handler under 17; one outside the block; the UDP unit with a bad and with a good datagram to a closed port. -/
theorem witness_IpRxOtherTransportEnds : Wire.ipGate small.ifIp helloIp = none ∧ beAt helloIp 9 1 = 17 ∧
    small.dispatch.lookup 17#16 = none ∧ Table.lookup [(17#16, 9#16)] 17#16 = some 9#16 ∧
    Table.lookup [(17#16, 2#16)] 17#16 = some 0x0002#16 ∧
    Wire.udpGate 0x01020304#32 small.ifIp (helloUdp.set 12 0x6E#8) = some .udpCsum ∧
    Wire.udpGate 0x01020304#32 small.ifIp helloUdp = none ∧
    small.ports.lookup (BitVec.ofNat 16 (beAt helloUdp 2 2)) = none ∧ 42 + helloIp.length ≤ small.caps.buf := by
  decide +kernel

/-- The largest offset, and the longest payload the smallest BUF holds. -/
theorem witness_IpFragEmitBuildsTheDatagram : (65528#16).toNat % 8 = 0 ∧ (zeros 46).length ≤ 65515 ∧
    42 + (zeros 46).length ≤ small.caps.buf := by decide

theorem witness_IpFragEmitOperandErrors : (65535#16).toNat % 8 ≠ 0 ∧ (0#16).toNat % 8 = 0 ∧ 65515 < (zeros 65516).length := by
  refine ⟨by decide, by decide, ?_⟩
  rw [length_zeros]; decide

/-- The smallest MTU, with 46 bytes in six fragments. -/
theorem witness_IpTxEmitsTheFragments : small.configLegal = true ∧ (zeros 46).length ≤ 65515 ∧
    42 + (zeros 46).length ≤ small.caps.buf := by decide

theorem witness_IpTxRefusesLongPayloads : 65515 < (zeros 65516).length := by rw [length_zeros]; decide

/-- An empty payload and 46 bytes. -/
theorem witness_FragmentsReassembleToThePayload : small.configLegal = true ∧ (zeros 46).length ≤ 65515 ∧
    42 + (zeros 46).length ≤ small.caps.buf ∧
    [[], zeros 46].map (fun p => after (fun t => (pieces t.trace).length) (exec (.ipTx 1#32 17#8 p) small)) =
      [some 1, some 6] := by decide +kernel

/-- The longest payload, with as much padding as the default BUF holds, and each thing registered under 17. -/
theorem witness_EmittedDatagramsPassTheGate : (1480#16 : Half).toNat % 8 = 0 ∧ (zeros 65515).length ≤ 65515 ∧
    42 + (zeros 65515).length ≤ common.caps.buf ∧ common.ifIp = 0x0A000002#32 ∧
    42 + 20 + (zeros 65515).length + (zeros 46).length ≤ common.caps.buf ∧ common.dispatch.lookup 17#16 = none ∧
    boot.dispatch.lookup 17#16 = some 0x0002#16 ∧ boot.ifIp = common.ifIp ∧ boot.caps = common.caps ∧
    ({ common with dispatch := [(17#16, 0x0300#16)] } : State).dispatch.lookup 17#16 = some 0x0300#16 := by
  refine ⟨by decide, by rw [length_zeros], ?_, rfl, ?_, rfl, rfl, rfl, rfl, rfl⟩
  · show 42 + (zeros 65515).length ≤ 65623
    rw [length_zeros]; decide
  · show 42 + 20 + (zeros 65515).length + (zeros 46).length ≤ 65623
    rw [length_zeros, length_zeros]

/-- Each check fails for some datagram. -/
theorem witness_UdpRxDropsAtTheFirstFailedCheck :
    [helloUdp.take 7, helloUdp.take 12, helloUdp.set 5 7#8, helloUdp.set 12 0x6E#8].map
      (Wire.udpGate 0x01020304#32 small.ifIp) = [some .udpShort, some .udpLen, some .udpLen, some .udpCsum] ∧
    42 + helloUdp.length ≤ small.caps.buf := by decide +kernel

/-- HELLO_UDP, and the shortest datagram (V-UR9). -/
theorem witness_UdpRxDelivers : Wire.udpGate 0x01020304#32 full.ifIp helloUdp = none ∧
    Wire.udpGate 0x01020304#32 full.ifIp (hx [0x27, 0x0F, 0, 0x35, 0, 8, 0xCA, 0x92]) = none ∧
    full.ports.lookup (BitVec.ofNat 16 (beAt helloUdp 2 2)) = some 0x0100#16 ∧ 42 + helloUdp.length ≤ full.caps.buf := by
  decide +kernel

theorem witness_UdpRxNotifiesClosedPorts : Wire.udpGate 0x01020304#32 small.ifIp helloUdp = none ∧
    small.ports.lookup (BitVec.ofNat 16 (beAt helloUdp 2 2)) = none ∧ 42 + helloUdp.length ≤ small.caps.buf := by
  decide +kernel

/-- The smallest BUF with an MTU that lets one fragment fill it. -/
def tight : State := { small with mtu := 68#16 }

/-- The longest payload the smallest BUF takes, sent in fragments of 8 bytes; and either side of the longest first fragment. -/
theorem witness_UdpTxBuildsAndSends : small.configLegal = true ∧ (zeros 46).length ≤ 65507 ∧
    42 + (zeros 46).length ≤ small.caps.buf ∧
    42 + min (small.mtu.toNat - 20) (8 + (zeros 46).length) ≤ small.caps.buf ∧
    tight.configLegal = true ∧ 42 + min (tight.mtu.toNat - 20) (8 + (zeros 38).length) ≤ tight.caps.buf ∧
    42 + (zeros 39).length ≤ tight.caps.buf ∧
    tight.caps.buf < 42 + min (tight.mtu.toNat - 20) (8 + (zeros 39).length) := by decide

/-- The two clauses (R181, R61): 46 bytes leave in seven fragments of the 54-byte datagram; 39 bytes in one fragment of 47 do
not fit FBUF. -/
theorem test_udpTx_fbuf :
    [(small, zeros 46), (tight, zeros 39)].map (fun x =>
      after (fun t => (t.trace.length, t.status, t.ipId)) (exec (.udpTx 1#32 2#16 3#16 x.2) x.1)) =
      [some (8, 0#8, 1#16), some (1, 6#8, 0#16)] := by decide +kernel

/-- Both limits: 65508 bytes in the default BUF, and 65528. -/
theorem witness_UdpTxRefusesLongPayloads : 65507 < (zeros 65508).length ∧ 42 + (zeros 65508).length ≤ common.caps.buf ∧
    65527 < (zeros 65528).length := by
  refine ⟨by rw [length_zeros]; decide, ?_, by rw [length_zeros]; decide⟩
  show 42 + (zeros 65508).length ≤ 65623
  rw [length_zeros]; decide

/-- Fragments of 8 bytes to the longest datagram the smallest BUF takes; and an empty payload, which is one fragment. -/
theorem witness_UdpRoundTrip : small.configLegal = true ∧ (zeros 38).length ≤ 65507 ∧
    42 + (zeros 38).length ≤ small.caps.buf ∧
    42 + min (small.mtu.toNat - 20) (8 + (zeros 38).length) ≤ small.caps.buf ∧
    42 + 8 + (zeros 38).length ≤ full.caps.buf ∧ full.ports.lookup 53#16 = some 0x0100#16 ∧
    28 + ([] : Bytes).length ≤ small.mtu.toNat := by decide

/-- "hello" between two engines with the default MTU. -/
theorem witness_WireRoundTrip : common.configLegal = true ∧ 28 + (zeros 1472).length ≤ common.mtu.toNat ∧
    42 + 28 + (zeros 1472).length ≤ common.caps.buf ∧ 42 + 60 ≤ boot.caps.buf ∧
    42 + 42 + (zeros 1472).length ≤ boot.caps.buf ∧ boot.dispatch.lookup 0x0800#16 = some 0x0001#16 ∧
    boot.dispatch.lookup 17#16 = some 0x0002#16 ∧ boot.ports.lookup 53#16 = some 0x0100#16 := by
  refine ⟨by decide, ?_, ?_, by decide, ?_, by decide, by decide, by decide⟩
  · show 28 + (zeros 1472).length ≤ 1500
    rw [length_zeros]
  · show 42 + 28 + (zeros 1472).length ≤ 65623
    rw [length_zeros]; decide
  · show 42 + 42 + (zeros 1472).length ≤ 65623
    rw [length_zeros]; decide

end Sys2Proof.Tests
end

section
/-!
PROOFS. The statements of 10_state.md about the whole machine: reset, what a step does with the bytes at the port, which
commands write which registers, the one response, and that scratch is scratch.
-/
namespace Sys2Proof

/-! ### The bytes of a command decode to it -/

/-- The decoder reads from a command's descriptor that command (R105, R106). -/
theorem decodeDescriptor_descriptor (i : Instr) : decodeDescriptor i.descriptor i.payload = .ok i := by
  cases i with
  | csum16 p => exact Laws.Descriptor.csum16 p
  | ethRx p => exact Laws.Descriptor.ethRx p
  | ethTx mac proto p => exact Laws.Descriptor.ethTx mac proto p
  | ethPoll => exact Laws.Descriptor.ethPoll
  | netRegister key hnd => exact Laws.Descriptor.netRegister key hnd
  | netDispatch src proto p => exact Laws.Descriptor.netDispatch src proto p
  | ipRx mac p => exact Laws.Descriptor.ipRx mac p
  | ipFragEmit ip proto ident off mf p => exact Laws.Descriptor.ipFragEmit ip proto ident off mf p
  | ipTx ip proto p => exact Laws.Descriptor.ipTx ip proto p
  | udpRx ip p => exact Laws.Descriptor.udpRx ip p
  | udpTx ip sport dport p => exact Laws.Descriptor.udpTx ip sport dport p
  | udpOpen key hnd => exact Laws.Descriptor.udpOpen key hnd
  | udpClose key => exact Laws.Descriptor.udpClose key

@[simp] theorem Source.length_srcBytes (src : Source) : src.srcBytes.length = 6 := by
  cases src <;> simp [Source.srcBytes]

@[simp] theorem Instr.length_operandBytes (i : Instr) : i.operandBytes.length = 12 := by
  cases i <;> simp [Instr.operandBytes]

@[simp] theorem Instr.length_descriptor (i : Instr) : i.descriptor.length = 16 := by
  simp [Instr.descriptor]

/-- `LEN` is the two bytes behind the operation code and the flags (R105). -/
theorem Instr.beAt_descriptor_len (i : Instr) : beAt i.descriptor 2 2 = i.payload.length % 65536 := by
  have h := beAt_append_exact [i.opcode.code, i.flagByte] (bytesOf 2 i.payload.length) i.operandBytes
  rw [length_bytesOf, beNat_bytesOf] at h
  exact h

theorem wellFormed_iff (i : Instr) : WellFormed i = true ↔ i.payload.length ≤ 65535 := decide_eq_true_iff

/-- Decoding undoes encoding, whatever follows (R105). -/
theorem decode_encode (i : Instr) (rest : Bytes) (h : WellFormed i = true) :
    decode (encode i ++ rest) = .command i rest := by
  have hlen : i.payload.length = beAt i.descriptor 2 2 := by
    have := (wellFormed_iff i).1 h
    rw [Instr.beAt_descriptor_len]; omega
  rw [encode, decode_framed _ _ _ i.length_descriptor hlen, decodeDescriptor_descriptor]

/-- The operation CSUM16 is one command (R107). -/
theorem Instr.eq_csum16_of_opcode {i : Instr} (h : i.opcode = .csum16) : ∃ p, i = .csum16 p := by
  cases i with
  | csum16 p => exact ⟨p, rfl⟩
  | _ => cases h

end Sys2Proof

namespace Sys2Proof.Machine

/-! ### One step -/

theorem step_of_busy {s : State} (h : s.configLegal = true) (hb : s.engine = .busy) : step s = .refused .engineBusy := by
  simp [step, h, hb]

/-- Everything a step that has a next state can have done (R22, R105, R108). -/
theorem step_next_cases {s t : State} (h : step s = .next t) :
    t = s ∨ (∃ rest : Bytes, t = ({ s with port := rest } : State).rejectCommand) ∨
      ∃ (i : Instr) (rest : Bytes), exec i { s with port := rest } = .next t := by
  cases hl : s.configLegal with
  | false => rw [step_of_illegal hl] at h; cases h
  | true =>
    cases he : s.engine with
    | busy => rw [step_of_busy hl he] at h; cases h
    | idle =>
      rw [step_of_legal hl he] at h
      cases hd : decode s.port with
      | incomplete => rw [hd] at h; cases h; exact .inl rfl
      | illegal why rest => rw [hd] at h; cases h; exact .inr (.inl ⟨rest, rfl⟩)
      | command i rest => rw [hd] at h; exact .inr (.inr ⟨i, rest, h⟩)

/-! ### The end of a command -/

theorem statusOf_le (e : Option EarlyEnd) : (statusOf e).toNat ≤ 6 := by
  rcases e with _ | r | c | f
  · decide
  · exact Nat.zero_le 6
  · exact Nat.zero_le 6
  · cases f <;> decide

/-- A RESULT other than 0 is the value of an operation without an early end (R24). -/
theorem resultOf_ne_zero {e : Option EarlyEnd} {v : Half} (h : resultOf e v ≠ 0#16) : e = none ∧ v ≠ 0#16 := by
  cases e with
  | none => exact ⟨rfl, h⟩
  | some e => exact absurd rfl h

/-- The registers of R26 to R29 and the capacities are the same after a command. -/
theorem exec_fixed {i : Instr} {s t : State} (h : exec i s = .next t) :
    t.caps = s.caps ∧ t.ifMac = s.ifMac ∧ t.ifIp = s.ifIp ∧ t.mtu = s.mtu ∧ t.ipTtlDefault = s.ipTtlDefault := by
  obtain ⟨e, v, u, hu, rfl, -⟩ := exec_ends move_fixed (allows_fixed i) h
  exact ⟨hu.caps, hu.ifMac, hu.ifIp, hu.mtu, hu.ipTtlDefault⟩

/-! ### Scratch -/

/-- What a command does is no function of the Buffers, the latches, the engine state, STATUS, RESULT and the ghost (R21,
R34). -/
theorem State.report_scratch (i : Instr) (s : State) (b c : Buffer) (l : Latches) (e : Engine) (st : Byte) (r : Half)
    (g : Option EarlyEnd) :
    State.report { s with buf := b, fbuf := c, latches := l, engine := e, status := st, result := r, lastEnd := g } i =
      s.report i := by
  cases i <;> rfl

/-- Commands that do what one report says are alike, if the report makes their states alike. -/
theorem alike_of_reports {s t : State} {o o' : Host.Outcome State Fault Refusal} {x : Except Refusal Report}
    (hst : ∀ (r : Report) (b c b' c' : Buffer), (s.reported r b c).Alike (t.reported r b' c'))
    (h : Reports s o x) (h' : Reports t o' x) : Alike o o' := by
  cases x with
  | error x =>
    have ho : o = .refused x := h
    have ho' : o' = .refused x := h'
    subst ho ho'
    exact (rfl : x = x)
  | ok r =>
    obtain ⟨b, c, rfl⟩ := h
    obtain ⟨b', c', rfl⟩ := h'
    exact hst r b c b' c'

/-! ### The statements -/

/-- Settles O35: both commands do what one and the same report says, and a report says everything but scratch. -/
theorem outcomeIgnoresScratch : Obligations.OutcomeIgnoresScratch := by
  intro i s b c l e st r g hl
  have h := exec_reports i
    { s with buf := b, fbuf := c, latches := l, engine := e, status := st, result := r, lastEnd := g } hl
  rw [State.report_scratch] at h
  exact alike_of_reports (fun _ _ _ _ _ => rfl) (exec_reports i s hl) h

/-- Settles O29: a command that is not a table command is made of moves and writes that keep the table. -/
theorem onlyTableCommandsWriteTables : Obligations.OnlyTableCommandsWriteTables := by
  intro i s t h
  constructor
  · intro hne
    by_contra hi
    push Not at hi
    exact hne (exec_keeps move_dispatch (fun _ _ => rfl) (fun _ _ _ => rfl) (allows_dispatch i hi) h)
  · intro hne
    by_contra hi
    push Not at hi
    obtain ⟨hopen, hclose⟩ := hi
    exact hne (exec_keeps move_ports (fun _ _ => rfl) (fun _ _ _ => rfl) (allows_ports i hopen hclose) h)

/-- Settles O30: CR.IP_ID stays unless a chain with the write of IP_TX ran to its end. -/
theorem onlyCompletedSendsAdvanceIpId : Obligations.OnlyCompletedSendsAdvanceIpId := by
  intro i s t h hne
  rcases exec_ipId h with hsame | ⟨hi, hid, -, hstatus⟩
  · exact absurd hsame hne
  · exact ⟨hi, hid, hstatus⟩

/-- Settles O31, by the three things a step can be: waiting, rejecting, running a command. -/
theorem configurationIsConstant : Obligations.ConfigurationIsConstant := by
  intro s t h
  rcases step_next_cases h with rfl | ⟨rest, rfl⟩ | ⟨i, rest, hx⟩
  · exact ⟨rfl, rfl, rfl, rfl, rfl⟩
  · exact ⟨rfl, rfl, rfl, rfl, rfl⟩
  · obtain ⟨hcaps, hmac, hip, hmtu, httl⟩ := exec_fixed hx
    exact ⟨hmac, hip, hmtu, httl, hcaps⟩

/-- Settles O32: a chain of calls adds only events to the trace, and the shared end of a command adds the response. -/
theorem oneResponseAfterTheEvents : Obligations.OneResponseAfterTheEvents := by
  intro i s t h
  obtain ⟨e, v, u, hu, rfl, hv⟩ := exec_ends move_fixed (allows_fixed i) h
  obtain ⟨es, hes⟩ := hu.trace
  refine ⟨⟨es, ?_⟩, statusOf_le e, ?_, rfl⟩
  · simp [hes]
  · intro hne
    obtain ⟨rfl, hvne⟩ := resultOf_ne_zero hne
    exact ⟨Instr.eq_csum16_of_opcode (not_imp_comm.1 hv hvne), rfl⟩

/-- Settles O1: the reset state is written out field by field. -/
theorem resetValues : Obligations.ResetValues := fun _ =>
  ⟨rfl, rfl, rfl, rfl, rfl, rfl, rfl, rfl, rfl, rfl, rfl, rfl, rfl, rfl, rfl, rfl⟩

/-- Settles O6: the decoder takes exactly the encoded bytes from the port. -/
theorem stepRunsTheDecodedCommand : Obligations.StepRunsTheDecodedCommand := by
  intro s i rest hl he hi hp
  rw [step_of_legal hl he, hp, decode_encode i rest hi]

/-- Settles O10: the engine state is looked at before the bytes at the port. -/
theorem busyEngineAcceptsNothing : Obligations.BusyEngineAcceptsNothing := fun _ => step_of_busy

end Sys2Proof.Machine
end

section
/-!
PROOFS. The statements of 20_memory.md: the Buffer primitives, the invariant every step keeps, and where FAIL_BUF can and
cannot be answered.
-/
namespace Sys2Proof

/-! ### The number of a byte string -/

/-- Byte `k` of `n` weighs `256 ^ (n - 1 - k)` (R11, R66). -/
theorem beNat_map_range (n : Nat) (f : Nat → Byte) :
    beNat ((List.range n).map f) = ((List.range n).map fun k => (f k).toNat * 256 ^ (n - 1 - k)).sum := by
  induction n with
  | zero => rfl
  | succ n ih =>
    have shift : ∀ k ∈ List.range n,
        (f k).toNat * 256 ^ (n + 1 - 1 - k) = (f k).toNat * 256 ^ (n - 1 - k) * 256 := by
      intro k hk
      have hexp : n + 1 - 1 - k = (n - 1 - k) + 1 := by have := List.mem_range.1 hk; omega
      rw [hexp, pow_succ, Nat.mul_assoc]
    simp only [List.range_succ, List.map_append, List.map_singleton, beNat_snoc, List.sum_append, List.sum_singleton,
      List.map_congr_left shift, List.sum_map_mul_right, ih]
    simp

end Sys2Proof

namespace Sys2Proof.Machine

/-! ### `MemRead` and `MemWrite` outside the window -/

theorem Buffer.memRead_of_lt {b : Buffer} {off n : Nat} (h : b.len < off + n) : b.memRead off n = none :=
  if_neg (by omega)

theorem Buffer.memWrite_of_lt {b : Buffer} {off n : Nat} (v : Nat) (h : b.len < off + n) : b.memWrite off n v = none :=
  if_neg (by omega)

/-- Settles O20: a read is the number of the bytes there, and a write is one store of `n` bytes. -/
theorem memWriteThenMemRead : Obligations.MemWriteThenMemRead := by
  intro b off n v
  refine ⟨fun h => ⟨?_, _, Buffer.memWrite_of_le v h, rfl, rfl, ?_, ?_, ?_⟩, fun h =>
    ⟨Buffer.memWrite_of_lt v h, Buffer.memRead_of_lt h⟩⟩
  · rw [Buffer.memRead_of_le h, Buffer.beAt_window b off n h, Buffer.bytesFrom, beNat_map_range]
  · intro hv
    have hself := Buffer.bytesFrom_setBytes_self b (b.start + off) (bytesOf n v)
    rw [length_bytesOf] at hself
    rw [Buffer.memRead_of_le (by exact h), Buffer.beAt_window _ off n (by exact h), hself, beNat_bytesOf,
      Nat.mod_eq_of_lt hv]
  · intro k hk
    rw [Buffer.byteAt_setBytes, dif_pos (by rw [length_bytesOf]; omega), getElem_bytesOf, Nat.add_sub_cancel_left]
  · intro a ha
    exact Buffer.byteAt_setBytes_of_not_mem b (by rw [length_bytesOf]; omega)

/-- A read outside the window ends the operation (R61). -/
theorem State.readBuffer_none {w : BufId} {off n : Nat} {s : State} (k : Nat → Run)
    (h : (s.buffer w).memRead off n = none) : s.readBuffer w off n k = .fail .buf s := by
  simp [State.readBuffer, h]

/-- Settles O21: each primitive keeps the bounds, and the operations turn a failing one into FAIL_BUF. -/
theorem primitivesKeepBufferInvariant : Obligations.PrimitivesKeepBufferInvariant := by
  refine ⟨fun cap b c hb h => ?_, fun w s => ⟨fun f => State.onBuffer_none, fun off n k =>
    State.readBuffer_none k, fun p => State.loadBuffer_of_not_fits⟩⟩
  rcases h with ⟨n, h⟩ | ⟨n, h⟩ | ⟨n, h⟩ | ⟨n, h⟩ | ⟨off, n, v, h⟩ | ⟨e, p, h⟩
  · exact Buffer.removeHeader_ok h hb
  · exact Buffer.addHeader_ok h hb
  · exact Buffer.addPadding_ok h hb
  · exact Buffer.removePadding_ok h hb
  · exact Buffer.memWrite_ok h hb
  · exact Buffer.load_ok h

/-- `buf_add_padding` where there is room (R65). -/
theorem Buffer.addPadding_of_le {cap n : Nat} {b : Buffer} (h : b.start + b.len + n ≤ cap) :
    b.addPadding cap n = some (b.extended (zeros n)) := by
  rw [Buffer.extended, length_zeros]
  exact if_pos h

/-- Settles O22: loading and padding store bytes, the other three slide the window over the same bytes. -/
theorem bufferPrimitivesDoAsStated : Obligations.BufferPrimitivesDoAsStated := by
  refine ⟨fun cap e p h => ?_, fun b n h => ?_, fun b n h => ?_, fun cap b n h => ?_, fun b n h => ?_⟩
  · refine ⟨_, Buffer.load_of_fits h, rfl, rfl, Buffer.window_loaded e p, fun a ha => ?_⟩
    rw [Buffer.byteAt_loaded, dif_neg (by omega)]
  · refine ⟨_, Buffer.removeHeader_of_le h, rfl, rfl, ?_, fun _ => rfl⟩
    rw [Buffer.slide_window, Buffer.window, Buffer.drop_bytesFrom]
  · refine ⟨_, Buffer.addHeader_of_le h, rfl, rfl, ?_, fun _ => rfl⟩
    rw [Buffer.slide_window, Nat.add_comm, Buffer.bytesFrom_add, Nat.sub_add_cancel h, Buffer.window]
  · refine ⟨_, Buffer.addPadding_of_le h, rfl, ?_, Buffer.window_extended b _, fun a ha => ?_⟩
    · simp only [Buffer.extended, length_zeros]
    · exact Buffer.byteAt_setBytes_of_not_mem b (by rw [length_zeros]; omega)
  · refine ⟨_, Buffer.removePadding_of_le h, rfl, rfl, ?_, fun _ => rfl⟩
    rw [Buffer.take_window b (Nat.sub_le _ _), Buffer.slide_window]

/-! ### The invariant -/

/-- Bytes taken from the port are no part of the invariant. -/
theorem State.Inv.withPort {s : State} (h : s.Inv) (rest : Bytes) : State.Inv { s with port := rest } :=
  ⟨h.legal, h.idle, h.buf, h.fbuf, h.dispatch, h.ports⟩

/-- An answer to an illegal command changes nothing the invariant speaks of (R108). -/
theorem State.Inv.rejectCommand {s : State} (h : s.Inv) : s.rejectCommand.Inv :=
  ⟨h.legal, rfl, h.buf, h.fbuf, h.dispatch, h.ports⟩

/-- A command changes nothing R251 speaks of. -/
theorem exec_configLegal {i : Instr} {s t : State} (h : exec i s = .next t) : t.configLegal = s.configLegal := by
  obtain ⟨hcaps, -, -, hmtu, -⟩ := exec_fixed h
  rw [State.configLegal, hcaps, hmtu, State.configLegal]

/-- Every command keeps the invariant: its chain keeps the registers and the bounds, its end makes the engine IDLE. -/
theorem exec_inv {i : Instr} {s t : State} (hs : s.Inv) (h : exec i s = .next t) : t.Inv := by
  have hlegal := exec_configLegal h
  obtain ⟨_, _, _, hb, rfl, -⟩ := exec_ends move_bounds (allows_bounds i) h
  exact ⟨hlegal.trans hs.legal, rfl, hb.buf hs.buf, hb.fbuf hs.fbuf, hb.dispatch hs.dispatch, hb.ports hs.ports⟩

/-- Settles O5, by the three things a step can be: waiting, rejecting, running a command. -/
theorem stepKeepsInvariant : Obligations.StepKeepsInvariant := by
  intro s t hs h
  rcases step_next_cases h with rfl | ⟨rest, rfl⟩ | ⟨i, rest, hx⟩
  · exact hs
  · exact (hs.withPort rest).rejectCommand
  · exact exec_inv (hs.withPort rest) hx

/-! ### FAIL_BUF -/

/-- Settles O24: a payload that does not fit fails where the command loads it. -/
theorem noRoomForThePayloadFails : Obligations.NoRoomForThePayloadFails := by
  intro i s h hi
  refine ⟨s.draws, ?_⟩
  cases i with
  | ipFragEmit ip proto ident off mf p => exact exec_noRoom _ s rfl (fragOperandError_none.2 hi) h
  | ipTx ip proto p => exact exec_noRoom _ s rfl (if_neg (Nat.not_lt.2 hi)) h
  | udpTx ip sport dport p => exact exec_noRoom (.udpTx ip sport dport p) s rfl (if_neg (by omega)) h
  | csum16 p => exact exec_noRoom _ s rfl rfl h
  | ethRx p => exact exec_noRoom _ s rfl rfl h
  | ethTx mac proto p => exact exec_noRoom _ s rfl rfl h
  | netDispatch src proto p => exact exec_noRoom _ s rfl rfl h
  | ipRx mac p => exact exec_noRoom _ s rfl rfl h
  | udpRx ip p => exact exec_noRoom _ s rfl rfl h
  | ethPoll => exact hi.elim
  | netRegister key hnd => exact hi.elim
  | udpOpen key hnd => exact hi.elim
  | udpClose key => exact hi.elim

/-- STATUS is `FAIL_BUF` only after `raise Fail(FAIL_BUF)` (R24, R212). -/
theorem eq_failBuf_of_statusOf {e : Option EarlyEnd} (h : statusOf e = 0x06#8) : e = some (.fail .buf) := by
  rcases e with _ | r | c | f
  · exact absurd h (by decide)
  · exact absurd h (by decide : (0x00#8 : Byte) ≠ 0x06#8)
  · exact absurd h (by decide : (0x00#8 : Byte) ≠ 0x06#8)
  · cases f with
    | buf => rfl
    | _ => exact absurd h (by decide)

/-- A command in a legal configuration that answers FAIL_BUF has a report that says so. -/
theorem report_failBuf_of_status {i : Instr} {s t : State} (hl : s.configLegal = true) (h : exec i s = .next t)
    (hst : t.status = 0x06#8) : ∃ r : Report, s.report i = .ok r ∧ r.early = some (.fail .buf) := by
  have hr := exec_reports i s hl
  rw [h] at hr
  cases hx : s.report i with
  | error x => rw [hx] at hr; cases hr
  | ok r =>
    rw [hx] at hr
    obtain ⟨b, c, ht⟩ := hr
    cases ht
    exact ⟨r, rfl, eq_failBuf_of_statusOf hst⟩

/-- The operand limits of IP_FRAG_EMIT fail with other codes (R171). -/
theorem fragOperandError_ne_buf (off : Half) (n : Nat) : fragOperandError off n ≠ some .buf := by
  unfold fragOperandError
  split
  · decide
  split <;> decide

/-- No receive unit ends with a failure (R210 to R212). -/
theorem Answer.Mild.ne_fail {a : Answer} (h : a.Mild) (f : Failure) : a.1 ≠ some (.fail f) := h.1 f

/-- A command whose payload fits BUF fails only as its unit does. -/
theorem State.reading_ne_failBuf {s : State} {p : Bytes} {x : Except Refusal Answer} {r : Report}
    (hfit : 42 + p.length ≤ s.caps.buf) (hx : ∀ a, x = .ok a → a.1 ≠ some (.fail .buf)) (h : s.reading p x = .ok r) :
    r.early ≠ some (.fail .buf) := by
  rw [State.reading, if_pos hfit] at h
  cases x with
  | error e => cases h
  | ok a => cases h; exact hx a rfl

/-- With the default BUF_CAP every payload and every fragment fits, so no report is a FAIL_BUF (R61). -/
theorem State.report_ne_failBuf {i : Instr} {s : State} {r : Report} (hcap : 65623 ≤ s.caps.buf)
    (hi : i.payload.length ≤ 65535) (hpoll : ∀ f, s.pollAnswer = some f → f.length ≤ 65535) (h : s.report i = .ok r) :
    r.early ≠ some (.fail .buf) := by
  have hfit : 42 + i.payload.length ≤ s.caps.buf := by omega
  cases i with
  | csum16 p =>
    rw [State.report, if_pos (c := 42 + p.length ≤ s.caps.buf) hfit] at h
    cases h; rintro ⟨⟩
  | ethRx f => exact State.reading_ne_failBuf hfit (fun a ha => (State.ethAnswer_mild ha).ne_fail .buf) h
  | ethTx mac proto p =>
    rw [State.report, if_pos (c := 42 + p.length ≤ s.caps.buf) hfit] at h
    cases h
    show (if s.txAnswer then none else some (EarlyEnd.fail .link)) ≠ _
    split <;> rintro ⟨⟩
  | ethPoll =>
    rw [State.report] at h
    cases hp : s.pollAnswer with
    | none => rw [hp] at h; cases h; rintro ⟨⟩
    | some f =>
      have hframe : 42 + f.length ≤ s.caps.buf := by have := hpoll f hp; omega
      simp only [hp] at h
      rw [if_pos hframe] at h
      cases ha : s.ethAnswer f with
      | error x => rw [ha] at h; cases h
      | ok a => rw [ha] at h; cases h; exact (State.ethAnswer_mild ha).ne_fail .buf
  | netRegister key hnd =>
    rw [State.report] at h
    split at h <;> cases h <;> rintro ⟨⟩
  | netDispatch src proto p => exact State.reading_ne_failBuf hfit (fun a ha => (State.netAnswer_mild ha).ne_fail .buf) h
  | ipRx mac p => exact State.reading_ne_failBuf hfit (fun a ha => (State.ipAnswer_mild ha).ne_fail .buf) h
  | ipFragEmit ip proto ident off mf p =>
    rw [State.report] at h
    cases hop : fragOperandError off p.length with
    | some f =>
      rw [hop] at h; cases h
      rintro ⟨⟩
      exact fragOperandError_ne_buf _ _ hop
    | none =>
      rw [hop] at h
      exact State.reading_ne_failBuf hfit (by rintro a ⟨⟩ ⟨⟩) h
  | ipTx ip proto p =>
    rw [State.report, if_pos (c := 42 + p.length ≤ s.caps.buf) hfit] at h
    split at h <;> cases h <;> rintro ⟨⟩
  | udpRx ip p =>
    exact State.reading_ne_failBuf hfit (by rintro a ⟨⟩; exact (s.udpAnswer_mild _ _ _).ne_fail .buf) h
  | udpTx ip sport dport p =>
    rw [State.report, if_neg (c := s.caps.buf < 42 + p.length) (Nat.not_lt.2 hfit)] at h
    split at h
    · cases h; rintro ⟨⟩
    split at h
    · cases h; rintro ⟨⟩
    have hfrag : 42 + min (s.mtu.toNat - 20) (8 + p.length) ≤ s.caps.buf := by omega
    rw [if_pos hfrag] at h
    cases h; rintro ⟨⟩
  | udpOpen key hnd =>
    rw [State.report] at h
    split at h <;> cases h <;> rintro ⟨⟩
  | udpClose key => cases h; rintro ⟨⟩

/-- Settles O37: a FAIL_BUF would be in the report, and no report has one. -/
theorem defaultCapacityNeverFailsBuf : Obligations.DefaultCapacityNeverFailsBuf := by
  intro i s t hl hcap hi hpoll h hst
  obtain ⟨r, hr, hfail⟩ := report_failBuf_of_status hl h hst
  exact State.report_ne_failBuf hcap ((wellFormed_iff i).1 hi) hpoll hr hfail

end Sys2Proof.Machine
end

section
/-!
PROOFS. The statements of 30_encoding.md: decoder and encoder undo each other, the decoder accepts the rows of the opcode
table, what an illegal command does, and the pseudo-operation BOOT.
-/
namespace Sys2Proof

/-! ### The round trip -/

/-- Settles O11: the decoder reads back the descriptor, and the two bytes of `LEN` hold a well-formed payload's length. -/
theorem encodedCommandDecodes : Obligations.EncodedCommandDecodes := decode_encode

/-- Behind a framed descriptor the decoder reads a command exactly if it accepts the descriptor. -/
theorem decode_framed_command_iff {d p : Bytes} (rest : Bytes) (hd : d.length = 16) (hp : p.length = beAt d 2 2)
    (i : Instr) (r : Bytes) :
    decode (d ++ p ++ rest) = .command i r ↔ decodeDescriptor d p = .ok i ∧ r = rest := by
  rw [decode_framed d p rest hd hp]
  cases decodeDescriptor d p with
  | error why => simp
  | ok j => simp [eq_comm]

/-- Behind a framed descriptor that is not accepted the payload is skipped (R108). -/
theorem decode_framed_illegal {d p : Bytes} {why : Illegal} (rest : Bytes) (hd : d.length = 16)
    (hp : p.length = beAt d 2 2) (h : decodeDescriptor d p = .error why) :
    decode (d ++ p ++ rest) = .illegal why rest := by
  rw [decode_framed d p rest hd hp, h]

/-- A payload of `LEN` bytes has an encoding (R105). -/
theorem wellFormed_of_len {i : Instr} {d : Bytes} (h : i.payload.length = beAt d 2 2) : WellFormed i = true := by
  have hlt : beAt d 2 2 < 256 ^ 2 :=
    (beNat_lt _).trans_le (Nat.pow_le_pow_right (by decide) (List.length_take_le _ _))
  rw [wellFormed_iff]; omega

/-- Settles O12: what the decoder reads a command from is framed by `LEN`, and an accepted descriptor is the descriptor of
its command. -/
theorem decodedCommandEncodes : Obligations.DecodedCommandEncodes := by
  intro bs i rest h
  have hwhole : ¬ (bs.length < 16 ∨ bs.length < 16 + beAt bs 2 2) := by
    rw [← decode_incomplete_iff, h]; rintro ⟨⟩
  obtain ⟨d, p, r, rfl, hd, hp, -⟩ := framed_of_length (bs := bs) (by omega) (by omega)
  obtain ⟨hok, rfl⟩ := (decode_framed_command_iff r hd hp i rest).1 h
  obtain ⟨rfl, rfl⟩ := descriptor_of_decode hok hd hp
  exact ⟨wellFormed_of_len hp, rfl⟩

/-- Settles O14: each of the seven byte strings is the encoding of its command. -/
theorem sampleDescriptorsDecode : Obligations.SampleDescriptorsDecode :=
  ⟨decode_encode (.csum16 [0xAB, 0xCD]) [] rfl, decode_encode (.ethTx 0x0200000000AA#48 0x0806#16 [7]) [] rfl,
    decode_encode (.netDispatch (.ip 0x01020304#32) 17#16 []) [] rfl, decode_encode (.ipTx 0x01020304#32 17#8 []) [9] rfl,
    decode_encode (.ipFragEmit 0x01020304#32 17#8 0xBEEF#16 1480#16 true []) [] rfl,
    decode_encode (.udpTx 0x01020304#32 53#16 9999#16 []) [] rfl, decode_encode (.udpOpen 53#16 0x0100#16) [] rfl⟩

/-! ### The rows of the opcode table -/

/-- A byte under a full mask is fixed, a byte under an empty one is free. -/
theorem and_mask_eq_zero_iff (c : Prop) [Decidable c] (b : Byte) :
    b &&& (if c then 0xFF#8 else 0x00#8) = 0x00#8 ↔ (c → b = 0x00#8) := by
  by_cases h : c
  · rw [if_pos h, show (0xFF#8 : Byte) = BitVec.allOnes 8 from rfl, BitVec.and_allOnes]
    simp [h]
  · simp [h]

/-- A string of 16 bytes by position. -/
theorem eq_map_getD {d : Bytes} (hd : d.length = 16) : d = (List.range 16).map fun k => d.getD k 0#8 := by
  refine List.ext_getElem (by simp [hd]) fun k hk _ => ?_
  simp [hk]

/-- `LEN` is 0 exactly if its two bytes are. -/
theorem len_eq_zero_iff {d : Bytes} (hd : d.length = 16) :
    beAt d 2 2 = 0 ↔ d.getD 2 0#8 = 0x00#8 ∧ d.getD 3 0#8 = 0x00#8 := by
  obtain ⟨b0, b1, b2, b3, b4, b5, b6, b7, b8, b9, b10, b11, b12, b13, b14, b15, rfl⟩ := bytes16 hd
  show beNat ([b2] ++ [b3]) = 0 ↔ b2 = 0x00#8 ∧ b3 = 0x00#8
  rw [beNat_snoc, beNat_singleton, ← BitVec.toNat_inj, ← BitVec.toNat_inj]
  simp

namespace Opcode

/-- Byte `k` of the mask of an operation's row: which bits the operation fixes (R105, R106). -/
def maskByte (op : Opcode) : Nat → Byte
  | 0 => 0xFF#8
  | 1 => if op = ipFragEmit then 0xFE#8 else 0xFF#8
  | 2 | 3 => if op.noPayload then 0xFF#8 else 0x00#8
  | k + 4 => if k + 4 ∈ op.unusedBytes then 0xFF#8 else 0x00#8

/-- Byte `k` of the match word of an operation's row: `OPC`, and zeros (R107). -/
def matchByte (op : Opcode) : Nat → Byte
  | 0 => op.code
  | _ + 1 => 0x00#8

/-- The row of an operation in the opcode table, written from the format table. -/
def tableRow (op : Opcode) : Opcode × Nat × Nat :=
  (op, beNat ((List.range 16).map op.matchByte), beNat ((List.range 16).map op.maskByte))

/-- The table of spec/opcode_table.json is the format table of the decoder. -/
theorem opcodeTable_eq : opcodeTable = all.map tableRow := by decide

theorem mem_all (op : Opcode) : op ∈ all := by cases op <;> decide

/-- The fixed bytes of a descriptor are those of operation `op` (R105 to R107). -/
structure Fits (op : Opcode) (d : Bytes) : Prop where
  code : d.getD 0 0#8 = op.code
  flags : op.flagsLegal (d.getD 1 0#8) = true
  unused : ∀ k ∈ op.unusedBytes, d.getD k 0#8 = 0#8
  len : op.noPayload = true → beAt d 2 2 = 0

theorem unusedBytes_range (op : Opcode) : ∀ k ∈ op.unusedBytes, 4 ≤ k ∧ k < 16 := by
  cases op <;> decide

/-- Only bit 0 of byte 1 may be set, and only for IP_FRAG_EMIT (R105). -/
theorem flagsLegal_iff_mask (op : Opcode) (b : Byte) : op.flagsLegal b = true ↔ b &&& op.maskByte 1 = 0x00#8 := by
  by_cases h : op = ipFragEmit
  · subst h
    revert b
    decide
  · have hmask : b &&& op.maskByte 1 = b := by rw [maskByte, if_neg h]; exact BitVec.and_allOnes
    rw [hmask]
    simp [flagsLegal, h]

/-- A row matches exactly if it matches byte by byte. -/
theorem row_matches_iff_bytes (op : Opcode) {d : Bytes} (hd : d.length = 16) :
    beNat d &&& op.tableRow.2.2 = op.tableRow.2.1 ↔ ∀ k < 16, d.getD k 0#8 &&& op.maskByte k = op.matchByte k := by
  have hmasked : beNat d &&& op.tableRow.2.2 =
      beNat ((List.range 16).map fun k => d.getD k 0#8 &&& op.maskByte k) := by
    rw [tableRow, beNat_and d _ (by simpa using hd)]
    conv_lhs => rw [eq_map_getD hd, List.zipWith_map, List.zipWith_self]
  rw [hmasked, tableRow]
  constructor
  · intro h k hk
    exact List.map_inj_left.1 (beNat_inj (by simp) h) k (List.mem_range.2 hk)
  · intro h
    exact congrArg beNat (List.map_inj_left.2 fun k hk => h k (List.mem_range.1 hk))

/-- An operation's row matches a descriptor exactly if the descriptor's fixed bytes are right. -/
theorem row_matches_iff_fits (op : Opcode) {d : Bytes} (hd : d.length = 16) :
    beNat d &&& op.tableRow.2.2 = op.tableRow.2.1 ↔ op.Fits d := by
  rw [row_matches_iff_bytes op hd]
  constructor
  · intro h
    refine ⟨?_, (flagsLegal_iff_mask op _).2 (h 1 (by decide)), fun k hk => ?_, fun hn => ?_⟩
    · exact BitVec.and_allOnes.symm.trans (h 0 (by decide))
    · obtain ⟨hlow, hhigh⟩ := op.unusedBytes_range k hk
      obtain ⟨j, rfl⟩ := Nat.exists_eq_add_of_le' hlow
      exact (and_mask_eq_zero_iff _ _).1 (h (j + 4) hhigh) hk
    · exact (len_eq_zero_iff hd).2 ⟨(and_mask_eq_zero_iff _ _).1 (h 2 (by decide)) hn,
        (and_mask_eq_zero_iff _ _).1 (h 3 (by decide)) hn⟩
  · rintro ⟨hcode, hflags, hunused, hlen⟩ k -
    match k with
    | 0 => exact BitVec.and_allOnes.trans hcode
    | 1 => exact (flagsLegal_iff_mask op _).1 hflags
    | 2 => exact (and_mask_eq_zero_iff _ _).2 fun hn => ((len_eq_zero_iff hd).1 (hlen hn)).1
    | 3 => exact (and_mask_eq_zero_iff _ _).2 fun hn => ((len_eq_zero_iff hd).1 (hlen hn)).2
    | j + 4 => exact (and_mask_eq_zero_iff _ _).2 (hunused (j + 4))

/-- The `SRCW` byte of NET_DISPATCH allows the descriptor (R106, R108; log 11). -/
def SourceLegal (op : Opcode) (d : Bytes) : Prop :=
  op = netDispatch → beAt d 12 1 = 6 ∨ beAt d 12 1 = 4 ∧ beAt d 8 2 = 0

end Opcode

/-! ### Which descriptors are accepted -/

/-- The operand fields of an operation are read only as a command of it, and only behind a legal `SRCW`. -/
theorem decodeOperands_ok {op : Opcode} {d p : Bytes} {i : Instr} (h : decodeOperands op d p = .ok i) :
    i.opcode = op ∧ op.SourceLegal d := by
  cases op with
  | netDispatch =>
    rw [decodeOperands] at h
    split at h
    · rename_i h6
      cases h
      exact ⟨rfl, fun _ => .inl h6⟩
    split at h
    · rename_i h4
      split at h
      · rename_i h8
        cases h
        exact ⟨rfl, fun _ => .inr ⟨h4, h8⟩⟩
      · cases h
    · cases h
  | _ => cases h; exact ⟨rfl, nofun⟩

/-- Only NET_DISPATCH has operand fields that can be illegal (R106). -/
theorem exists_decodeOperands_ok {op : Opcode} {d : Bytes} (p : Bytes) (h : op.SourceLegal d) :
    ∃ i : Instr, decodeOperands op d p = .ok i := by
  cases op with
  | netDispatch =>
    rcases h rfl with h6 | ⟨h4, h8⟩
    · exact ⟨_, if_pos h6⟩
    · exact ⟨_, by rw [decodeOperands, h4, if_neg (by decide), if_pos rfl, if_pos h8]⟩
  | _ => exact ⟨_, rfl⟩

/-- A descriptor is accepted as a command of `op` exactly if `op`'s fixed bytes and the source width are right (R105 to
R108). -/
theorem decodeDescriptor_accepts_iff (op : Opcode) {d p : Bytes} (hp : p.length = beAt d 2 2) :
    (∃ i : Instr, i.opcode = op ∧ decodeDescriptor d p = .ok i) ↔ op.Fits d ∧ op.SourceLegal d := by
  have hempty : p = [] ↔ beAt d 2 2 = 0 := by rw [← hp, List.length_eq_zero_iff]
  constructor
  · rintro ⟨i, rfl, h⟩
    obtain ⟨op, hcode, hflags, hunused, hlen, hops⟩ := decodeDescriptor_ok h
    obtain ⟨rfl, hsrc⟩ := decodeOperands_ok hops
    exact ⟨⟨hcode, hflags, hunused, fun hn => hempty.1 (hlen hn)⟩, hsrc⟩
  · rintro ⟨⟨hcode, hflags, hunused, hlen⟩, hsrc⟩
    obtain ⟨i, hops⟩ := exists_decodeOperands_ok p hsrc
    refine ⟨i, (decodeOperands_ok hops).1, (Laws.Descriptor.decode_of ?_ hflags ?_ ?_).trans hops⟩
    · rw [hcode, Opcode.ofByte_code]
    · simpa using hunused
    · simpa [hempty] using hlen

/-- The same in terms of the opcode table. -/
theorem decodeDescriptor_accepts_iff_row (op : Opcode) {d p : Bytes} (hd : d.length = 16) (hp : p.length = beAt d 2 2) :
    (∃ i : Instr, i.opcode = op ∧ decodeDescriptor d p = .ok i) ↔
      ∃ row ∈ opcodeTable, row.1 = op ∧ beNat d &&& row.2.2 = row.2.1 ∧ op.SourceLegal d := by
  rw [decodeDescriptor_accepts_iff op hp, Opcode.opcodeTable_eq]
  constructor
  · rintro ⟨hfits, hsrc⟩
    exact ⟨op.tableRow, List.mem_map_of_mem op.mem_all, rfl, (op.row_matches_iff_fits hd).2 hfits, hsrc⟩
  · rintro ⟨row, hrow, rfl, hmatch, hsrc⟩
    obtain ⟨op, -, rfl⟩ := List.mem_map.1 hrow
    exact ⟨(op.row_matches_iff_fits hd).1 hmatch, hsrc⟩

/-- Settles O13: a framed descriptor decodes as the descriptor alone is judged, and that judgement is the table's. -/
theorem decoderAcceptsTheOpcodeTable : Obligations.DecoderAcceptsTheOpcodeTable := by
  intro d p rest hd hp
  constructor
  · intro op
    simp only [decode_framed_command_iff rest hd hp, and_true]
    exact decodeDescriptor_accepts_iff_row op hd hp
  · cases h : decodeDescriptor d p with
    | ok i => exact .inl ⟨i, rest, (decode_framed_command_iff rest hd hp i rest).2 ⟨h, rfl⟩⟩
    | error why => exact .inr ⟨why, decode_framed_illegal rest hd hp h⟩

end Sys2Proof

namespace Sys2Proof.Machine

/-! ### Illegal commands and BOOT -/

/-- Settles O7: an accepted descriptor would have a matching row with a legal source, so the step rejects the command. -/
theorem illegalCommandOnlyAnswers : Obligations.IllegalCommandOnlyAnswers := by
  intro s d p rest hl he hd hp hport hrows
  rw [step_of_legal hl he, hport]
  cases h : decodeDescriptor d p with
  | ok i =>
    obtain ⟨row, hrow, hop, hmatch, hsrc⟩ := (decodeDescriptor_accepts_iff_row i.opcode hd hp).1 ⟨i, rfl, h⟩
    obtain ⟨hnet, h4, h6⟩ := hrows row hrow hmatch
    rcases hsrc (hop.symm.trans hnet) with h' | ⟨h', -⟩
    · exact absurd h' h6
    · exact absurd h' h4
  | error why =>
    rw [decode_framed_illegal rest hd hp h]
    simp [State.rejectCommand, State.respond, statusOf, resultOf, Failure.code, he]

/-- The table BOOT leaves maps the two keys of R252 and no other. -/
theorem Table.lookup_boot (k : Half) :
    (Table.insert (Table.insert [] 0x0800#16 0x0001#16) 17#16 0x0002#16).lookup k =
      if k = 0x0800#16 then some 0x0001#16 else if k = 17#16 then some 0x0002#16 else none := by
  rw [Table.lookup_insert, Table.lookup_insert]
  by_cases h : k = 17#16
  · subst h; rfl
  · simp [h, Table.lookup]

/-- A table that maps only the two keys of R252 is boot-safe (R270). -/
theorem State.bootSafe_of_lookup {s : State} (h : ∀ k, s.dispatch.lookup k =
    if k = 0x0800#16 then some 0x0001#16 else if k = 17#16 then some 0x0002#16 else none) : s.BootSafe := by
  refine ⟨by rw [h]; decide, fun k hk => ?_⟩
  rw [h] at hk
  by_contra hne
  rw [if_neg hne] at hk
  split at hk
  · exact absurd hk (by decide)
  · cases hk

/-- Settles O4: an empty table of two places has room for both registrations. -/
theorem bootRegistersTheReceivePath : Obligations.BootRegistersTheReceivePath := by
  intro s hempty hcap
  have hroom : s.dispatch.length ≠ s.caps.dispatch := by rw [hempty, List.length_nil]; omega
  have hroom' : (s.dispatch.insert 0x0800#16 0x0001#16).length ≠ s.caps.dispatch := by
    rw [hempty]; show 1 ≠ _; omega
  have hlookup := Table.lookup_boot
  rw [← hempty] at hlookup
  exact ⟨_, _, _, _, rfl, exec_netRegister _ _ s fun h => hroom h.2, exec_netRegister _ _ _ fun h => hroom' h.2,
    hlookup, State.bootSafe_of_lookup hlookup, rfl, rfl, rfl, rfl⟩

end Sys2Proof.Machine
end

section
/-!
PROOFS. The statements of 40_checksum.md: the checksum unit, and that a datagram IP_FRAG_EMIT built passes the
validator of the addressed interface.
-/
namespace Sys2Proof.Machine

/-! ### The word sum -/

/-- The big-endian word at byte `2 * k`; a byte beyond the end counts as 0 (R131, R132). -/
def wordAt (bs : Bytes) (k : Nat) : Nat := (bs.getD (2 * k) 0#8).toNat * 256 + (bs.getD (2 * k + 1) 0#8).toNat

/-- The unit reads the range word by word (R131). -/
theorem wordSum_eq_sum (bs : Bytes) : wordSum bs = ((List.range ((bs.length + 1) / 2)).map (wordAt bs)).sum := by
  induction bs using wordSum.induct with
  | case1 => rfl
  | case2 b => simp [wordSum, wordAt]
  | case3 a b rest ih =>
    have hlen : ((a :: b :: rest).length + 1) / 2 = (rest.length + 1) / 2 + 1 := by simp only [List.length_cons]; omega
    have hshift : wordAt (a :: b :: rest) ∘ Nat.succ = wordAt rest := rfl
    rw [hlen, List.range_succ_eq_map, List.map_cons, List.map_map, hshift, List.sum_cons, ← ih]
    rfl

/-- The whole words, and the last byte of an odd range as a high byte (R132). -/
theorem wordSum_eq_pairs_add_last (bs : Bytes) :
    wordSum bs = ((List.range (bs.length / 2)).map (wordAt bs)).sum +
      if bs.length % 2 = 1 then (bs.getD (bs.length - 1) 0#8).toNat * 256 else 0 := by
  rw [wordSum_eq_sum]
  by_cases h : bs.length % 2 = 1
  · have hwords : (bs.length + 1) / 2 = bs.length / 2 + 1 := by omega
    have hhigh : 2 * (bs.length / 2) = bs.length - 1 := by omega
    have hend : bs.length - 1 + 1 = bs.length := by omega
    have hlast : wordAt bs (bs.length / 2) = (bs.getD (bs.length - 1) 0#8).toNat * 256 := by
      rw [wordAt, hhigh, hend, List.getD_eq_default _ _ (le_refl _), BitVec.toNat_zero, Nat.add_zero]
    rw [if_pos h, hwords, List.range_succ, List.map_append, List.sum_append, ← hlast]
    simp
  · have hwords : (bs.length + 1) / 2 = bs.length / 2 := by omega
    rw [if_neg h, hwords, Nat.add_zero]

/-- A zero byte behind an odd range is the low byte it already counted with (R132, R137). -/
theorem wordSum_append_zero {bs : Bytes} (h : bs.length % 2 = 1) : wordSum (bs ++ [0#8]) = wordSum bs := by
  induction bs using wordSum.induct with
  | case1 => simp at h
  | case2 b => simp [wordSum]
  | case3 a b rest ih =>
    simp only [List.length_cons] at h
    simp only [List.cons_append, wordSum, ih (by omega)]

/-- What byte `i` of a range weighs in the word sum (R131, R132). -/
def byteWeight (i : Nat) : Nat := if i % 2 = 0 then 256 else 1

@[simp] theorem byteWeight_zero : byteWeight 0 = 256 := rfl
@[simp] theorem byteWeight_one : byteWeight 1 = 1 := rfl
@[simp] theorem byteWeight_add_two (i : Nat) : byteWeight (i + 2) = byteWeight i := by simp [byteWeight]

/-- A changed byte changes its own term and no other. -/
theorem wordSum_set {bs : Bytes} {i : Nat} (hi : i < bs.length) (v : Byte) :
    wordSum (bs.set i v) + byteWeight i * (bs.getD i 0#8).toNat = wordSum bs + byteWeight i * v.toNat := by
  induction bs using wordSum.induct generalizing i with
  | case1 => simp at hi
  | case2 b =>
    obtain rfl : i = 0 := by simpa using hi
    simp only [List.set_cons_zero, wordSum, byteWeight_zero, List.getD_cons_zero]
    omega
  | case3 a b rest ih =>
    match i with
    | 0 =>
      simp only [List.set_cons_zero, wordSum, byteWeight_zero, List.getD_cons_zero]
      omega
    | 1 =>
      simp only [List.set_cons_succ, List.set_cons_zero, wordSum, byteWeight_one, List.getD_cons_succ,
        List.getD_cons_zero]
      omega
    | j + 2 =>
      have hrest := ih (i := j) (by simpa using hi)
      simp only [List.set_cons_succ, wordSum, byteWeight_add_two, List.getD_cons_succ]
      omega

/-! ### The fold -/

/-- The loop of R133: each turn keeps the sum modulo 65535 and whether it is 0. -/
theorem foldCarries_unfold (x : Nat) :
    foldCarries x = if 65536 ≤ x then foldCarries (x % 65536 + x / 65536) else x := by
  split
  · have hmod : foldCarries (x % 65536 + x / 65536) % 65535 = (x % 65536 + x / 65536) % 65535 := foldRounds_mod _ _
    have hzero : foldCarries (x % 65536 + x / 65536) = 0 ↔ x % 65536 + x / 65536 = 0 := foldRounds_eq_zero _ _
    exact foldCarries_eq_of (foldCarries_lt _) (by omega) (by omega)
  · exact foldCarries_eq_of (by omega) rfl Iff.rfl

/-- The folded sum is the sum modulo 65535, with 65535 in the place of 0 for a sum that is not 0 (R133). -/
theorem foldCarries_eq (sum : Nat) :
    foldCarries sum = if sum = 0 then 0 else if sum % 65535 = 0 then 65535 else sum % 65535 := by
  split
  · apply foldCarries_eq_of <;> omega
  split
  · apply foldCarries_eq_of <;> omega
  · apply foldCarries_eq_of <;> omega

/-- Ranges with one checksum have word sums that agree modulo 65535. -/
theorem wordSum_mod_of_csum16_eq {as bs : Bytes} (h : csum16 as = csum16 bs) :
    wordSum as % 65535 = wordSum bs % 65535 := by
  have ha := foldCarries_lt (wordSum as)
  have hb := foldCarries_lt (wordSum bs)
  have hfold : foldCarries (wordSum as) = foldCarries (wordSum bs) := by unfold csum16 at h; omega
  calc wordSum as % 65535 = foldCarries (wordSum as) % 65535 := (foldRounds_mod _ _).symm
    _ = foldCarries (wordSum bs) % 65535 := by rw [hfold]
    _ = wordSum bs % 65535 := foldRounds_mod _ _

/-- A change of one byte moves the word sum by at most 255 * 256, which is no multiple of 65535 (R138). -/
theorem csum16_set_ne {bs : Bytes} {i : Nat} {v : Byte} (hi : i < bs.length) (hv : bs.getD i 0#8 ≠ v) :
    csum16 (bs.set i v) ≠ csum16 bs := by
  intro h
  have hmod := wordSum_mod_of_csum16_eq h
  have hsum := wordSum_set hi v
  have hne : (bs.getD i 0#8).toNat ≠ v.toNat := fun e => hv (BitVec.eq_of_toNat_eq e)
  have hold := (bs.getD i 0#8).isLt
  have hnew := v.isLt
  unfold byteWeight at hsum
  split at hsum <;> omega

/-! ### The statements about the unit -/

/-- Settles O15: the word sum is the sum of the words, and the fold has a closed form. -/
theorem checksumClosedForm : Obligations.ChecksumClosedForm := by
  rintro bs sum rfl
  have hsum := wordSum_eq_sum bs
  unfold wordAt at hsum
  rw [csum16, foldCarries_eq, hsum]

/-- Settles O16 with the model's own fold, which meets the loop's equation. -/
theorem checksumFollowsTheLoop : Obligations.ChecksumFollowsTheLoop :=
  ⟨foldCarries, foldCarries_unfold, fun bs => congrArg (65535 - foldCarries ·) (wordSum_eq_pairs_add_last bs)⟩

/-- Settles O17: the payload is loaded into BUF and the checksum taken over the window. -/
theorem csum16Answers : Obligations.Csum16Answers := fun p s hfit =>
  ⟨_, _, Buffer.window_loaded s.draws p, exec_csum16 p s hfit, Nat.lt_succ_of_le (csum16_le p)⟩

/-- Settles O19: each corner is a fact about the word sum or about its fold. -/
theorem checksumCorners : Obligations.ChecksumCorners := by
  have hzero (bs : Bytes) : csum16 bs = 0 ↔ foldCarries (wordSum bs) = 0xFFFF := by
    have := foldCarries_lt (wordSum bs)
    unfold csum16; omega
  refine ⟨rfl, fun bs => ?_, hzero, ?_, fun as bs h => ?_, fun bs h => csum16_congr_wordSum (wordSum_append_zero h)⟩
  · have hfold : foldCarries (wordSum bs) = 0 ↔ wordSum bs = 0 := foldRounds_eq_zero _ _
    have hle := foldCarries_lt (wordSum bs)
    rw [← wordSum_eq_zero, ← hfold]
    unfold csum16; omega
  · exact (hzero _).2 (foldCarries_eq_of (by decide) rfl (by decide))
  · apply csum16_congr_wordSum
    rw [List.append_assoc, wordSum_append_even _ _ h, wordSum_append_even _ _ h, wordSum_append_even _ _ rfl]
    simp [wordSum]

end Sys2Proof.Machine

namespace Sys2Proof.Wire
open Sys2Proof.Machine

/-! ### A changed byte and the checksum field -/

/-- Zeroing the field is storing its two bytes (R136). -/
theorem zeroField_eq_set {bs : Bytes} {off : Nat} (h : off + 2 ≤ bs.length) :
    zeroField bs off = (bs.set off 0#8).set (off + 1) 0#8 := by
  have hlow : off < bs.length := by omega
  rw [zeroField, List.set_eq_take_append_cons_drop, if_pos (by rw [List.length_set]; omega),
    List.drop_set_of_lt (by omega), List.take_add_one, List.take_set_of_le (le_refl _)]
  simp [hlow]

theorem length_zeroField {bs : Bytes} {off : Nat} (h : off + 2 ≤ bs.length) :
    (zeroField bs off).length = bs.length := by
  rw [zeroField_eq_set h, List.length_set, List.length_set]

theorem getD_zeroField_outside {bs : Bytes} {off i : Nat} (h : off + 2 ≤ bs.length)
    (hi : ¬ (off ≤ i ∧ i < off + 2)) : (zeroField bs off).getD i 0#8 = bs.getD i 0#8 := by
  rw [zeroField_eq_set h, List.getD_eq_getElem?_getD, List.getElem?_set_ne (by omega),
    List.getElem?_set_ne (by omega), List.getD_eq_getElem?_getD]

theorem zeroField_set_inside {bs : Bytes} {off i : Nat} (v : Byte) (h : off + 2 ≤ bs.length)
    (hi : off ≤ i ∧ i < off + 2) : zeroField (bs.set i v) off = zeroField bs off := by
  rw [zeroField_eq_set h, zeroField_eq_set (by simpa using h)]
  obtain rfl | rfl : i = off ∨ i = off + 1 := by omega
  · rw [List.set_set]
  · rw [List.set_comm _ _ (by omega), List.set_set, List.set_comm _ _ (by omega)]

theorem zeroField_set_outside {bs : Bytes} {off i : Nat} (v : Byte) (h : off + 2 ≤ bs.length)
    (hi : ¬ (off ≤ i ∧ i < off + 2)) : zeroField (bs.set i v) off = (zeroField bs off).set i v := by
  rw [zeroField_eq_set h, zeroField_eq_set (by simpa using h), List.set_comm (i := i) _ _ (by omega),
    List.set_comm (i := i) _ _ (by omega)]

theorem beAt_set_outside {bs : Bytes} {off n i : Nat} (v : Byte) (hi : ¬ (off ≤ i ∧ i < off + n)) :
    beAt (bs.set i v) off n = beAt bs off n := by
  rw [beAt, List.drop_set]
  split
  · rfl
  · rw [List.take_set_of_le (by omega), beAt]

/-- The number of a field determines its bytes. -/
theorem beAt_set_inside_ne {bs : Bytes} {off n i : Nat} {v : Byte} (hlen : i < bs.length) (hv : bs.getD i 0#8 ≠ v)
    (hi : off ≤ i ∧ i < off + n) : beAt (bs.set i v) off n ≠ beAt bs off n := by
  intro h
  have hfield : ((bs.set i v).drop off).take n = (bs.drop off).take n := beNat_inj (by simp) h
  have hn : i - off < n := by omega
  have hbyte : v = bs[i] := by simpa [hn, Nat.add_sub_cancel' hi.1, hlen] using congrArg (·[i - off]?) hfield
  exact hv (by rw [hbyte, List.getD_eq_getElem _ _ hlen])

/-- Settles O18: outside the field the computed checksum changes, inside it the stored one. -/
theorem checksumDetectsOneChangedByte : Obligations.ChecksumDetectsOneChangedByte := by
  intro bs i v hi hv
  refine ⟨csum16_set_ne hi hv, fun off hoff hok hbad => ?_⟩
  by_cases hf : off ≤ i ∧ i < off + 2
  · rw [zeroField_set_inside v hoff hf, hok] at hbad
    exact beAt_set_inside_ne hi hv hf hbad.symm
  · rw [zeroField_set_outside v hoff hf, beAt_set_outside v hf, ← hok] at hbad
    exact csum16_set_ne (by rwa [length_zeroField hoff]) (by rwa [getD_zeroField_outside hoff hf]) hbad

end Sys2Proof.Wire

namespace Sys2Proof.Machine

/-! ### Built datagrams at the validator -/

/-- The five labels under which IP_RX itself drops (R160 to R164). -/
def ipDrops : List DropReason := [.ipShort, .ipVersion, .ipTotlen, .ipCsum, .ipDst]

theorem udpGate_not_mem_ipDrops {src ifIp : IpAddr} {d : Bytes} {r : DropReason}
    (h : Wire.udpGate src ifIp d = some r) : r ∉ ipDrops := by
  unfold Wire.udpGate at h
  split at h
  · cases h; decide
  split at h
  · cases h; decide
  split at h <;> cases h
  decide

/-- An end that is no drop under one of the five labels. -/
def Answer.PastIpGate (a : Answer) : Prop := ∀ x ∈ ipDrops, a.1 ≠ some (.drop x)

theorem State.udpAnswer_pastIpGate (s : State) (src : IpAddr) (before d : Bytes) :
    (s.udpAnswer src before d).PastIpGate := by
  unfold State.udpAnswer
  split
  · rename_i r hr
    rintro x hx ⟨⟩
    exact udpGate_not_mem_ipDrops hr hx
  split <;> rintro x hx ⟨⟩

theorem State.ipAnswer_pastIpGate {s : State} {d : Bytes} {a : Answer} (hgate : Wire.ipGate s.ifIp d = none)
    (h : s.ipAnswer d = .ok a) : a.PastIpGate := by
  rw [State.ipAnswer, hgate] at h
  simp only at h
  split at h
  · unfold State.dispatchAnswer at h
    split at h
    · cases h
      rintro x hx ⟨⟩
      exact absurd hx (by decide)
    split at h
    · cases h
    split at h
    · cases h; exact s.udpAnswer_pastIpGate _ _ _
    · cases h; rintro x hx ⟨⟩
  · cases h; rintro x hx ⟨⟩

/-- IP_RX of a built datagram with another protocol than 17 (R165, R167). -/
theorem State.ipAnswer_of_passes {s : State} {src : IpAddr} {proto : Byte} {d pad : Bytes}
    (h : Wire.Passes src s.ifIp proto d pad) (hp : proto ≠ 17#8) :
    s.ipAnswer (d ++ pad) = .ok (some (.notify .protoUnreach), [.icmpUnreach d src .protocolUnreachable]) := by
  have h17 : proto.toNat ≠ 17 := fun e => hp (BitVec.eq_of_toNat_eq e)
  rw [State.ipAnswer, h.gate]
  simp only
  rw [h.proto, if_neg h17, h.trim, h.src, BitVec.ofNat_toNat, BitVec.setWidth_eq]

/-- IP_RX of a built datagram with protocol 17: what is registered under 17 gets the payload (R167). -/
theorem State.ipAnswer_of_passes_udp {s : State} {src : IpAddr} {d pad : Bytes}
    (h : Wire.Passes src s.ifIp 17#8 d pad) :
    s.ipAnswer (d ++ pad) =
      s.dispatchAnswer (.error .wrongSource) (.ip src) 17#16 ((d ++ pad).take 20) (d.drop 20) := by
  rw [State.ipAnswer, h.gate]
  simp only
  rw [h.proto, if_pos (by decide), h.trim, h.src, BitVec.ofNat_toNat, BitVec.setWidth_eq]

theorem Answers.next {s : State} {p : Bytes} {o : Host.Outcome State Fault Refusal} {early : Option EarlyEnd}
    {es : List Event} (h : Answers s p o (.ok (early, es))) :
    ∃ (b : Buffer) (n : Nat), o = .next (s.after early 0#16 es b n) := by
  obtain ⟨b, -, h⟩ := h
  exact ⟨b, _, h⟩

/-- The ghost of log 7 shows the end that the answer names. -/
theorem Answers.lastEnd_ne_ipDrop {s u : State} {p : Bytes} {x : Except Refusal Answer}
    (hx : ∀ a, x = .ok a → a.PastIpGate) (h : Answers s p (.next u) x) :
    ∀ r ∈ ipDrops, u.lastEnd ≠ some (.drop r) := by
  cases x with
  | error e => cases h
  | ok a =>
    obtain ⟨b, -, h⟩ := h
    cases h
    exact hx a rfl

/-- Settles O52: the datagram passes the gate, so IP_RX answers by its protocol and by what is registered under 17. -/
theorem emittedDatagramsPassTheGate : Obligations.EmittedDatagramsPassTheGate := by
  rintro ip proto ident off mf mac p pad s r hoff hp hfit rfl hroom
  obtain ⟨b, -, -, -, hemit⟩ := exec_ipFragEmit r.ifIp proto ident off mf p s hoff hp hfit
  have hpass := Wire.passes_datagram s.ipTtlDefault s.ifIp r.ifIp proto ident off mf p pad hp
  have hdrop := Wire.drop_datagram s.ipTtlDefault s.ifIp r.ifIp proto ident off mf p
  have hlen : (Wire.datagram s.ipTtlDefault s.ifIp r.ifIp proto ident off mf p).length = 20 + p.length := by
    simp [Wire.datagram]
  generalize Wire.datagram s.ipTtlDefault s.ifIp r.ifIp proto ident off mf p = d at *
  have hrx := exec_ipRx mac (d ++ pad) r (by rw [List.length_append]; omega)
  have hudp (h17 : proto = 17#8) := State.ipAnswer_of_passes_udp (h17 ▸ hpass)
  rw [hdrop] at hudp
  refine ⟨d, _, hemit, by simp [State.after, statusOf, resultOf], hdrop, fun u hu => ?_, fun hne => ?_,
    fun h17 hnone => ?_, fun h h17 hreg hne1 hne2 => ?_, fun h17 hreg => ?_⟩
  · rw [hu] at hrx
    exact hrx.lastEnd_ne_ipDrop fun a => State.ipAnswer_pastIpGate hpass.gate
  · rw [State.ipAnswer_of_passes hpass hne] at hrx
    exact hrx.next
  · rw [hudp h17, State.dispatchAnswer, hnone] at hrx
    exact hrx.next
  · rw [hudp h17, State.dispatchAnswer, hreg] at hrx
    simp only [if_neg hne1, if_neg hne2] at hrx
    exact hrx.next
  · rw [hudp h17, State.dispatchAnswer, hreg] at hrx
    obtain ⟨b, n, hu⟩ := Answers.next hrx
    exact ⟨_, hu⟩

end Sys2Proof.Machine
end

section
/-!
PROOFS. The statements of 41_ethernet.md: ETH_RX and ETH_POLL from what the receive units answer (Laws/Outcome.lean), ETH_TX
from the frame its unit sends.
-/
namespace Sys2Proof

/-- The number of an `n`-byte field written back is the field (R11). -/
theorem bytesOf_beAt {bs : Bytes} {off n : Nat} (h : off + n ≤ bs.length) :
    bytesOf n (beAt bs off n) = (bs.drop off).take n := by
  have hlen : ((bs.drop off).take n).length = n := by rw [List.length_take, List.length_drop]; omega
  simpa only [hlen, beAt] using bytesOf_beNat ((bs.drop off).take n)

end Sys2Proof

namespace Sys2Proof.Machine

/-! ### Answers -/

/-- Commands that give one answer from one state are alike, whatever their payloads. -/
theorem alike_of_answers {s : State} {p q : Bytes} {o o' : Host.Outcome State Fault Refusal} {x : Except Refusal Answer}
    (h : Answers s p o x) (h' : Answers s q o' x) : Alike o o' := by
  cases x with
  | error x =>
    have ho : o = .refused x := h
    have ho' : o' = .refused x := h'
    subst ho ho'
    exact (rfl : x = x)
  | ok a =>
    obtain ⟨b, -, rfl⟩ := h
    obtain ⟨b', -, rfl⟩ := h'
    exact (rfl : s.after a.1 0#16 a.2 b _ = _)

/-- A handler outside the block gets the payload, whatever unit stands for the validator (R158). -/
theorem State.dispatchAnswer_upward {s : State} {key h : Half} (hreg : s.dispatch.lookup key = some h)
    (hip : h ≠ Config.hIpRx) (hudp : h ≠ Config.hUdpRx) (ip : Except Refusal Answer) (src : Source) (before d : Bytes) :
    s.dispatchAnswer ip src key before d = .ok (none, [.upward h d key (src.srcBytes.take src.width.toNat)]) := by
  unfold State.dispatchAnswer
  rw [hreg]
  simp only [if_neg hip, if_neg hudp]

/-! ### ETH_RX -/

/-- The source MAC of a frame (R91, R141). -/
def frameSource (f : Bytes) : Source := .mac (BitVec.ofNat 48 (beAt f 6 6))

/-- The EtherType of a frame (R91, R141). -/
def frameType (f : Bytes) : Half := BitVec.ofNat 16 (beAt f 12 2)

/-- The source ETH_RX hands on is bytes 6 to 11 of the frame (R91, R141). -/
theorem srcBytes_frameSource {f : Bytes} (h : 14 ≤ f.length) :
    (frameSource f).srcBytes.take (frameSource f).width.toNat = (f.drop 6).take 6 := by
  have hmac : (frameSource f).srcBytes = bytesOf 6 (beAt f 6 6) := by
    rw [frameSource, Source.srcBytes, BitVec.toNat_ofNat]
    exact bytesOf_mod 6 _
  rw [hmac, bytesOf_beAt (by omega)]
  exact List.take_of_length_le (List.length_take_le _ _)

/-- A frame of fewer than 14 bytes (R142). -/
theorem State.ethAnswer_of_short {s : State} {f : Bytes} (h : f.length < 14) :
    s.ethAnswer f = .ok (some (.drop .ethShort), []) := if_pos h

/-- A frame with a whole header is dispatched, and a MAC source makes the bytes in front of the payload irrelevant (R142). -/
theorem State.ethAnswer_of_header {s : State} {f : Bytes} (h : 14 ≤ f.length) (before : Bytes) :
    s.ethAnswer f = s.netAnswer (frameSource f) (frameType f) before (f.drop 14) :=
  (if_neg (Nat.not_lt.2 h)).trans (s.netAnswer_mac _ _ [] before _)

/-- Settles O40: the answer of ETH_RX is that of NET_DISPATCH on what follows the header. -/
theorem ethRxStripsAndDispatches : Obligations.EthRxStripsAndDispatches := by
  intro f s hfit
  have hrx := exec_ethRx f s hfit
  refine ⟨fun hshort => ?_, fun hlen => ?_, fun hlen h hreg hip hudp => ?_⟩
  · rw [State.ethAnswer_of_short hshort] at hrx
    exact hrx.next
  · have hnet := exec_netDispatch (frameSource f) (frameType f) (f.drop 14) s (by rw [List.length_drop]; omega)
    rw [State.ethAnswer_of_header hlen] at hrx
    exact alike_of_answers hrx hnet
  · rw [State.ethAnswer_of_header hlen [], State.netAnswer,
      State.dispatchAnswer_upward (key := frameType f) hreg hip hudp, srcBytes_frameSource hlen] at hrx
    exact hrx.next

/-! ### ETH_POLL and ETH_TX -/

/-- Settles O41: a polled frame is answered as ETH_RX answers it once the poll has left the block. -/
theorem ethPollTakesAtMostOneFrame : Obligations.EthPollTakesAtMostOneFrame := fun s =>
  ⟨fun h => ⟨_, exec_ethPoll_none s h⟩,
    fun f h hfit => alike_of_answers (exec_ethPoll_frame s f h hfit)
      (exec_ethRx f { s with pollAnswers := s.pollAnswers.tail, trace := s.trace ++ [.event .drvPoll] } hfit),
    fun f h hroom => ⟨_, exec_ethPoll_noRoom s f h hroom⟩⟩

/-- The driver answers with the oldest answer it holds (R146). -/
theorem State.txAnswer_of_cons {s : State} {a : Bool} {rest : List Bool} (h : s.txAnswers = a :: rest) :
    s.txAnswer = a := by
  rw [State.txAnswer, h]

/-- Settles O42: the window ETH_TX sends is the frame of R145. -/
theorem ethTxSendsOneFrame : Obligations.EthTxSendsOneFrame := by
  intro mac proto p s hfit
  obtain ⟨b, -, -, hexec⟩ := exec_ethTx mac proto p s hfit
  exact ⟨b, s.txAnswer, _, fun _ _ => State.txAnswer_of_cons, hexec⟩

end Sys2Proof.Machine
end

section
/-!
PROOFS. The statements of 42_dispatch.md: NET_REGISTER from what its command does, NET_DISPATCH and the way of a UDP datagram
through IP_RX from what the receive units answer (Laws/Outcome.lean), and the round trip from the bytes that pass between
the commands.
-/
namespace Sys2Proof.Machine

/-! ### NET_REGISTER -/

/-- Settles O25: a registration either finds the table full or inserts the key. -/
theorem netRegisterWritesTheTable : Obligations.NetRegisterWritesTheTable := fun key hnd s =>
  ⟨s.draws, exec_netRegister_full key hnd s, fun hroom =>
    ⟨s.dispatch.insert key hnd, fun k => Table.lookup_insert s.dispatch key k hnd, exec_netRegister key hnd s hroom⟩⟩

/-! ### NET_DISPATCH -/

/-- The six bytes of a MAC source in wire order (R158). -/
theorem take_srcBytes_mac (a : MacAddr) :
    (Source.mac a).srcBytes.take (Source.mac a).width.toNat = bytesOf 6 a.toNat :=
  List.take_of_length_le (by simp [Source.srcBytes, Source.width])

/-- The four bytes of an IPv4 source in wire order: the two zeros behind it are cut off (R106, R158). -/
theorem take_srcBytes_ip (a : IpAddr) :
    (Source.ip a).srcBytes.take (Source.ip a).width.toNat = bytesOf 4 a.toNat :=
  List.take_left' (by simp [Source.width])

section
variable {s : State} {key : Half} {ip : Except Refusal Answer} {before d : Bytes}

/-- A key without an entry (R155). -/
theorem State.dispatchAnswer_unknown (hreg : s.dispatch.lookup key = none) (src : Source) :
    s.dispatchAnswer ip src key before d = .ok (some (.drop .noHandler), []) := by
  unfold State.dispatchAnswer
  rw [hreg]

/-- `H_IP_RX` with a MAC source runs the validator (R154, R156). -/
theorem State.dispatchAnswer_ipRx (hreg : s.dispatch.lookup key = some Config.hIpRx) (a : MacAddr) :
    s.dispatchAnswer ip (.mac a) key before d = ip := by
  rw [State.dispatchAnswer, hreg]
  exact if_pos rfl

/-- `H_IP_RX` with an IPv4 source (R157). -/
theorem State.dispatchAnswer_ipRx_wrongSource (hreg : s.dispatch.lookup key = some Config.hIpRx) (a : IpAddr) :
    s.dispatchAnswer ip (.ip a) key before d = .error .wrongSource := by
  rw [State.dispatchAnswer, hreg]
  exact if_pos rfl

/-- `H_UDP_RX` with an IPv4 source runs the UDP unit (R154, R156). -/
theorem State.dispatchAnswer_udpRx (hreg : s.dispatch.lookup key = some Config.hUdpRx) (a : IpAddr) :
    s.dispatchAnswer ip (.ip a) key before d = .ok (s.udpAnswer a before d) := by
  rw [State.dispatchAnswer, hreg]
  exact (if_neg (by decide)).trans (if_pos rfl)

/-- `H_UDP_RX` with a MAC source (R157). -/
theorem State.dispatchAnswer_udpRx_wrongSource (hreg : s.dispatch.lookup key = some Config.hUdpRx) (a : MacAddr) :
    s.dispatchAnswer ip (.mac a) key before d = .error .wrongSource := by
  rw [State.dispatchAnswer, hreg]
  exact (if_neg (by decide)).trans (if_pos rfl)

end

/-- Settles O38: what NET_DISPATCH answers without the two units of the block. -/
theorem netDispatchDropsOrHandsUpward : Obligations.NetDispatchDropsOrHandsUpward := by
  intro src key p s hfit
  have hrun := exec_netDispatch src key p s hfit
  rw [State.netAnswer] at hrun
  refine ⟨fun hnone => ?_, fun h hreg hip hudp => ?_⟩
  · rw [State.dispatchAnswer_unknown hnone] at hrun
    exact hrun.next
  · rw [State.dispatchAnswer_upward hreg hip hudp] at hrun
    cases src with
    | mac a => exact (take_srcBytes_mac a ▸ hrun).next
    | ip a => exact (take_srcBytes_ip a ▸ hrun).next

/-- Settles O39: a command and the unit it runs give one answer, and the wrong kind of source gives none. -/
theorem netDispatchRunsTheUnitOrRefuses : Obligations.NetDispatchRunsTheUnitOrRefuses := by
  intro key p s hfit
  have hrun (src : Source) := exec_netDispatch src key p s hfit
  simp only [State.netAnswer] at hrun
  refine ⟨fun hreg a => ?_, fun hreg a => ?_, fun hreg a => ?_, fun hreg a => ?_⟩
  · exact alike_of_answers (State.dispatchAnswer_ipRx hreg a ▸ hrun (.mac a)) (exec_ipRx a p s hfit)
  · exact alike_of_answers (State.dispatchAnswer_udpRx hreg a ▸ hrun (.ip a)) (exec_udpRx a p s hfit)
  · have hip := hrun (.ip a)
    rw [State.dispatchAnswer_ipRx_wrongSource hreg] at hip
    exact hip
  · have hmac := hrun (.mac a)
    rw [State.dispatchAnswer_udpRx_wrongSource hreg] at hmac
    exact hmac

/-! ### A UDP datagram at IP_RX -/

/-- A datagram that fails a check of UDP_RX (R186 to R188). -/
theorem State.udpAnswer_of_failed {s : State} {src : IpAddr} {d : Bytes} {r : DropReason}
    (h : Wire.udpGate src s.ifIp d = some r) (before : Bytes) :
    s.udpAnswer src before d = (some (.drop r), []) := by
  rw [State.udpAnswer, h]

/-- A datagram that passes them, to a closed port (R190). -/
theorem State.udpAnswer_of_closed {s : State} {src : IpAddr} {d : Bytes} (h : Wire.udpGate src s.ifIp d = none)
    (hport : s.ports.lookup (BitVec.ofNat 16 (beAt d 2 2)) = none) (before : Bytes) :
    s.udpAnswer src before d =
      (some (.notify .portUnreach), [.icmpUnreach (before ++ d) src .portUnreachable]) := by
  rw [State.udpAnswer, h]
  simp only [hport]

/-- A datagram that passes them, to an open port (R189). -/
theorem State.udpAnswer_of_open {s : State} {src : IpAddr} {d : Bytes} {h : Half}
    (hgate : Wire.udpGate src s.ifIp d = none)
    (hport : s.ports.lookup (BitVec.ofNat 16 (beAt d 2 2)) = some h) (before : Bytes) :
    s.udpAnswer src before d =
      (none, [.handler h (Wire.udpPayload d) (BitVec.ofNat 16 (beAt d 4 2 - 8)) src (BitVec.ofNat 16 (beAt d 0 2))]) := by
  rw [State.udpAnswer, hgate]
  simp only [hport]

/-- A valid datagram with protocol 17 is dispatched under 17 (R165, R167). -/
theorem State.ipAnswer_of_udp {s : State} {d : Bytes} (hgate : Wire.ipGate s.ifIp d = none) (hproto : beAt d 9 1 = 17) :
    s.ipAnswer d = s.dispatchAnswer (.error .wrongSource) (.ip (BitVec.ofNat 32 (beAt d 12 4))) 17#16 (d.take 20)
      ((Wire.ipTrim d).drop 20) := by
  rw [State.ipAnswer, hgate]
  exact if_pos hproto

/-- One Buffer for a command's answer, whichever it turns out to be: it still holds the payload (R163, R191). -/
theorem Answers.holdsPayload {s : State} {p : Bytes} {o : Host.Outcome State Fault Refusal} {x : Except Refusal Answer}
    (h : Answers s p o x) :
    ∃ (b : Buffer) (n : Nat), b.bytesFrom 42 p.length = p ∧
      ∀ early es, x = .ok (early, es) → o = .next (s.after early 0#16 es b n) := by
  cases x with
  | error x => exact ⟨Buffer.loaded 0 p, 0, Buffer.bytesFrom_loaded 0 p, nofun⟩
  | ok a =>
    obtain ⟨b, hb, hnext⟩ := h
    refine ⟨b, s.draws + 1, ?_, ?_⟩
    · exact (Buffer.bytesFrom_congr fun y _ _ => hb y).trans (Buffer.bytesFrom_loaded s.draws p)
    · rintro early es ⟨⟩
      exact hnext

/-- Settles O45: IP_RX answers as UDP_RX does of the payload, and UDP_RX answers with the handler's event. -/
theorem ipRxDeliversUdp : Obligations.IpRxDeliversUdp := by
  rintro mac d u s h hfit hgate hproto hreg rfl hudp hport
  obtain ⟨b, n, hb, hnext⟩ := (exec_ipRx mac d s hfit).holdsPayload
  refine ⟨b, n, hb, hnext _ _ ?_⟩
  rw [State.ipAnswer_of_udp hgate hproto, State.dispatchAnswer_udpRx hreg]
  exact congrArg Except.ok (State.udpAnswer_of_open hudp hport _)

/-- Settles O46: each end is an answer of the dispatch under 17 or of UDP_RX. -/
theorem ipRxOtherTransportEnds : Obligations.IpRxOtherTransportEnds := by
  rintro mac d u s src hfit hgate hproto rfl rfl
  obtain ⟨b, n, hb, hnext⟩ := (exec_ipRx mac d s hfit).holdsPayload
  rw [State.ipAnswer_of_udp hgate hproto] at hnext
  refine ⟨b, n, hb, fun hnone => ?_, fun h hreg hip hudp => ?_, fun hreg r hr => ?_, fun hreg hudp hport => ?_⟩
  · exact hnext _ _ (State.dispatchAnswer_unknown hnone _)
  · refine hnext _ _ ?_
    rw [State.dispatchAnswer_upward hreg hip hudp, take_srcBytes_ip]
    rfl
  · refine hnext _ _ ?_
    rw [State.dispatchAnswer_udpRx hreg]
    exact congrArg Except.ok (State.udpAnswer_of_failed hr _)
  · refine hnext _ _ ?_
    rw [State.dispatchAnswer_udpRx hreg]
    exact congrArg Except.ok (State.udpAnswer_of_closed hudp hport _)

end Sys2Proof.Machine

namespace Sys2Proof.Wire
open Sys2Proof.Machine

/-! ### From one engine to another -/

@[simp] theorem length_datagram (ttl : Byte) (src dst : IpAddr) (proto : Byte) (ident off : Half) (mf : Bool) (p : Bytes) :
    (datagram ttl src dst proto ident off mf p).length = 20 + p.length := by
  simp [datagram]

/-- A payload that fits one fragment is sent as one datagram, which is no fragment (R176, R179). -/
theorem fragments_of_fits {maxp : Nat} (ttl : Byte) (src dst : IpAddr) (proto : Byte) (ident : Half) {p : Bytes}
    (hm : 0 < maxp) (h : p.length ≤ maxp) :
    fragments maxp ttl src dst proto ident p = [datagram ttl src dst proto ident 0#16 false p] := by
  have hcount := fragmentCount_eq_one hm h
  have hwhole : fragmentPayload maxp p 0 = p := by
    rw [fragmentPayload, Nat.zero_mul, List.drop_zero, List.take_of_length_le h]
  rw [fragments, hcount, List.range_one, List.map_singleton, fragment, hcount, hwhole]
  simp

@[simp] theorem length_ethFrame (dst src : MacAddr) (proto : Half) (p : Bytes) :
    (ethFrame dst src proto p).length = 14 + max 46 p.length := by
  simp only [ethFrame, List.length_append, length_ethHeader, length_zeros]
  omega

/-- What follows a frame's header: the payload and the padding (R145, R147). -/
theorem drop_ethFrame (dst src : MacAddr) (proto : Half) (p : Bytes) :
    (ethFrame dst src proto p).drop 14 = p ++ zeros (46 - p.length) := by
  rw [ethFrame, List.append_assoc]
  exact List.drop_left' (length_ethHeader dst src proto)

/-- The EtherType of a frame (R91). -/
theorem frameType_ethFrame (dst src : MacAddr) (proto : Half) (p : Bytes) :
    frameType (ethFrame dst src proto p) = proto :=
  Laws.Descriptor.ofNat_beNat_bytesOf 2 proto rfl

end Sys2Proof.Wire

namespace Sys2Proof.Machine

/-- A built UDP datagram in a built IPv4 datagram, at the interface both are addressed to: the port's handler gets its
payload, whatever padding follows (R165, R167, R189). -/
theorem State.ipAnswer_of_udpDatagram {r : State} {src : IpAddr} {sport dport h : Half} {p : Bytes}
    (hreg : r.dispatch.lookup 17#16 = some Config.hUdpRx) (hport : r.ports.lookup dport = some h)
    (hp : p.length ≤ 65507) (ttl : Byte) (ident off : Half) (mf : Bool) (pad : Bytes) :
    r.ipAnswer (Wire.datagram ttl src r.ifIp 17#8 ident off mf (Wire.udpDatagram src r.ifIp sport dport p) ++ pad) =
      .ok (none, [.handler h p (BitVec.ofNat 16 p.length) src sport]) := by
  have hpass := Wire.passes_datagram ttl src r.ifIp 17#8 ident off mf (Wire.udpDatagram src r.ifIp sport dport p) pad
    (by rw [Wire.length_udpDatagram]; omega)
  have hread := Wire.udpReads src r.ifIp sport dport p hp
  have hopen : r.ports.lookup (BitVec.ofNat 16 (beAt (Wire.udpDatagram src r.ifIp sport dport p) 2 2)) = some h := by
    rw [hread.dport, BitVec.ofNat_toNat, BitVec.setWidth_eq, hport]
  rw [State.ipAnswer_of_passes_udp hpass, Wire.drop_datagram, State.dispatchAnswer_udpRx hreg,
    State.udpAnswer_of_open hread.gate hopen, hread.payload, hread.len, hread.sport, Nat.add_sub_cancel_left,
    BitVec.ofNat_toNat, BitVec.setWidth_eq]

/-- ETH_RX of a built frame whose EtherType is registered to the IPv4 validator (R141, R156). -/
theorem State.ethAnswer_of_ipFrame {r : State} {proto : Half} (hreg : r.dispatch.lookup proto = some Config.hIpRx)
    (dst src : MacAddr) (p : Bytes) :
    r.ethAnswer (Wire.ethFrame dst src proto p) = r.ipAnswer (p ++ zeros (46 - p.length)) := by
  rw [State.ethAnswer_of_header (by rw [Wire.length_ethFrame]; omega) [], Wire.frameType_ethFrame, Wire.drop_ethFrame,
    State.netAnswer, frameSource, State.dispatchAnswer_ipRx hreg]

/-- An early end and the value 0 both give RESULT 0 (R24). -/
theorem resultOf_zero (e : Option EarlyEnd) : resultOf e 0#16 = 0#16 := by
  cases e <;> rfl

/-- UDP_TX of a payload whose datagram fits one fragment (R176, R193). -/
theorem exec_udpTx_oneDatagram (ip : IpAddr) (sport dport : Half) {p : Bytes} {s : State} (hlegal : s.configLegal = true)
    (hmtu : 28 + p.length ≤ s.mtu.toNat) (hfit : 70 + p.length ≤ s.caps.buf) :
    ∃ s1 : State, exec (.udpTx ip sport dport p) s = .next s1 ∧
      s1.trace = s.trace ++ [.event (.arp (Wire.datagram s.ipTtlDefault s.ifIp ip 17#8 s.ipId 0#16 false
        (Wire.udpDatagram s.ifIp ip sport dport p)) ip), .response 0#8 0#16] := by
  obtain ⟨hm, h8, -, -, -⟩ := s.configLegal_iff.1 hlegal
  have hmax := s.mtu.isLt
  obtain ⟨b, c, -, -, -, hexec⟩ := exec_udpTx ip sport dport p s hm h8 (by omega) (by omega) (by omega)
  have hone := Wire.fragments_of_fits s.ipTtlDefault s.ifIp ip 17#8 s.ipId (maxp := s.mtu.toNat - 20)
    (p := Wire.udpDatagram s.ifIp ip sport dport p) (by omega) (by rw [Wire.length_udpDatagram]; omega)
  rw [hone] at hexec
  exact ⟨_, hexec, by simp [State.after, statusOf, resultOf]⟩

/-- Settles O59: UDP_TX emits one datagram, ETH_TX puts it into a frame, and ETH_RX answers as IP_RX does of the padded
datagram. -/
theorem wireRoundTrip : Obligations.WireRoundTrip := by
  intro sport dport h mac p s r hlegal hmtu hroom hminFrame hframe hregIp hregUdp hport
  obtain ⟨-, -, -, -, hbuf⟩ := s.configLegal_iff.1 hlegal
  have hmax := s.mtu.isLt
  obtain ⟨s1, hudp, htrace⟩ := exec_udpTx_oneDatagram r.ifIp sport dport hlegal hmtu hroom
  have hanswer := State.ipAnswer_of_udpDatagram (src := s.ifIp) (sport := sport) (p := p) hregUdp hport (by omega)
    s.ipTtlDefault s.ipId 0#16 false
  have hlen := Wire.length_datagram s.ipTtlDefault s.ifIp r.ifIp 17#8 s.ipId 0#16 false
    (Wire.udpDatagram s.ifIp r.ifIp sport dport p)
  rw [Wire.length_udpDatagram] at hlen
  generalize Wire.datagram s.ipTtlDefault s.ifIp r.ifIp 17#8 s.ipId 0#16 false
    (Wire.udpDatagram s.ifIp r.ifIp sport dport p) = d at htrace hanswer hlen
  obtain ⟨hcaps, -⟩ := exec_fixed hudp
  obtain ⟨b1, -, -, heth⟩ := exec_ethTx mac 0x0800#16 d s1 (by rw [hcaps]; omega)
  have hrx := exec_ethRx (Wire.ethFrame mac s1.ifMac 0x0800#16 d) r (by rw [Wire.length_ethFrame]; omega)
  rw [State.ethAnswer_of_ipFrame hregIp, hanswer] at hrx
  obtain ⟨b, n, hdeliver⟩ := hrx.next
  exact ⟨d, _, s1, _, b, n, hudp, htrace, heth, by simp [State.after, resultOf_zero], hdeliver⟩

end Sys2Proof.Machine
end

section
/-!
PROOFS. The statements of 43_ipv4_rx.md: IP_RX from what the receive units answer (Laws/Outcome.lean), and which bytes each
unit writes, from what the units do (Laws/Transmit.lean, Laws/Writes.lean) and where a primitive finds no room.
-/
namespace Sys2Proof.Machine

/-! ### IP_RX -/

/-- A datagram that fails one of the five checks (R160 to R164). -/
theorem State.ipAnswer_of_failed {s : State} {d : Bytes} {r : DropReason} (h : Wire.ipGate s.ifIp d = some r) :
    s.ipAnswer d = .ok (some (.drop r), []) := by
  rw [State.ipAnswer, h]

/-- A valid datagram with another protocol than 17 (R165, R167). -/
theorem State.ipAnswer_of_otherProtocol {s : State} {d : Bytes} (hgate : Wire.ipGate s.ifIp d = none)
    (hproto : beAt d 9 1 ≠ 17) :
    s.ipAnswer d = .ok (some (.notify .protoUnreach),
      [.icmpUnreach (Wire.ipTrim d) (BitVec.ofNat 32 (beAt d 12 4)) .protocolUnreachable]) := by
  rw [State.ipAnswer, hgate]
  exact if_neg hproto

/-- Settles O43: IP_RX answers with the drop that the gate names, and BUF still holds the payload. -/
theorem ipRxDropsAtTheFirstFailedCheck : Obligations.IpRxDropsAtTheFirstFailedCheck := by
  intro mac d s r hfit hgate
  obtain ⟨b, n, hb, hnext⟩ := (exec_ipRx mac d s hfit).holdsPayload
  exact ⟨b, n, hb, hnext _ _ (State.ipAnswer_of_failed hgate)⟩

/-- Settles O44: the notification shows the datagram that the trim leaves. -/
theorem ipRxNotifiesOtherProtocols : Obligations.IpRxNotifiesOtherProtocols := by
  intro mac d s hfit hgate hproto
  obtain ⟨b, n, hb, hnext⟩ := (exec_ipRx mac d s hfit).holdsPayload
  exact ⟨b, n, hb, hnext _ _ (State.ipAnswer_of_otherProtocol hgate hproto)⟩

/-! ### A header or a padding that finds no room -/

/-- `buf_add_header` with too little headroom in front of the window ends the operation (R61, R64). -/
theorem State.addHeader_of_lt {w : BufId} {n : Nat} {s : State} (h : (s.buffer w).start < n) :
    s.onBuffer w (Buffer.addHeader n) = .fail .buf s :=
  State.onBuffer_none (if_neg (Nat.not_le.2 h))

/-- `buf_add_padding` with too little room behind the window ends the operation (R61, R65). -/
theorem State.addPadding_of_lt {w : BufId} {cap n : Nat} {s : State}
    (h : cap < (s.buffer w).start + (s.buffer w).len + n) :
    s.onBuffer w (Buffer.addPadding cap n) = .fail .buf s :=
  State.onBuffer_none (if_neg (Nat.not_le.2 h))

/-- IP_FRAG_EMIT without the headroom for its header (R61, R170). -/
theorem ipFragEmit_noHeadroom {w : BufId} {s : State} (hop : fragOperandError s.latches.off (s.buffer w).len = none)
    (hs : (s.buffer w).start < 20) : ipFragEmit w s = .fail .buf s := by
  rw [ipFragEmit, hop, State.addHeader_of_lt hs]
  rfl

/-- UDP_TX without the headroom for its header (R61, R193). -/
theorem udpTx_noHeadroom {s : State} (hop : udpTxOperandError s.buf.len = none) (hs : s.buf.start < 8) :
    udpTx s = .fail .buf s := by
  rw [udpTx, hop, State.addHeader_of_lt (w := .buf) hs]
  rfl

/-! ### Which bytes the transmit units write -/

/-- Whatever IP_FRAG_EMIT ends with, it stored only in the 20 bytes before its window (R170, R182). -/
theorem ipFragEmit_bytes {w : BufId} {s t : State} {e : Option EarlyEnd} (h : ipFragEmit w s = .ended e t) {a : Nat}
    (ha : a < (s.buffer w).start - 20 ∨ (s.buffer w).start ≤ a) : (t.buffer w).byteAt a = (s.buffer w).byteAt a := by
  cases hop : fragOperandError s.latches.off (s.buffer w).len with
  | some f =>
    rw [ipFragEmit, hop] at h
    cases h
    rfl
  | none =>
    by_cases hs : (s.buffer w).start < 20
    · rw [ipFragEmit_noHeadroom hop hs] at h
      cases h
      rfl
    · obtain ⟨c, -, -, -, -, hbytes, hrun⟩ := ipFragEmit_spec w s hop (Nat.not_lt.1 hs)
      rw [hrun] at h
      cases h
      rw [State.buffer_emit, State.buffer_setBuffer]
      exact hbytes a (by omega)

/-- IP_FRAG_EMIT leaves the other Buffer alone (R182). -/
theorem ipFragEmit_other {w v : BufId} {s t : State} {e : Option EarlyEnd} (h : ipFragEmit w s = .ended e t)
    (hv : v ≠ w) : t.buffer v = s.buffer v :=
  (keeps_ipFragEmit (move_other w) rfl s).ended e t h v hv

/-- Whatever UDP_TX ends with, it stored only in the 8 bytes before its window: the IP_TX it calls leaves BUF (R182, R193). -/
theorem udpTx_bytes {s t : State} {e : Option EarlyEnd} (h : udpTx s = .ended e t) {a : Nat}
    (ha : a < s.buf.start - 8 ∨ s.buf.start ≤ a) : t.buf.byteAt a = s.buf.byteAt a := by
  by_cases hlong : 65527 < s.buf.len
  · have hop : udpTxOperandError s.buf.len = some .tooLong := if_pos (by omega)
    rw [udpTx, hop] at h
    cases h
    rfl
  by_cases hs : s.buf.start < 8
  · rw [udpTx_noHeadroom (if_neg (by omega)) hs] at h
    cases h
    rfl
  obtain ⟨c, -, -, -, -, hbytes, hrun⟩ := udpTx_spec s (Nat.not_lt.1 hlong) (Nat.not_lt.1 hs)
  rw [hrun] at h
  rw [ipTx_buf h]
  exact hbytes a (by omega)

/-- Whatever ETH_TX ends with, it stored only in the 14 bytes before its window and in the padding (R145, R147). -/
theorem ethTx_bytes {s t : State} {e : Option EarlyEnd} (h : ethTx s = .ended e t) {a : Nat}
    (ha : a < s.buf.start - 14 ∨ (s.buf.start ≤ a ∧ a < s.buf.start + s.buf.len) ∨ s.buf.start + max 46 s.buf.len ≤ a) :
    t.buf.byteAt a = s.buf.byteAt a := by
  by_cases hroom : s.buf.len < 46 → s.buf.start + 46 ≤ s.caps.buf
  · by_cases hs : s.buf.start < 14
    · obtain ⟨c, hstart, -, -, -, hbytes, hpad⟩ := padFrame_spec s hroom
      rw [ethTx, hpad, Run.done_andThen,
        State.addHeader_of_lt (w := .buf) (show c.start < 14 from hstart.trans_lt hs)] at h
      cases h
      exact hbytes a (by omega)
    · obtain ⟨c, -, -, -, -, hbytes, hrun⟩ := ethTx_spec s (Nat.not_lt.1 hs) hroom
      rw [hrun] at h
      cases h
      rw [State.linkAnswered_buf, State.emit_buf, State.setBuffer_buf_buf]
      exact hbytes a (by omega) (by omega)
  · obtain ⟨hshort, hcap⟩ := Classical.not_imp.1 hroom
    rw [ethTx, padFrame, if_pos hshort,
      State.addPadding_of_lt (w := .buf) (by simp only [State.buffer_buf]; omega)] at h
    cases h
    rfl

/-- Taking the driver's answer changes no Buffer (R146). -/
theorem State.buffer_linkAnswered (w : BufId) (s : State) : s.linkAnswered.buffer w = s.buffer w := by
  cases w with
  | buf => exact s.linkAnswered_buf
  | fbuf => exact s.linkAnswered_fbuf

/-- ETH_TX leaves FBUF alone (R34). -/
theorem ethTx_fbuf {s t : State} {e : Option EarlyEnd} (h : ethTx s = .ended e t) : t.fbuf = s.fbuf :=
  (keeps_ethTx (move_other .buf) rfl (fun u v _ => u.buffer_linkAnswered v) s).ended e t h .fbuf (by decide)

/-- Settles O23: the receive units restore what they zero, and each transmit unit stores its header and padding only. -/
theorem unitsKeepBytes : Obligations.UnitsKeepBytes := by
  intro s t e
  refine ⟨?_, fun w h => ⟨fun a ha => ipFragEmit_bytes h ha, ?_, ?_⟩, ipTx_buf, fun h a ha => udpTx_bytes h ha,
    fun h => ⟨ethTx_fbuf h, fun a ha => ethTx_bytes h ha⟩⟩
  · rintro (h | h | h | h)
    · exact udpRx_bytes s e t h
    · exact ipRx_bytes s e t h
    · exact ethRx_bytes s e t h
    · exact dispatchTo_bytes ipRx_bytes s e t h
  · rintro rfl
    exact ipFragEmit_other (v := .fbuf) h (by decide)
  · rintro rfl
    exact ipFragEmit_other (v := .buf) h (by decide)

end Sys2Proof.Machine
end

section
/-!
PROOFS. The statements of 44_ipv4_tx.md: IP_FRAG_EMIT and IP_TX from what their commands do (Laws/Exec.lean), and the
reassembly from the bytes of the datagrams (Laws/Wire.lean).
-/
namespace Sys2Proof.Machine

/-! ### IP_FRAG_EMIT -/

/-- Settles O47: the datagram in the event is the payload behind the header of R172, whose checksum is taken while its
field is zero. -/
theorem ipFragEmitBuildsTheDatagram : Obligations.IpFragEmitBuildsTheDatagram := by
  intro ip proto ident off mf p s hoff hp hfit
  obtain ⟨b, -, -, hwindow, hexec⟩ := exec_ipFragEmit ip proto ident off mf p s hoff hp hfit
  refine ⟨Wire.Ipv4.header ⟨s.ipTtlDefault, s.ifIp, ip, proto, ident, off, mf, p.length⟩, b, _, ?_, rfl, hwindow, hexec⟩
  rw [Wire.Ipv4.header, Wire.zeroField_headerWith]
  rfl

/-- An offset that is not a multiple of 8, whatever the length (R171, R217). -/
theorem fragOperandError_badOperand {off : Half} (h : off.toNat % 8 ≠ 0) (n : Nat) :
    fragOperandError off n = some .badOperand := if_pos h

/-- A payload over 65515 bytes at an allowed offset (R171). -/
theorem fragOperandError_tooLong {off : Half} {n : Nat} (hoff : off.toNat % 8 = 0) (h : 65515 < n) :
    fragOperandError off n = some .tooLong :=
  (if_neg (not_not.2 hoff)).trans (if_pos (by omega))

/-- Settles O48: the operand check of R171 comes before the payload is loaded. -/
theorem ipFragEmitOperandErrors : Obligations.IpFragEmitOperandErrors := fun ip proto ident off mf p s =>
  ⟨fun hoff => ⟨_, exec_ipFragEmit_refused ip proto ident off mf p s (fragOperandError_badOperand hoff _)⟩,
    fun hoff hlong => ⟨_, exec_ipFragEmit_refused ip proto ident off mf p s (fragOperandError_tooLong hoff hlong)⟩⟩

/-! ### IP_TX -/

/-- Settles O49: the loop of IP_TX emits the fragments from FBUF, and BUF holds the payload as it was loaded. -/
theorem ipTxEmitsTheFragments : Obligations.IpTxEmitsTheFragments := by
  intro ip proto p s hlegal hp hfit
  obtain ⟨hm, h8, -, -, -⟩ := s.configLegal_iff.1 hlegal
  obtain ⟨c, hexec⟩ := exec_ipTx ip proto p s hm h8 hp hfit
  exact ⟨Buffer.loaded s.draws p, c, _, Buffer.window_loaded s.draws p, hexec⟩

/-- Settles O50: the operand check of R177 comes before the payload is loaded. -/
theorem ipTxRefusesLongPayloads : Obligations.IpTxRefusesLongPayloads := fun ip proto p s hlong =>
  ⟨s.draws, exec_ipTx_tooLong ip proto p s hlong⟩

end Sys2Proof.Machine

namespace Sys2Proof.Wire
open Sys2Proof.Machine

/-! ### Fields read from a fragment -/

/-- What `Wire.fragment` says in its header (R172, R176). -/
def fragmentHeader (maxp : Nat) (ttl : Byte) (src dst : IpAddr) (proto : Byte) (ident : Half) (p : Bytes) (j : Nat) :
    Ipv4 where
  ttl := ttl
  src := src
  dst := dst
  proto := proto
  ident := ident
  off := BitVec.ofNat 16 (j * maxp)
  mf := decide (j + 1 < fragmentCount maxp p.length)
  len := (fragmentPayload maxp p j).length

/-- The flags and the offset share one field without overlap (R92, R94). -/
theorem flags_split (mf : Bool) (off : Half) :
    (mf.toNat * 0x2000 + off.toNat / 8) % 65536 / 8192 = mf.toNat ∧
      (mf.toNat * 0x2000 + off.toNat / 8) % 65536 % 8192 = off.toNat / 8 := by
  have hoff := off.isLt
  have hmf := mf.toNat_le
  omega

theorem length_fragmentPayload (maxp : Nat) (p : Bytes) (j : Nat) :
    (fragmentPayload maxp p j).length = min maxp (p.length - j * maxp) := by
  simp [fragmentPayload]

/-- No fragment begins beyond the end of the payload (R176). -/
theorem offset_le_of_lt_fragmentCount {maxp n j : Nat} (hm : 0 < maxp) (hj : j < fragmentCount maxp n) :
    j * maxp ≤ n := by
  rcases Nat.eq_zero_or_pos j with rfl | hpos
  · omega
  · exact ((lt_fragmentCount hm hpos).1 hj).le

/-- The datagrams of one IP_TX by their place (R176). -/
theorem getElem?_fragments {maxp : Nat} {ttl : Byte} {src dst : IpAddr} {proto : Byte} {ident : Half} {p d : Bytes}
    {j : Nat} (h : (fragments maxp ttl src dst proto ident p)[j]? = some d) :
    j < fragmentCount maxp p.length ∧ d = fragment maxp ttl src dst proto ident p j := by
  rw [fragments, List.getElem?_map, Option.map_eq_some_iff] at h
  obtain ⟨i, hi, rfl⟩ := h
  obtain ⟨hj, rfl⟩ := List.getElem?_eq_some_iff.1 hi
  rw [List.getElem_range]
  exact ⟨by simpa using hj, rfl⟩

section
variable {maxp j : Nat} {ttl : Byte} {src dst : IpAddr} {proto : Byte} {ident : Half} {p : Bytes}

/-- Every header field of a fragment, read from its bytes (R92). -/
theorem fragmentReads : HeaderReads (fragmentHeader maxp ttl src dst proto ident p j)
    (csum16 ((fragmentHeader maxp ttl src dst proto ident p j).headerWith 0)) (fragmentPayload maxp p j) :=
  headerReads _ _ _

theorem length_fragment :
    (fragment maxp ttl src dst proto ident p j).length = 20 + min maxp (p.length - j * maxp) := by
  rw [fragment, length_datagram, length_fragmentPayload]

/-- Every fragment but the last is full (R176). -/
theorem length_fragment_of_more (hm : 0 < maxp) (hj : j + 1 < fragmentCount maxp p.length) :
    (fragment maxp ttl src dst proto ident p j).length = 20 + maxp := by
  have hmore := (lt_fragmentCount hm (Nat.le_add_left 1 j)).1 hj
  rw [Nat.add_mul, Nat.one_mul] at hmore
  rw [length_fragment]
  omega

/-- The total-length field is the datagram's length (R92, R176). -/
theorem beAt_fragment_totalLength (hp : p.length ≤ 65515) :
    beAt (fragment maxp ttl src dst proto ident p j) 2 2 = (fragment maxp ttl src dst proto ident p j).length := by
  have hfield : beAt (fragment maxp ttl src dst proto ident p j) 2 2 = _ := fragmentReads.len
  have hlen : (fragmentHeader maxp ttl src dst proto ident p j).len = min maxp (p.length - j * maxp) :=
    length_fragmentPayload maxp p j
  rw [hfield, hlen, length_fragment]
  omega

/-- The offset field counts the bytes before the fragment in units of 8 (R94, R176, R180). -/
theorem beAt_fragment_offset (h8 : maxp % 8 = 0) (hoff : j * maxp < 65536) :
    8 * (beAt (fragment maxp ttl src dst proto ident p j) 6 2 % 8192) = j * maxp := by
  have hflags : beAt (fragment maxp ttl src dst proto ident p j) 6 2 = _ := fragmentReads.flags
  have hval : (fragmentHeader maxp ttl src dst proto ident p j).off.toNat = j * maxp :=
    (BitVec.toNat_ofNat _ _).trans (Nat.mod_eq_of_lt hoff)
  rw [hflags, (flags_split _ _).2, hval]
  exact Nat.mul_div_cancel' ((Nat.dvd_of_mod_eq_zero h8).mul_left j)

/-- The reserved flag and DF are 0, and more-fragments is set on all but the last (R93, R172, R176). -/
theorem beAt_fragment_flags :
    beAt (fragment maxp ttl src dst proto ident p j) 6 2 / 8192 =
      if j + 1 < fragmentCount maxp p.length then 1 else 0 := by
  have hflags : beAt (fragment maxp ttl src dst proto ident p j) 6 2 = _ := fragmentReads.flags
  rw [hflags, (flags_split _ _).1]
  by_cases hmore : j + 1 < fragmentCount maxp p.length <;> simp [fragmentHeader, hmore]

end

end Sys2Proof.Wire

namespace Sys2Proof.Machine

/-- Settles O51: the emitted datagrams are `Wire.fragments`, and each field is read from a fragment's bytes. -/
theorem fragmentsReassembleToThePayload : Obligations.FragmentsReassembleToThePayload := by
  intro ip proto p s t hlegal hp hfit ht
  obtain ⟨hm, h8, -, -, -⟩ := s.configLegal_iff.1 hlegal
  obtain ⟨c, hexec⟩ := exec_ipTx ip proto p s hm h8 hp hfit
  cases hexec.symm.trans ht
  have hpos : 0 < s.mtu.toNat - 20 := by omega
  refine ⟨Wire.fragments (s.mtu.toNat - 20) s.ipTtlDefault s.ifIp ip proto s.ipId p, ?_, Wire.length_fragments ..,
    Wire.flatten_fragments _ _ _ _ _ _ _ hpos, fun j d hd => ?_⟩
  · simp [State.after, statusOf, resultOf]
  obtain ⟨hj, rfl⟩ := Wire.getElem?_fragments hd
  have hoff := Wire.offset_le_of_lt_fragmentCount hpos hj
  have hreads := Wire.fragmentReads (maxp := s.mtu.toNat - 20) (j := j) (ttl := s.ipTtlDefault) (src := s.ifIp)
    (dst := ip) (proto := proto) (ident := s.ipId) (p := p)
  rw [Wire.length_fragments]
  refine ⟨Wire.beAt_fragment_offset h8 (by omega), Wire.beAt_fragment_flags, hreads.ident, hreads.ttl, hreads.proto,
    hreads.src, hreads.dst, Wire.beAt_fragment_totalLength hp, ?_, ?_, fun hmore => ?_⟩
  · rw [Wire.length_fragment]; omega
  · rw [Wire.length_fragment]; omega
  · rw [Wire.length_fragment_of_more hpos hmore]; omega

end Sys2Proof.Machine
end

section
/-!
PROOFS. The statements of 45_udp.md: UDP_OPEN, UDP_CLOSE and UDP_TX from what their commands do (Laws/Exec.lean), UDP_RX from
what the receive units answer (Laws/Outcome.lean), and the round trip from the bytes of the datagrams (Laws/Wire.lean).
-/
namespace Sys2Proof.Machine

/-! ### UDP_RX -/

/-- Settles O53: UDP_RX answers with the drop that the gate names, and BUF still holds the datagram. -/
theorem udpRxDropsAtTheFirstFailedCheck : Obligations.UdpRxDropsAtTheFirstFailedCheck := by
  intro ip d s r hfit hgate
  obtain ⟨b, n, hb, hnext⟩ := (exec_udpRx ip d s hfit).holdsPayload
  exact ⟨b, n, hb, hnext _ _ (congrArg Except.ok (State.udpAnswer_of_failed hgate _))⟩

/-- Settles O54: UDP_RX answers with the handler's event, and BUF still holds the datagram. -/
theorem udpRxDelivers : Obligations.UdpRxDelivers := by
  intro ip d s h hfit hgate hport
  obtain ⟨b, n, hb, hnext⟩ := (exec_udpRx ip d s hfit).holdsPayload
  exact ⟨b, n, hb, hnext _ _ (congrArg Except.ok (State.udpAnswer_of_open hgate hport _))⟩

/-- Settles O55: the notification shows the 20 bytes of headroom in front of the datagram. -/
theorem udpRxNotifiesClosedPorts : Obligations.UdpRxNotifiesClosedPorts := by
  intro ip d s hfit hgate hport
  obtain ⟨b, n, hb, hnext⟩ := (exec_udpRx ip d s hfit).holdsPayload
  exact ⟨_, b, n, Buffer.length_bytesFrom (Buffer.loaded s.draws d) 22 20, hb,
    hnext _ _ (congrArg Except.ok (State.udpAnswer_of_closed hgate hport _))⟩

/-! ### UDP_OPEN and UDP_CLOSE -/

/-- Settles O26: an open either finds the table full or inserts the port. -/
theorem udpOpenWritesTheTable : Obligations.UdpOpenWritesTheTable := fun key hnd s =>
  ⟨s.draws, exec_udpOpen_full key hnd s, fun hroom =>
    ⟨s.ports.insert key hnd, fun k => Table.lookup_insert s.ports key k hnd, exec_udpOpen key hnd s hroom⟩⟩

/-- Settles O27: a close erases the port. -/
theorem udpCloseRemovesThePort : Obligations.UdpCloseRemovesThePort := fun key s =>
  ⟨s.draws, s.ports.erase key, fun k => Table.lookup_erase s.ports key k, Table.erase_eq_self, exec_udpClose key s⟩

/-- What a close answers, and the table it leaves (R203). -/
theorem exec_udpClose_status_ports {key : Half} {s t : State} (h : exec (.udpClose key) s = .next t) :
    t.status = 0#8 ∧ t.ports = s.ports.erase key := by
  cases (exec_udpClose key s).symm.trans h
  exact ⟨rfl, rfl⟩

/-- A key with a handler has an entry. -/
theorem Table.exists_mem_of_lookup_ne_none {t : Table} {k : Half} (h : t.lookup k ≠ none) : ∃ e ∈ t, e.1 = k := by
  induction t with
  | nil => exact absurd rfl h
  | cons e t ih =>
    by_cases he : k = e.1
    · exact ⟨e, List.mem_cons_self, he.symm⟩
    · obtain ⟨e', hmem, hkey⟩ := ih (by simpa [Table.lookup, he] using h)
      exact ⟨e', List.mem_cons_of_mem _ hmem, hkey⟩

/-- Erasing a key that is there frees a place (R204). -/
theorem Table.length_erase_lt {t : Table} {k : Half} (h : t.lookup k ≠ none) : (t.erase k).length < t.length := by
  obtain ⟨e, hmem, hkey⟩ := Table.exists_mem_of_lookup_ne_none h
  exact List.length_filter_lt_length_iff_exists.2 ⟨e, hmem, by simp [hkey]⟩

/-- A close of a port that is not open only answers (R204). -/
theorem exec_udpClose_of_closed {key : Half} {s : State} (h : s.ports.lookup key = none) :
    exec (.udpClose key) s = .next (s.after none 0#16 [] s.buf s.draws) := by
  rw [exec_udpClose, Table.erase_eq_self h]
  rfl

/-- Settles O28: the table without the port maps it to nothing and, if the port was open, has a free place. -/
theorem closeIsIdempotentAndFreesAPlace : Obligations.CloseIsIdempotentAndFreesAPlace := by
  intro key s t ht
  obtain ⟨hcaps, -, hip, -, -⟩ := exec_fixed ht
  obtain ⟨hstatus, hports⟩ := exec_udpClose_status_ports ht
  have hclosed : t.ports.lookup key = none := by rw [hports, Table.lookup_erase, if_pos rfl]
  refine ⟨hstatus, fun h => hports.trans (Table.erase_eq_self h), ⟨_, exec_udpClose_of_closed hclosed⟩,
    fun ip d hfit hgate hkey => ?_, fun hs hopen key' hnd => ?_⟩
  · have hport : t.ports.lookup (BitVec.ofNat 16 (beAt d 2 2)) = none := by
      rw [hkey, BitVec.ofNat_toNat, BitVec.setWidth_eq, hclosed]
    obtain ⟨before, b, n, -, -, hnext⟩ := udpRxNotifiesClosedPorts ip d t (hcaps ▸ hfit) (hip ▸ hgate) hport
    exact ⟨before ++ d, b, n, hnext⟩
  · have hroom : t.ports.length ≠ t.caps.ports := by
      rw [hports, hcaps]
      exact ((Table.length_erase_lt hopen).trans_le hs.ports.room).ne
    exact ⟨_, exec_udpOpen key' hnd t fun hfull => hroom hfull.2, rfl,
      (Table.lookup_insert t.ports key' key' hnd).trans (if_pos rfl)⟩

end Sys2Proof.Machine

namespace Sys2Proof.Wire
open Sys2Proof.Machine

/-- The checksum of a datagram the block built is taken over the pseudo-header and that datagram with a zero field (R195). -/
theorem udpDatagram_eq_zeroField (src dst : IpAddr) (sport dport : Half) (p : Bytes) :
    udpDatagram src dst sport dport p =
      udpHeaderWith sport dport (8 + p.length) (csum16 (pseudoHeader src dst (8 + p.length) ++
        zeroField (udpDatagram src dst sport dport p) 6)) ++ p := by
  rw [zeroField_udpDatagram]
  rfl

end Sys2Proof.Wire

namespace Sys2Proof.Machine

/-! ### UDP_TX -/

/-- Settles O56: BUF holds the datagram whose fragments the IP_TX that UDP_TX calls emits, and the first one that does not
fit FBUF ends the command. -/
theorem udpTxBuildsAndSends : Obligations.UdpTxBuildsAndSends := by
  intro ip sport dport p s hlegal hp hfit
  obtain ⟨hm, h8, -, -, -⟩ := s.configLegal_iff.1 hlegal
  refine ⟨fun hfrag => ?_, fun hfrag => ?_⟩
  · obtain ⟨b, c, -, -, hwindow, hexec⟩ := exec_udpTx ip sport dport p s hm h8 hp hfit hfrag
    exact ⟨_, b, c, _, Wire.udpDatagram_eq_zeroField s.ifIp ip sport dport p, rfl, hwindow, hexec⟩
  · obtain ⟨b, hexec⟩ := exec_udpTx_noRoom ip sport dport p s hp hfit hfrag
    exact ⟨b, _, hexec⟩

/-- Settles O57: UDP_TX itself refuses over 65527 bytes, the IP_TX it calls refuses what lies between. -/
theorem udpTxRefusesLongPayloads : Obligations.UdpTxRefusesLongPayloads := by
  intro ip sport dport p s hlong hfit
  by_cases hudp : 65527 < p.length
  · exact ⟨_, _, exec_udpTx_tooLong ip sport dport p s hudp⟩
  · obtain ⟨b, hexec⟩ := exec_udpTx_ipTooLong ip sport dport p s hlong (Nat.not_lt.1 hudp) (hfit.resolve_left hudp)
    exact ⟨b, _, hexec⟩

/-! ### The round trip -/

/-- UDP_RX of a datagram built for the interface and an open port (R189, R197). -/
theorem State.udpAnswer_of_udpDatagram {r : State} {sport dport h : Half} {p : Bytes} (hp : p.length ≤ 65507)
    (hport : r.ports.lookup dport = some h) (src : IpAddr) (before : Bytes) :
    r.udpAnswer src before (Wire.udpDatagram src r.ifIp sport dport p) =
      (none, [.handler h p (BitVec.ofNat 16 p.length) src sport]) := by
  have hread := Wire.udpReads src r.ifIp sport dport p hp
  rw [State.udpAnswer_of_open (h := h) hread.gate
      (by rw [hread.dport, BitVec.ofNat_toNat, BitVec.setWidth_eq, hport]),
    hread.payload, hread.len, hread.sport, Nat.add_sub_cancel_left, BitVec.ofNat_toNat, BitVec.setWidth_eq]

/-- Settles O58: the fragments' payloads put together are the datagram UDP_TX built, and UDP_RX reads its payload back. -/
theorem udpRoundTrip : Obligations.UdpRoundTrip := by
  intro sport dport h p s r hlegal hp hfit hfrag hroom hport
  obtain ⟨hm, h8, -, -, -⟩ := s.configLegal_iff.1 hlegal
  have hpos : 0 < s.mtu.toNat - 20 := by omega
  have hlen := Wire.length_udpDatagram s.ifIp r.ifIp sport dport p
  obtain ⟨b, c, -, -, -, htx⟩ := exec_udpTx r.ifIp sport dport p s hm h8 hp hfit hfrag
  have hrx := exec_udpRx s.ifIp (Wire.udpDatagram s.ifIp r.ifIp sport dport p) r (by omega)
  rw [State.udpAnswer_of_udpDatagram hp hport] at hrx
  obtain ⟨b', n, hdeliver⟩ := hrx.next
  refine ⟨Wire.fragments (s.mtu.toNat - 20) s.ipTtlDefault s.ifIp r.ifIp 17#8 s.ipId
    (Wire.udpDatagram s.ifIp r.ifIp sport dport p), _, b', n, htx, ?_, fun hone => ?_, ?_⟩
  · simp [State.after, statusOf, resultOf]
  · rw [Wire.length_fragments]
    exact Wire.fragmentCount_eq_one hpos (by omega)
  · rw [Wire.flatten_fragments _ _ _ _ _ _ _ hpos, hdeliver]

end Sys2Proof.Machine
end

section
/-!
PROOFS. The statements of 60_exceptions.md: how commands end early, and which tables keep every command clear of the case
without a meaning. They read a command's end from its report (Laws/Report.lean), or from what a chain of calls keeps
(Laws/Frame.lean).
-/
namespace Sys2Proof.Machine

/-! ### Safe tables -/

/-- A safe frame is not dispatched under 17 (R270). -/
theorem frameType_ne_udp {f : Bytes} (h : frameSafe f) : frameType f ≠ 17#16 := by
  intro heq
  have hlt : beAt f 12 2 < 256 ^ 2 :=
    (beNat_lt _).trans_le (Nat.pow_le_pow_right (by decide) (List.length_take_le _ _))
  have hmod : beAt f 12 2 % 65536 = 17 := congrArg BitVec.toNat heq
  exact h (by omega)

section
variable {s : State} {key : Half} {ip : Except Refusal Answer}

/-- A MAC source is answered where the key does not name the UDP unit and the validator answers (R157). -/
theorem State.dispatchAnswer_mac_ok (hkey : s.dispatch.lookup key ≠ some Config.hUdpRx) (hip : ∃ a, ip = .ok a)
    (m : MacAddr) (before d : Bytes) : ∃ a, s.dispatchAnswer ip (.mac m) key before d = .ok a := by
  cases hreg : s.dispatch.lookup key with
  | none => exact ⟨_, State.dispatchAnswer_unknown hreg _⟩
  | some h =>
    by_cases h1 : h = Config.hIpRx
    · rwa [State.dispatchAnswer_ipRx (h1 ▸ hreg)]
    · exact ⟨_, State.dispatchAnswer_upward hreg h1 (fun h2 => hkey (h2 ▸ hreg)) _ _ _ _⟩

/-- An IPv4 source is answered where the key does not name the validator (R157). -/
theorem State.dispatchAnswer_ip_ok (hkey : s.dispatch.lookup key ≠ some Config.hIpRx) (a : IpAddr) (before d : Bytes) :
    ∃ r, s.dispatchAnswer ip (.ip a) key before d = .ok r := by
  cases hreg : s.dispatch.lookup key with
  | none => exact ⟨_, State.dispatchAnswer_unknown hreg _⟩
  | some h =>
    by_cases h2 : h = Config.hUdpRx
    · exact ⟨_, State.dispatchAnswer_udpRx (h2 ▸ hreg) a⟩
    · exact ⟨_, State.dispatchAnswer_upward hreg (fun h1 => hkey (h1 ▸ hreg)) h2 _ _ _ _⟩

end

/-- IP_RX hands a datagram on under 17 only, where a safe table does not lead back to IP_RX (R157, R165). -/
theorem State.BootSafe.ipAnswer_ok {s : State} (hs : s.BootSafe) (d : Bytes) : ∃ a, s.ipAnswer d = .ok a := by
  cases hgate : Wire.ipGate s.ifIp d with
  | some r => exact ⟨_, State.ipAnswer_of_failed hgate⟩
  | none =>
    by_cases hproto : beAt d 9 1 = 17
    · rw [State.ipAnswer_of_udp hgate hproto]
      exact State.dispatchAnswer_ip_ok hs.1 _ _ _
    · exact ⟨_, State.ipAnswer_of_otherProtocol hgate hproto⟩

/-- A frame whose EtherType is not 17 does not reach the UDP unit, which a safe table registers under 17 only (R270). -/
theorem State.BootSafe.ethAnswer_ok {s : State} (hs : s.BootSafe) {f : Bytes} (hf : frameSafe f) :
    ∃ a, s.ethAnswer f = .ok a := by
  by_cases hlen : f.length < 14
  · exact ⟨_, State.ethAnswer_of_short hlen⟩
  · rw [State.ethAnswer_of_header (Nat.not_lt.1 hlen) []]
    exact State.dispatchAnswer_mac_ok (fun hreg => frameType_ne_udp hf (hs.2 _ hreg)) (hs.ipAnswer_ok _) _ _ _

/-- A command whose unit answers has a report, whether or not its payload fits BUF. -/
theorem State.reading_ok {s : State} {x : Except Refusal Answer} (hx : ∃ a, x = .ok a) (p : Bytes) :
    ∃ r, s.reading p x = .ok r := by
  obtain ⟨a, rfl⟩ := hx
  unfold State.reading
  split
  · exact ⟨_, rfl⟩
  · exact ⟨_, rfl⟩

/-- With safe tables every safe command has a report. -/
theorem State.BootSafe.report_ok {s : State} (hs : s.BootSafe) {i : Instr} (hi : s.CommandSafe i) :
    ∃ r, s.report i = .ok r := by
  cases i with
  | ethRx f => exact State.reading_ok (hs.ethAnswer_ok hi) f
  | ethPoll =>
    rw [State.report]
    cases hp : s.pollAnswer with
    | none => exact ⟨_, rfl⟩
    | some f =>
      obtain ⟨a, ha⟩ := hs.ethAnswer_ok (hi f hp)
      simp only [ha]
      split
      · exact ⟨_, rfl⟩
      · exact ⟨_, rfl⟩
  | netDispatch src proto p =>
    cases src with
    | mac m => exact State.reading_ok (State.dispatchAnswer_mac_ok hi (hs.ipAnswer_ok p) m _ _) p
    | ip a => exact State.reading_ok (State.dispatchAnswer_ip_ok hi a _ _) p
  | ipRx mac p => exact State.reading_ok (hs.ipAnswer_ok p) p
  | udpRx ip p => exact State.reading_ok ⟨_, rfl⟩ p
  | ipFragEmit ip proto ident off mf p =>
    rw [State.report]
    split
    · exact ⟨_, rfl⟩
    · exact State.reading_ok ⟨_, rfl⟩ p
  | udpClose key => exact ⟨_, rfl⟩
  | _ =>
    -- The others do not reach a handler: every branch of their reports is an end.
    rw [State.report]
    repeat' split
    all_goals exact ⟨_, rfl⟩

/-- Settles O36: with safe tables a safe command has a report, and a command does what its report says. -/
theorem safeTablesNeverStop : Obligations.SafeTablesNeverStop := by
  intro i s hl hs hi
  obtain ⟨r, hr⟩ := hs.report_ok hi
  have hexec := exec_reports i s hl
  rw [hr] at hexec
  obtain ⟨b, c, h⟩ := hexec
  exact ⟨_, h⟩

/-! ### Early ends -/

/-- A registration that ends early found the table full and wrote nothing (R152, R202). -/
theorem exec_tables_of_early {i : Instr} {s t : State} {e : EarlyEnd} (h : exec i s = .next t) (he : t.lastEnd = some e) :
    t.dispatch = s.dispatch ∧ t.ports = s.ports := by
  obtain ⟨hdispatch, hports⟩ := onlyTableCommandsWriteTables i s t h
  constructor
  · by_contra hne
    obtain ⟨key, hnd, rfl⟩ := hdispatch hne
    by_cases hfull : s.dispatch.lookup key = none ∧ s.dispatch.length = s.caps.dispatch
    · rw [exec_netRegister_full key hnd s hfull] at h; cases h
      exact hne rfl
    · rw [exec_netRegister key hnd s hfull] at h; cases h
      cases he
  · by_contra hne
    obtain ⟨key, hnd, rfl⟩ | ⟨key, rfl⟩ := hports hne
    · by_cases hfull : s.ports.lookup key = none ∧ s.ports.length = s.caps.ports
      · rw [exec_udpOpen_full key hnd s hfull] at h; cases h
        exact hne rfl
      · rw [exec_udpOpen key hnd s hfull] at h; cases h
        cases he
    · rw [exec_udpClose key s] at h; cases h
      cases he

/-- CR.IP_ID changes only in a command that completed (R178). -/
theorem exec_ipId_of_early {i : Instr} {s t : State} {e : EarlyEnd} (h : exec i s = .next t) (he : t.lastEnd = some e) :
    t.ipId = s.ipId := by
  rcases exec_ipId h with hsame | ⟨-, -, hnone, -⟩
  · exact hsame
  · rw [hnone] at he; cases he

/-- The response of a command is that of its end (R24, R212). -/
theorem exec_response_of_early {i : Instr} {s t : State} {e : EarlyEnd} (h : exec i s = .next t)
    (he : t.lastEnd = some e) : t.status = statusOf (some e) ∧ t.result = 0#16 := by
  obtain ⟨early, v, u, -, rfl, -⟩ := exec_ends move_fixed (allows_fixed i) h
  obtain rfl : early = some e := he
  exact ⟨rfl, rfl⟩

/-- Settles O33: each register is kept by its own lemma, and STATUS is the code of the end. -/
theorem earlyEndsLeaveRegistersAndTables : Obligations.EarlyEndsLeaveRegistersAndTables := by
  intro i s t e h he
  obtain ⟨hdispatch, hports⟩ := exec_tables_of_early h he
  obtain ⟨-, hmac, hip, hmtu, httl⟩ := exec_fixed h
  obtain ⟨hstatus, hresult⟩ := exec_response_of_early h he
  refine ⟨hdispatch, hports, exec_ipId_of_early h he, hmac, hip, hmtu, httl, hresult, hstatus.trans ?_⟩
  rcases e with r | c | f
  · rfl
  · rfl
  · cases f <;> rfl

/-! ### Events of early ends -/

/-- The events that left before the packet a command works on was looked at: the poll that fetched it (R148). -/
def fetchEvents (i : Instr) : List Event := if i = .ethPoll then [.drvPoll] else []

/-- A drop added no event to `pre`, a notification one (R210, R211). -/
def Report.MildAfter (pre : List Event) (r : Report) : Prop :=
  (∀ x, r.early = some (.drop x) → r.events = pre) ∧
    ∀ c, r.early = some (.notify c) → ∃ orig ip reason, r.events = pre ++ [.icmpUnreach orig ip reason]

/-- A command that ended in another way promises nothing. -/
theorem Report.mildAfter_of_ne {r : Report} (hdrop : ∀ x, r.early ≠ some (.drop x))
    (hnotify : ∀ c, r.early ≠ some (.notify c)) (pre : List Event) : r.MildAfter pre :=
  ⟨fun x hx => absurd hx (hdrop x), fun c hc => absurd hc (hnotify c)⟩

/-- A command that reads a payload ends as mildly as its unit. -/
theorem State.mildAfter_of_reading {s : State} {p : Bytes} {x : Except Refusal Answer} {r : Report}
    (hx : ∀ a, x = .ok a → a.Mild) (h : s.reading p x = .ok r) : r.MildAfter [] := by
  unfold State.reading at h
  split at h
  · cases x with
    | error e => cases h
    | ok a =>
      cases h
      obtain ⟨-, hdrop, hnotify⟩ := hx a rfl
      exact ⟨hdrop, hnotify⟩
  · cases h; exact Report.mildAfter_of_ne (by rintro x ⟨⟩) (by rintro c ⟨⟩) _

/-- Only the receive commands drop and notify, and they do it as their units answer. -/
theorem State.report_mildAfter {s : State} {i : Instr} {r : Report} (h : s.report i = .ok r) :
    r.MildAfter (fetchEvents i) := by
  cases i with
  | ethRx f => exact State.mildAfter_of_reading (fun _ => State.ethAnswer_mild) h
  | netDispatch src proto p => exact State.mildAfter_of_reading (fun _ => State.netAnswer_mild) h
  | ipRx mac p => exact State.mildAfter_of_reading (fun _ => State.ipAnswer_mild) h
  | udpRx ip p => exact State.mildAfter_of_reading (by rintro a ⟨⟩; exact s.udpAnswer_mild _ _ _) h
  | ethPoll =>
    rw [State.report] at h
    cases hp : s.pollAnswer with
    | none => rw [hp] at h; cases h; exact Report.mildAfter_of_ne (by rintro x ⟨⟩) (by rintro c ⟨⟩) _
    | some f =>
      simp only [hp] at h
      split at h
      · cases ha : s.ethAnswer f with
        | error x => rw [ha] at h; cases h
        | ok a =>
          rw [ha] at h; cases h
          obtain ⟨-, hdrop, hnotify⟩ := State.ethAnswer_mild ha
          refine ⟨fun x hx => congrArg _ (hdrop x hx), fun c hc => ?_⟩
          obtain ⟨orig, ip, reason, hev⟩ := hnotify c hc
          exact ⟨orig, ip, reason, congrArg _ hev⟩
      · cases h; exact Report.mildAfter_of_ne (by rintro x ⟨⟩) (by rintro c ⟨⟩) _
  | ethTx mac proto p =>
    rw [State.report] at h
    split at h
    · cases h
      cases s.txAnswer with
      | true => exact Report.mildAfter_of_ne (by rintro x ⟨⟩) (by rintro c ⟨⟩) _
      | false => exact Report.mildAfter_of_ne (by rintro x ⟨⟩) (by rintro c ⟨⟩) _
    · cases h; exact Report.mildAfter_of_ne (by rintro x ⟨⟩) (by rintro c ⟨⟩) _
  | ipFragEmit ip proto ident off mf p =>
    rw [State.report] at h
    split at h
    · cases h; exact Report.mildAfter_of_ne (by rintro x ⟨⟩) (by rintro c ⟨⟩) _
    · exact State.mildAfter_of_reading (by rintro a ⟨⟩; exact ⟨by rintro f ⟨⟩, by rintro x ⟨⟩, by rintro c ⟨⟩⟩) h
  | _ =>
    -- The others look at no packet: every branch of their reports completes or fails.
    rw [State.report] at h
    repeat' split at h
    all_goals cases h; exact Report.mildAfter_of_ne (by rintro x ⟨⟩) (by rintro c ⟨⟩) _

/-- A command that ends has a report, and its next state is the one reported. -/
theorem exec_next_reported {i : Instr} {s t : State} (hl : s.configLegal = true) (h : exec i s = .next t) :
    ∃ (r : Report) (b c : Buffer), s.report i = .ok r ∧ t = s.reported r b c := by
  have hexec := exec_reports i s hl
  rw [h] at hexec
  cases hr : s.report i with
  | error x => rw [hr] at hexec; cases hexec
  | ok r =>
    rw [hr] at hexec
    obtain ⟨b, c, ht⟩ := hexec
    cases ht
    exact ⟨r, b, c, rfl, rfl⟩

theorem State.reported_trace (s : State) (r : Report) (b c : Buffer) : (s.reported r b c).trace =
    s.trace ++ r.events.map .event ++ [.response (statusOf r.early) (resultOf r.early r.value)] := rfl

theorem State.reported_lastEnd (s : State) (r : Report) (b c : Buffer) : (s.reported r b c).lastEnd = r.early := rfl

/-- Settles O34: a command's trace grows by the events of its report and one response. -/
theorem dropsAreSilentAndNotifiesSendOneEvent : Obligations.DropsAreSilentAndNotifiesSendOneEvent := by
  intro i s t hl h
  obtain ⟨r, b, c, hr, rfl⟩ := exec_next_reported hl h
  obtain ⟨hdrop, hnotify⟩ := State.report_mildAfter hr
  rw [State.reported_trace, State.reported_lastEnd]
  refine ⟨(fetchEvents i).map .event, fun hi => by simp [fetchEvents, hi], fun hi => by simp [fetchEvents, hi],
    fun x hearly => ?_, fun n hearly => ?_⟩
  · rw [hdrop x hearly, hearly]
    rfl
  · obtain ⟨orig, ip, reason, hev⟩ := hnotify n hearly
    refine ⟨orig, ip, reason, ?_⟩
    rw [hev, hearly]
    simp [statusOf, resultOf]

/-! ### Waiting -/

/-- Settles O8: fewer bytes than a whole command decode to none. -/
theorem incompleteCommandWaits : Obligations.IncompleteCommandWaits := by
  intro s hl he hshort
  rw [step_of_legal hl he, (decode_incomplete_iff s.port).2 hshort]

end Sys2Proof.Machine
end

section
/-!
PROOFS. The statements of 70_reset_and_hazards.md: the state after reset meets the invariant, the reset input does not
recall what has left the block, and a step refuses exactly the configurations that break a constraint of R9.
-/
namespace Sys2Proof.Machine

/-! ### Reset -/

/-- A Buffer with an empty window at 0 in which no byte holds a defined value is in bounds, whatever its capacity (R61). -/
theorem Buffer.ok_of_noData (cap epoch : Nat) : Buffer.Ok cap { data := [], start := 0, len := 0, epoch := epoch } :=
  ⟨List.Pairwise.nil, fun _ hc => absurd hc List.not_mem_nil, Nat.zero_le cap⟩

theorem Table.ok_nil (cap : Nat) : Table.Ok cap [] := ⟨List.Pairwise.nil, Nat.zero_le cap⟩

/-- Of the invariant, only the legality of the configuration depends on what reset samples (R250, R251). -/
theorem State.resetWith_inv {c : Config} (h : (State.resetWith c).configLegal = true) : (State.resetWith c).Inv :=
  ⟨h, rfl, Buffer.ok_of_noData _ _, Buffer.ok_of_noData _ _, Table.ok_nil _, Table.ok_nil _⟩

/-- The installed configuration is legal, whatever its open capacities are (R9). -/
theorem State.reset_configLegal : State.reset.configLegal = true :=
  State.reset.configLegal_iff.2 ⟨by decide, by decide, Nat.le_add_left 2 _, Nat.le_add_left 1 _, by decide⟩

/-- Settles O2: the premises are the constraints of R9, and reset leaves everything else of the invariant empty or IDLE. -/
theorem resetMeetsInvariant : Obligations.ResetMeetsInvariant :=
  ⟨fun c hmtu hunit hdispatch hports hbuf =>
    State.resetWith_inv ((State.resetWith c).configLegal_iff.2 ⟨hmtu, hunit, hdispatch, hports, hbuf⟩),
    State.resetWith_inv State.reset_configLegal⟩

/-- Settles O3: the reset input keeps the trace, and every other field named is that of the reset state. -/
theorem resetInputKeepsWhatHasLeft : Obligations.ResetInputKeepsWhatHasLeft := by
  intro c s
  obtain ⟨hmac, hip, hmtu, httl, hid, hdispatch, hports, hengine, -⟩ := resetValues c
  exact ⟨rfl, hmac, hip, hmtu, httl, hid, hdispatch, hports, hengine, rfl, rfl, rfl, rfl, rfl, rfl⟩

/-! ### Refused configurations -/

/-- In a legal configuration a step is refused only for a BUSY engine (R22), or for a handler reached with the wrong kind of
source (R157). -/
theorem step_refused_of_legal {s : State} {x : Refusal} (hl : s.configLegal = true) (h : step s = .refused x) :
    x = .engineBusy ∨ x = .wrongSource := by
  cases he : s.engine with
  | busy => rw [step_of_busy hl he] at h; cases h; exact .inl rfl
  | idle =>
    rw [step_of_legal hl he] at h
    cases hd : decode s.port with
    | incomplete => rw [hd] at h; cases h
    | illegal why rest => rw [hd] at h; cases h
    | command i rest => rw [hd] at h; exact .inr (exec_refused h)

theorem step_illegalConfiguration_iff (s : State) :
    step s = .refused .illegalConfiguration ↔ s.configLegal = false := by
  refine ⟨fun h => ?_, step_of_illegal⟩
  cases hl : s.configLegal with
  | false => rfl
  | true => rcases step_refused_of_legal hl h with hx | hx <;> cases hx

/-- Settles O9: a step refuses the configuration exactly when one of the five constraints of R9 fails. -/
theorem illegalConfigurationIsRefused : Obligations.IllegalConfigurationIsRefused := by
  intro s
  rw [step_illegalConfiguration_iff, ← Bool.not_eq_true, s.configLegal_iff]
  omega

end Sys2Proof.Machine
end
